-- ==== Sys2Proof/Word.lean ====
section
/-! DEFINITION. The words of the machine (00_scope.md R8, R9). -/

namespace Sys2Proof

/-- `u8`: one byte (R9). -/
abbrev Byte := BitVec 8

/-- `b32`: a 32-bit pattern, read as `u32`, as `i32` (two's complement) or as a binary32 value (R9). -/
abbrev Word := BitVec 32

/-- A byte string: a display-list name, a colour text, a source text, a memory image. -/
abbrev Bytes := List Byte

end Sys2Proof
end

