-- ==== Sys2Proof/Config.lean ====
section
/-! DEFINITION. The implementation parameters of 00_scope.md R7. Those with a stated value are that value; those marked
OPEN are opaque constants, about which nothing can be proved but what their type says. -/

namespace Sys2Proof.Config

/-- `SIZE_CODE`, in bytes (R7, 20_memory.md R80). -/
abbrev sizeCode : Nat := 0x10000
/-- `SIZE_VIDEO`. -/
abbrev sizeVideo : Nat := 0x40000
/-- `SIZE_AUDIO`. -/
abbrev sizeAudio : Nat := 0x10000
/-- `SIZE_ROM`. -/
abbrev sizeRom : Nat := 0x100000
/-- `SIZE_IO`. -/
abbrev sizeIo : Nat := 0x100
/-- `SIZE_CACHE`. -/
abbrev sizeCache : Nat := 0x4000
/-- `SIZE_SCRATCH`. -/
abbrev sizeScratch : Nat := 0x10000

/-- `STACK_DEPTH`: the most entries of the operand stack (R7). -/
abbrev stackDepth : Nat := 256
/-- `CALL_DEPTH`: the most entries of the call stack (R7). -/
abbrev callDepth : Nat := 256
/-- `DL_MAGIC`: the first byte of a serialised display list (R7). -/
def dlMagic : Byte := 0xD1
/-- `DL_MAX_PER_KIND`: the most commands of one kind in a list (R7). -/
abbrev dlMaxPerKind : Nat := 255
/-- `NAME_MAX`: the most bytes of a name (R7). -/
abbrev nameMax : Nat := 255

/-- The two values of `TAG_POLICY` (10_state.md R34). -/
inductive TagPolicy where
  /-- A typed read of a cell with another tag reads the bits. -/
  | reinterpret
  /-- A typed read of a cell with another tag faults with TAG_MISMATCH. -/
  | fault
deriving DecidableEq, Repr, Inhabited

/-- `TAG_POLICY`, OPEN (R7): unknown to every proof. -/
opaque tagPolicy : TagPolicy

/-- The five float operations that can yield a NaN (42_float_alu.md R250). -/
inductive FloatOp where
  | fadd | fsub | fmul | fdiv | fmod
deriving DecidableEq, Repr, Inhabited

/-- One binary32 NaN pattern: its sign bit, and its fraction less one (a NaN's 23-bit fraction is 1 to 8388607, so
every NaN pattern is one of these and each of these is a NaN). -/
structure NanPattern where
  negative : Bool
  payload : Fin 8388607
deriving DecidableEq, Repr, Inhabited

/-- `NAN_BITS(op, a, b)`, OPEN (R7): which NaN pattern a float operation that yields NaN writes. -/
opaque nanBits : FloatOp → Word → Word → NanPattern

/-- `FTOI_INVALID`, OPEN (R7): the `i32` FTOI writes for NaN or an out-of-range input. -/
opaque ftoiInvalid : Word

/-- `RAND_SOURCE` (R7, 60_exceptions.md R523): the value of the `n`-th draw, any 32-bit value. -/
opaque randSource : Nat → Word

/-- How much `TICK_SOURCE` has grown since the previous draw, at the `n`-th draw; at draw 0 its first value. -/
opaque tickIncrement : Nat → Nat

/-- `TICK_SOURCE` (R7, 60_exceptions.md R523): the value of the `n`-th draw. A sum of unknown naturals is exactly a
sequence of naturals of which none is smaller than the one before it. -/
def tickSource : Nat → Nat
  | 0 => tickIncrement 0
  | n + 1 => tickSource n + tickIncrement (n + 1)

end Sys2Proof.Config
end

