-- ==== Sys2Proof/Syntax.lean ====
section
/-! DEFINITION. The instructions: one constructor per row of spec/opcode_table.json (30_encoding.md R139). -/

namespace Sys2Proof

/-- One decoded instruction with its fields (30_encoding.md R132). Register operands (`r`, `ra`, `rb`) are the raw
index bytes, 0 to 255; an index of 64 or more makes the instruction a skip (R136). Strings hold the bytes of the field
`s` without the length byte. -/
inductive Instr where
  /-- HLT, 0x00, format N, R333: stop. -/
  | hlt
  /-- MOV, 0x01, format RI, R200: load an integer immediate. -/
  | mov (r : Byte) (imm : Word)
  /-- MOVF, 0x02, format RI, R201: load a binary32 immediate. -/
  | movf (r : Byte) (imm : Word)
  /-- LI, 0x03, format RI, R202: load an integer immediate. -/
  | li (r : Byte) (imm : Word)
  /-- ADD, 0x10, format RR, R221: ra <- ra + rb. -/
  | add (ra rb : Byte)
  /-- SUB, 0x11, format RR, R222: ra <- ra - rb. -/
  | sub (ra rb : Byte)
  /-- MUL, 0x12, format RR, R223: ra <- ra * rb. -/
  | mul (ra rb : Byte)
  /-- DIV, 0x13, format RR, R224: ra <- ra / rb. -/
  | div (ra rb : Byte)
  /-- AND, 0x14, format RR, R225: ra <- ra and rb. -/
  | and (ra rb : Byte)
  /-- OR, 0x15, format RR, R226: ra <- ra or rb. -/
  | or (ra rb : Byte)
  /-- XOR, 0x16, format RR, R227: ra <- ra xor rb. -/
  | xor (ra rb : Byte)
  /-- NOT, 0x17, format R, R228: r <- not r. -/
  | not (r : Byte)
  /-- SHL, 0x18, format RR, R229: ra <- ra shifted left by rb. -/
  | shl (ra rb : Byte)
  /-- SHR, 0x19, format RR, R230: ra <- ra shifted right by rb, arithmetic. -/
  | shr (ra rb : Byte)
  /-- ADDI, 0x20, format RI, R231: r <- r + imm. -/
  | addi (r : Byte) (imm : Word)
  /-- SUBI, 0x21, format RI, R232: r <- r - imm. -/
  | subi (r : Byte) (imm : Word)
  /-- MULI, 0x22, format RI, R233: r <- r * imm. -/
  | muli (r : Byte) (imm : Word)
  /-- DIVI, 0x23, format RI, R234: r <- r / imm. -/
  | divi (r : Byte) (imm : Word)
  /-- ANDI, 0x24, format RI, R235: r <- r and imm. -/
  | andi (r : Byte) (imm : Word)
  /-- ORI, 0x25, format RI, R236: r <- r or imm. -/
  | ori (r : Byte) (imm : Word)
  /-- XORI, 0x26, format RI, R237: r <- r xor imm. -/
  | xori (r : Byte) (imm : Word)
  /-- SHLI, 0x28, format RI, R238: r <- r shifted left by imm. -/
  | shli (r : Byte) (imm : Word)
  /-- SHRI, 0x29, format RI, R239: r <- r shifted right by imm, arithmetic. -/
  | shri (r : Byte) (imm : Word)
  /-- FADD, 0x30, format RR, R251: binary32 addition. -/
  | fadd (ra rb : Byte)
  /-- FSUB, 0x31, format RR, R252: binary32 subtraction. -/
  | fsub (ra rb : Byte)
  /-- FMUL, 0x32, format RR, R253: binary32 multiplication. -/
  | fmul (ra rb : Byte)
  /-- FDIV, 0x33, format RR, R254: binary32 division. -/
  | fdiv (ra rb : Byte)
  /-- FMOD, 0x34, format RR, R255: binary32 remainder. -/
  | fmod (ra rb : Byte)
  /-- ITOF, 0x38, format R, R205: integer to binary32, in place. -/
  | itof (r : Byte)
  /-- FTOI, 0x39, format R, R206: binary32 to integer, in place. -/
  | ftoi (r : Byte)
  /-- CMP, 0x40, format RR, R271: compare two registers. -/
  | cmp (ra rb : Byte)
  /-- CMPI, 0x41, format RI, R272: compare a register with an immediate. -/
  | cmpi (r : Byte) (imm : Word)
  /-- JMP, 0x50, format A, R291: jump. -/
  | jmp (addr : Word)
  /-- JZ, 0x51, format A, R292: jump if Zero (alias JE). -/
  | jz (addr : Word)
  /-- JNZ, 0x52, format A, R293: jump if not Zero (alias JNE). -/
  | jnz (addr : Word)
  /-- JG, 0x53, format A, R294: jump if Greater. -/
  | jg (addr : Word)
  /-- JL, 0x54, format A, R295: jump if Less. -/
  | jl (addr : Word)
  /-- JGE, 0x55, format A, R296: jump if Greater or Equal. -/
  | jge (addr : Word)
  /-- JLE, 0x56, format A, R297: jump if Less or Equal. -/
  | jle (addr : Word)
  /-- CALL, 0x58, format A, R298: call a subroutine. -/
  | call (addr : Word)
  /-- RET, 0x59, format N, R299: return from a subroutine. -/
  | ret
  /-- PUSH, 0x60, format R, R320: push a register. -/
  | push (r : Byte)
  /-- POP, 0x61, format R, R321: pop into a register. -/
  | pop (r : Byte)
  /-- IN, 0x68, format RI, R326: read an IO byte. -/
  | inp (r : Byte) (imm : Word)
  /-- OUT, 0x69, format RI, R327: write an IO byte. -/
  | out (r : Byte) (imm : Word)
  /-- RAND, 0x70, format R, R330: a random integer. -/
  | rand (r : Byte)
  /-- TIME, 0x71, format R, R331: the tick count. -/
  | time (r : Byte)
  /-- INT, 0x72, format B, R332: software interrupt, not implemented. -/
  | intr (b : Byte)
  /-- LOADI, 0x80, format M, R350: load 4 bytes from a domain. -/
  | loadi (dom kind : Byte) (off : Word) (r : Byte)
  /-- STOREI, 0x81, format M, R351: store 4 bytes into a domain. -/
  | storei (dom kind : Byte) (off : Word) (r : Byte)
  /-- DLSTART, 0x90, format S, R390: start recording a list. -/
  | dlstart (s : Bytes)
  /-- DLPRIMITIVE, 0x91, format B, R391: add a primitive command. -/
  | dlprimitive (b : Byte)
  /-- DLCOLOR, 0x92, format S, R392: add a colour command. -/
  | dlcolor (s : Bytes)
  /-- DLVERTEX, 0x93, format V, R393: add a vertex command. -/
  | dlvertex (fx fy fz : Word)
  /-- DLEND, 0x94, format N, R394: seal the open list. -/
  | dlend
  /-- DLCALL, 0x95, format SV, R395: draw a sealed list. -/
  | dlcall (s : Bytes) (fx fy fz : Word)
  /-- STOREMODEL, 0x96, format RS, R396: put a list reference into a register. -/
  | storemodel (r : Byte) (s : Bytes)
  /-- LOADMODEL, 0x97, format R, R397: store the list a register names into Video. -/
  | loadmodel (r : Byte)
deriving DecidableEq, Repr

end Sys2Proof
end

