-- ==== Sys2Proof/Machine/State.lean ====
section
/-! DEFINITION. The state of the core (10_state.md, 20_memory.md), as plain data, and the state after reset. -/

namespace Sys2Proof.Machine

/-- The index of a register cell: 0 to 31 general, 32 to 63 graphics (10_state.md R30). -/
abbrev RegIdx := Fin 64

/-- The tag of a register cell (10_state.md R31). -/
inductive Tag where
  | integer | float | model
deriving DecidableEq, Repr

/-- One register cell: its 32-bit pattern, its tag and its model name (R31). -/
structure RegCell where
  bits : Word
  tag : Tag
  name : Bytes
deriving DecidableEq, Repr

/-- The seven domains (20_memory.md R80). -/
inductive Domain where
  | code | video | audio | rom | io | cache | scratch
deriving DecidableEq, Repr

/-- The bytes of the seven domains (20_memory.md R80, R81): for each domain the bytes that differ from what an unlisted
address reads as, by strictly rising address. -/
structure Memory where
  code : List Host.Cell
  video : List Host.Cell
  audio : List Host.Cell
  rom : List Host.Cell
  io : List Host.Cell
  cache : List Host.Cell
  scratch : List Host.Cell
deriving DecidableEq, Repr

/-- One display-list command (10_state.md R51). -/
inductive DlCommand where
  | prim (t : Byte)
  | color (r g b : Byte)
  | vertex (x y z : Word)
deriving DecidableEq, Repr

/-- The display-list manager (R51): the sealed lists by strictly rising name, and the list in progress. -/
structure DlManager where
  lists : List (Bytes × List DlCommand)
  building : Option (Bytes × List DlCommand)
deriving DecidableEq, Repr

/-- A record of the renderer channel (60_exceptions.md R524); `place` is the address and length of the serialised
record in Video, or none for the host's own `call`. -/
structure RenderCall where
  name : Bytes
  x : Word
  y : Word
  z : Word
  place : Option (Nat × Nat)
deriving DecidableEq, Repr

/-- The stop causes (60_exceptions.md R501). -/
inductive StopCode where
  | none | halt | endOfProgram | illegalOpcode | badTarget | emptyReturn | external | powerOn
  | stackOverflow | stackUnderflow | callStackOverflow | dlAlreadyOpen | dlNotOpen | dlDuplicateName
  | dlUnknownList | dlListFull | badColor | tagMismatch
deriving DecidableEq, Repr

/-- Why an instruction was skipped (60_exceptions.md R504). -/
inductive SkipReason where
  | badRegister | badOffsetKind
deriving DecidableEq, Repr

/-- An entry of the diagnostic channel (60_exceptions.md R505). -/
inductive LogEntry where
  | halted (c : StopCode) (pc : Word)
  | faulted (c : StopCode) (pc : Word)
  | skipped (reason : SkipReason) (pc : Word) (op : Byte)
  | divByZero (pc : Word)
  | unimplementedInterrupt (number : Byte)
  | notAModel (pc : Word)
deriving DecidableEq, Repr

/-- The state of the machine (10_state.md, 20_memory.md). -/
structure State where
  /-- `x`, `tag` and `name` (R30, R31). -/
  regs : Vector RegCell 64
  /-- `FLAGS` (R40). -/
  flags : Word
  /-- `GFLAGS` (R43). -/
  gflags : Word
  /-- `pc` (R45). -/
  pc : Word
  /-- `running` (R46). -/
  running : Bool
  /-- `STOP` (R47). -/
  stop : Byte
  /-- `programLength` (R48). -/
  programLength : Word
  /-- `CS` (R49), oldest entry first. -/
  callStack : List Word
  /-- `OS` (R50), oldest entry first. -/
  operandStack : List Word
  /-- `DL.lists` and `DL.open` (R51). -/
  dl : DlManager
  /-- `VCUR` (R52). -/
  vcur : Word
  /-- The seven domains (20_memory.md R80). -/
  mem : Memory
  /-- The renderer channel (R53): the records the host has not taken, oldest first. -/
  renderCalls : List RenderCall
  /-- The diagnostic channel (R53, R505): the entries the host has not taken, oldest first. -/
  log : List LogEntry
  /-- The model's own: how many values RAND has drawn (R54, 60_exceptions.md R523). -/
  randDraws : Nat
  /-- The model's own: how many values TIME has drawn (R54, 60_exceptions.md R523). -/
  tickDraws : Nat
deriving DecidableEq, Repr

/-- Why the model stops where the spec describes no step. -/
inductive Fault where
  /-- Raised by `step` when the next instruction's bytes lie beyond the Code domain, which needs a programLength above
  SIZE_CODE: 30_encoding.md R131 says no state of the machine has one. Safe: no behaviour of the machine is replaced. -/
  | fetchOutsideCode
deriving DecidableEq, Repr

/-- Why the model gives an instruction no meaning. -/
inductive Refusal where
  /-- An instruction without a meaning yet; no arm of exec answers it. Safe. -/
  | notModelled (mnemonic : String)
deriving DecidableEq, Repr

/-- What a step and a meaning answer. -/
abbrev Result := Host.Outcome State Fault Refusal

/-- A register cell after reset (10_state.md R56). -/
def RegCell.reset : RegCell := ⟨0x00000000, .integer, []⟩

/-- The machine right after reset: the power-on state (70_reset_and_hazards.md R552) with the CPU reset port applied
(R550), every value as 10_state.md R56 lists it. No program is loaded: programLength is 0. The two channels and the two
draw counters start empty and at 0 (DESIGN CHOICE, log entries 6, 7, 11, 12). -/
def State.reset : State where
  regs := Vector.replicate 64 RegCell.reset
  flags := 0
  gflags := 0
  pc := 0
  running := true
  stop := 0x00
  programLength := 0
  callStack := []
  operandStack := []
  dl := ⟨[], none⟩
  vcur := 0
  mem := ⟨[], [], [], [], [], [], []⟩
  renderCalls := []
  log := []
  randDraws := 0
  tickDraws := 0

end Sys2Proof.Machine
end

