-- ==== Sys2Proof/Machine/Flags.lean ====
section
/-! DEFINITION. The flag bits of FLAGS and every flag computation (10_state.md R40 to R42). -/

namespace Sys2Proof.Machine

/-- The named flags (R40). -/
inductive Flag where
  | z | c | v | n | g | l | e | ge | le | err
deriving DecidableEq, Repr

/-- The bit of a flag in FLAGS (R40). -/
def Flag.bit : Flag → Nat
  | .z => 0
  | .c => 1
  | .v => 2
  | .n => 3
  | .g => 4
  | .l => 5
  | .e => 6
  | .ge => 7
  | .le => 8
  | .err => 9

/-- `F.X`: one flag of a flags word. -/
def flagOf (w : Word) (f : Flag) : Bool := w.getLsbD f.bit

/-- A flags word with one flag written. -/
def withFlag (w : Word) (f : Flag) (b : Bool) : Word :=
  if b then w ||| (1#32 <<< f.bit) else w &&& ~~~(1#32 <<< f.bit)

/-- `F.X` of the machine. -/
def State.flag (s : State) (f : Flag) : Bool := flagOf s.flags f

/-- `F.X <- b`. -/
def State.setFlag (s : State) (f : Flag) (b : Bool) : State := { s with flags := withFlag s.flags f b }

/-- The comparison mask: G, L, E, GE and LE (R40). -/
def comparisonMask : Word := 0x000001F0

/-- The flags after an integer ALU result (41_integer_alu.md R220): Z alone is written. -/
def flagsOfResult (w res : Word) : Word := withFlag w .z (decide (res = 0))

/-- The flags after CMP of `a` with `b` (43_compare.md R271): G, L, E and Z are written, GE and LE are not. -/
def flagsOfCmp (w a b : Word) : Word :=
  withFlag (withFlag (withFlag (withFlag w .g (b.slt a)) .l (a.slt b)) .e (decide (a = b))) .z (decide (a = b))

/-- The flags after CMPI of `a` with `b` (43_compare.md R272): the whole comparison mask is cleared, then G, L, E, GE, LE
and Z are written. -/
def flagsOfCmpi (w a b : Word) : Word :=
  let cleared := w &&& ~~~comparisonMask
  let plain := withFlag (withFlag (withFlag cleared .g (b.slt a)) .l (a.slt b)) .e (decide (a = b))
  withFlag (withFlag (withFlag plain .ge (b.sle a)) .le (a.sle b)) .z (decide (a = b))

end Sys2Proof.Machine
end

