-- ==== Sys2Proof/WellFormed.lean ====
section
/-! DEFINITION. Which terms of Instr are instructions: those an encoding exists for. Every field is a whole bit field
but the strings, whose length must fit the one length byte (30_encoding.md R138, 00_scope.md R7 NAME_MAX). -/

namespace Sys2Proof

/-- A string field of at most NAME_MAX bytes. -/
def stringFits (s : Bytes) : Bool := decide (s.length ≤ Config.nameMax)

/-- The instruction has an encoding. -/
def Instr.wellFormed : Instr → Bool
  | .dlstart s => stringFits s
  | .dlcolor s => stringFits s
  | .dlcall s _ _ _ => stringFits s
  | .storemodel _ s => stringFits s
  | .hlt | .ret | .dlend => true
  | .mov _ _ | .movf _ _ | .li _ _ | .addi _ _ | .subi _ _ | .muli _ _ | .divi _ _ | .andi _ _ | .ori _ _
  | .xori _ _ | .shli _ _ | .shri _ _ | .cmpi _ _ | .inp _ _ | .out _ _ => true
  | .add _ _ | .sub _ _ | .mul _ _ | .div _ _ | .and _ _ | .or _ _ | .xor _ _ | .shl _ _ | .shr _ _
  | .fadd _ _ | .fsub _ _ | .fmul _ _ | .fdiv _ _ | .fmod _ _ | .cmp _ _ => true
  | .not _ | .itof _ | .ftoi _ | .push _ | .pop _ | .rand _ | .time _ | .loadmodel _ => true
  | .jmp _ | .jz _ | .jnz _ | .jg _ | .jl _ | .jge _ | .jle _ | .call _ => true
  | .intr _ | .dlprimitive _ => true
  | .loadi _ _ _ _ | .storei _ _ _ _ => true
  | .dlvertex _ _ _ => true

end Sys2Proof
end

