-- ==== Sys2Proof/Decode.lean ====
section
/-! DEFINITION. The decoder and the encoder, both from the format table of 30_encoding.md R132 and the opcode map of
R139. -/

namespace Sys2Proof

/-- The 32-bit value of four bytes, the first at the lowest address (30_encoding.md R133, 00_scope.md R8). -/
def ofLe32 (b0 b1 b2 b3 : Byte) : Word := b3 ++ b2 ++ b1 ++ b0

/-- The four bytes of a 32-bit value, least significant first (R133, 47_display_list.md R377 `le32`). -/
def le32 (w : Word) : Bytes :=
  [w.extractLsb' 0 8, w.extractLsb' 8 8, w.extractLsb' 16 8, w.extractLsb' 24 8]

/-- The eleven formats (R132). -/
inductive Format where
  | n | ri | rr | r | a | b | m | s | v | sv | rs
deriving DecidableEq, Repr

/-- A row of the opcode map: a format, with the instruction its fields make. -/
inductive Builder where
  | n (i : Instr)
  | ri (mk : Byte → Word → Instr)
  | rr (mk : Byte → Byte → Instr)
  | r (mk : Byte → Instr)
  | a (mk : Word → Instr)
  | b (mk : Byte → Instr)
  | m (mk : Byte → Byte → Word → Byte → Instr)
  | s (mk : Bytes → Instr)
  | v (mk : Word → Word → Word → Instr)
  | sv (mk : Bytes → Word → Word → Word → Instr)
  | rs (mk : Byte → Bytes → Instr)

/-- The format of a row. -/
def Builder.format : Builder → Format
  | .n _ => .n
  | .ri _ => .ri
  | .rr _ => .rr
  | .r _ => .r
  | .a _ => .a
  | .b _ => .b
  | .m _ => .m
  | .s _ => .s
  | .v _ => .v
  | .sv _ => .sv
  | .rs _ => .rs

/-- The opcode map (R139); every other opcode byte is illegal (R140). -/
def opcodeMap (op : Byte) : Option Builder :=
  match op.toNat with
  | 0x00 => some (.n .hlt)
  | 0x01 => some (.ri .mov)
  | 0x02 => some (.ri .movf)
  | 0x03 => some (.ri .li)
  | 0x10 => some (.rr .add)
  | 0x11 => some (.rr .sub)
  | 0x12 => some (.rr .mul)
  | 0x13 => some (.rr .div)
  | 0x14 => some (.rr .and)
  | 0x15 => some (.rr .or)
  | 0x16 => some (.rr .xor)
  | 0x17 => some (.r .not)
  | 0x18 => some (.rr .shl)
  | 0x19 => some (.rr .shr)
  | 0x20 => some (.ri .addi)
  | 0x21 => some (.ri .subi)
  | 0x22 => some (.ri .muli)
  | 0x23 => some (.ri .divi)
  | 0x24 => some (.ri .andi)
  | 0x25 => some (.ri .ori)
  | 0x26 => some (.ri .xori)
  | 0x28 => some (.ri .shli)
  | 0x29 => some (.ri .shri)
  | 0x30 => some (.rr .fadd)
  | 0x31 => some (.rr .fsub)
  | 0x32 => some (.rr .fmul)
  | 0x33 => some (.rr .fdiv)
  | 0x34 => some (.rr .fmod)
  | 0x38 => some (.r .itof)
  | 0x39 => some (.r .ftoi)
  | 0x40 => some (.rr .cmp)
  | 0x41 => some (.ri .cmpi)
  | 0x50 => some (.a .jmp)
  | 0x51 => some (.a .jz)
  | 0x52 => some (.a .jnz)
  | 0x53 => some (.a .jg)
  | 0x54 => some (.a .jl)
  | 0x55 => some (.a .jge)
  | 0x56 => some (.a .jle)
  | 0x58 => some (.a .call)
  | 0x59 => some (.n .ret)
  | 0x60 => some (.r .push)
  | 0x61 => some (.r .pop)
  | 0x68 => some (.ri .inp)
  | 0x69 => some (.ri .out)
  | 0x70 => some (.r .rand)
  | 0x71 => some (.r .time)
  | 0x72 => some (.b .intr)
  | 0x80 => some (.m .loadi)
  | 0x81 => some (.m .storei)
  | 0x90 => some (.s .dlstart)
  | 0x91 => some (.b .dlprimitive)
  | 0x92 => some (.s .dlcolor)
  | 0x93 => some (.v .dlvertex)
  | 0x94 => some (.n .dlend)
  | 0x95 => some (.sv .dlcall)
  | 0x96 => some (.rs .storemodel)
  | 0x97 => some (.r .loadmodel)
  | _ => none

/-- What the bytes at the front of a sequence are (R144): an instruction and the bytes after it, an illegal opcode, or
an instruction cut short. -/
inductive Decoded where
  | instr (i : Instr) (rest : Bytes)
  | illegalOpcode (op : Byte)
  | truncated
deriving DecidableEq, Repr

/-- Exactly so many bytes, and the bytes after them; none where bytes are missing. -/
def takeExactly : Nat → Bytes → Option (Bytes × Bytes)
  | 0, rest => some ([], rest)
  | _ + 1, [] => none
  | n + 1, b :: rest => (takeExactly n rest).map fun (s, rest) => (b :: s, rest)

/-- A length-prefixed string (R138): the string and the bytes after it. -/
def decodeString : Bytes → Option (Bytes × Bytes)
  | n :: rest => takeExactly n.toNat rest
  | [] => none

/-- Three little-endian 32-bit fields. -/
def decodeTriple : Bytes → Option ((Word × Word × Word) × Bytes)
  | x0 :: x1 :: x2 :: x3 :: y0 :: y1 :: y2 :: y3 :: z0 :: z1 :: z2 :: z3 :: rest =>
    some ((ofLe32 x0 x1 x2 x3, ofLe32 y0 y1 y2 y3, ofLe32 z0 z1 z2 z3), rest)
  | _ => none

/-- The fields after the opcode byte (R132, R133); none where bytes are missing. -/
def decodeFields : Builder → Bytes → Option (Instr × Bytes)
  | .n i, rest => some (i, rest)
  | .ri mk, r :: b0 :: b1 :: b2 :: b3 :: rest => some (mk r (ofLe32 b0 b1 b2 b3), rest)
  | .rr mk, ra :: rb :: rest => some (mk ra rb, rest)
  | .r mk, r :: rest => some (mk r, rest)
  | .a mk, b0 :: b1 :: b2 :: b3 :: rest => some (mk (ofLe32 b0 b1 b2 b3), rest)
  | .b mk, b :: rest => some (mk b, rest)
  | .m mk, dom :: kind :: o0 :: o1 :: o2 :: o3 :: r :: rest => some (mk dom kind (ofLe32 o0 o1 o2 o3) r, rest)
  | .s mk, bs => (decodeString bs).map fun (s, rest) => (mk s, rest)
  | .v mk, bs => (decodeTriple bs).map fun ((x, y, z), rest) => (mk x y z, rest)
  | .sv mk, bs =>
    (decodeString bs).bind fun (s, rest) => (decodeTriple rest).map fun ((x, y, z), rest) => (mk s x y z, rest)
  | .rs mk, r :: bs => (decodeString bs).map fun (s, rest) => (mk r s, rest)
  | _, _ => none

/-- Decode the instruction at the front of a byte sequence (R144). -/
def decode : Bytes → Decoded
  | [] => .truncated
  | op :: rest =>
    match opcodeMap op with
    | none => .illegalOpcode op
    | some row =>
      match decodeFields row rest with
      | some (i, rest) => .instr i rest
      | none => .truncated

/-- The length byte of a string field (R132); exact for strings of at most 255 bytes. -/
def lengthByte (s : Bytes) : Byte := BitVec.ofNat 8 s.length

/-- The opcode of an instruction (R139). -/
def Instr.opcode : Instr → Byte
  | .hlt => 0x00
  | .mov _ _ => 0x01
  | .movf _ _ => 0x02
  | .li _ _ => 0x03
  | .add _ _ => 0x10
  | .sub _ _ => 0x11
  | .mul _ _ => 0x12
  | .div _ _ => 0x13
  | .and _ _ => 0x14
  | .or _ _ => 0x15
  | .xor _ _ => 0x16
  | .not _ => 0x17
  | .shl _ _ => 0x18
  | .shr _ _ => 0x19
  | .addi _ _ => 0x20
  | .subi _ _ => 0x21
  | .muli _ _ => 0x22
  | .divi _ _ => 0x23
  | .andi _ _ => 0x24
  | .ori _ _ => 0x25
  | .xori _ _ => 0x26
  | .shli _ _ => 0x28
  | .shri _ _ => 0x29
  | .fadd _ _ => 0x30
  | .fsub _ _ => 0x31
  | .fmul _ _ => 0x32
  | .fdiv _ _ => 0x33
  | .fmod _ _ => 0x34
  | .itof _ => 0x38
  | .ftoi _ => 0x39
  | .cmp _ _ => 0x40
  | .cmpi _ _ => 0x41
  | .jmp _ => 0x50
  | .jz _ => 0x51
  | .jnz _ => 0x52
  | .jg _ => 0x53
  | .jl _ => 0x54
  | .jge _ => 0x55
  | .jle _ => 0x56
  | .call _ => 0x58
  | .ret => 0x59
  | .push _ => 0x60
  | .pop _ => 0x61
  | .inp _ _ => 0x68
  | .out _ _ => 0x69
  | .rand _ => 0x70
  | .time _ => 0x71
  | .intr _ => 0x72
  | .loadi _ _ _ _ => 0x80
  | .storei _ _ _ _ => 0x81
  | .dlstart _ => 0x90
  | .dlprimitive _ => 0x91
  | .dlcolor _ => 0x92
  | .dlvertex _ _ _ => 0x93
  | .dlend => 0x94
  | .dlcall _ _ _ _ => 0x95
  | .storemodel _ _ => 0x96
  | .loadmodel _ => 0x97

/-- The bytes after the opcode (R132, R133). -/
def Instr.operandBytes : Instr → Bytes
  | .hlt | .ret | .dlend => []
  | .mov r imm | .movf r imm | .li r imm | .addi r imm | .subi r imm | .muli r imm | .divi r imm | .andi r imm
  | .ori r imm | .xori r imm | .shli r imm | .shri r imm | .cmpi r imm | .inp r imm | .out r imm => r :: le32 imm
  | .add ra rb | .sub ra rb | .mul ra rb | .div ra rb | .and ra rb | .or ra rb | .xor ra rb | .shl ra rb
  | .shr ra rb | .fadd ra rb | .fsub ra rb | .fmul ra rb | .fdiv ra rb | .fmod ra rb | .cmp ra rb => [ra, rb]
  | .not r | .itof r | .ftoi r | .push r | .pop r | .rand r | .time r | .loadmodel r => [r]
  | .jmp addr | .jz addr | .jnz addr | .jg addr | .jl addr | .jge addr | .jle addr | .call addr => le32 addr
  | .intr b | .dlprimitive b => [b]
  | .loadi dom kind off r | .storei dom kind off r => dom :: kind :: (le32 off ++ [r])
  | .dlstart s | .dlcolor s => lengthByte s :: s
  | .dlvertex fx fy fz => le32 fx ++ le32 fy ++ le32 fz
  | .dlcall s fx fy fz => lengthByte s :: (s ++ (le32 fx ++ le32 fy ++ le32 fz))
  | .storemodel r s => r :: lengthByte s :: s

/-- The bytes of an instruction, in memory order. -/
def encode (i : Instr) : Bytes := i.opcode :: i.operandBytes

/-- `len`: the byte length of an instruction (R134). -/
def Instr.len : Instr → Nat
  | .hlt | .ret | .dlend => 1
  | .mov _ _ | .movf _ _ | .li _ _ | .addi _ _ | .subi _ _ | .muli _ _ | .divi _ _ | .andi _ _ | .ori _ _
  | .xori _ _ | .shli _ _ | .shri _ _ | .cmpi _ _ | .inp _ _ | .out _ _ => 6
  | .add _ _ | .sub _ _ | .mul _ _ | .div _ _ | .and _ _ | .or _ _ | .xor _ _ | .shl _ _ | .shr _ _ | .fadd _ _
  | .fsub _ _ | .fmul _ _ | .fdiv _ _ | .fmod _ _ | .cmp _ _ => 3
  | .not _ | .itof _ | .ftoi _ | .push _ | .pop _ | .rand _ | .time _ | .loadmodel _ => 2
  | .jmp _ | .jz _ | .jnz _ | .jg _ | .jl _ | .jge _ | .jle _ | .call _ => 5
  | .intr _ | .dlprimitive _ => 2
  | .loadi _ _ _ _ | .storei _ _ _ _ => 8
  | .dlstart s | .dlcolor s => 2 + s.length
  | .dlvertex _ _ _ => 13
  | .dlcall s _ _ _ => 14 + s.length
  | .storemodel _ s => 3 + s.length

/-- The byte length of the longest instruction: DLCALL with a name of 255 bytes (R134). -/
def maxInstrLength : Nat := 14 + Config.nameMax

/-- The bytes of a number, least significant first (00_scope.md R8). -/
def numberBytes : Nat → Nat → Bytes
  | 0, _ => []
  | n + 1, w => BitVec.ofNat 8 w :: numberBytes n (w / 256)

/-- The bytes of an instruction whose low `nbits` bits are `w`, bit 0 the least significant bit of the first byte, and
whose other bits up to the longest instruction are zero. -/
def tableWordBytes (nbits w : Nat) : Bytes :=
  numberBytes (nbits / 8) w ++ List.replicate (maxInstrLength - nbits / 8) 0

/-- The instruction the decoder reads from a table word. -/
def decodeTableWord (nbits w : Nat) : Option Instr :=
  match decode (tableWordBytes nbits w) with
  | .instr i _ => some i
  | .illegalOpcode _ => none
  | .truncated => none

end Sys2Proof
end

