-- ==== Sys2Proof/Machine/Ops.lean ====
section
/-! DEFINITION. The named operations over domains, register cells, stacks and the control state, the stops, and the reset
ports: the pseudocode primitives of 00_scope.md R10. -/

namespace Sys2Proof.Machine

/-! ### Domains -/

/-- The size of a domain in bytes (20_memory.md R80). -/
def Domain.size : Domain → Nat
  | .code => Config.sizeCode
  | .video => Config.sizeVideo
  | .audio => Config.sizeAudio
  | .rom => Config.sizeRom
  | .io => Config.sizeIo
  | .cache => Config.sizeCache
  | .scratch => Config.sizeScratch

/-- The domain a number names; 7 and more name none (R80). -/
def Domain.ofNumber (d : Byte) : Option Domain :=
  match d.toNat with
  | 0 => some .code
  | 1 => some .video
  | 2 => some .audio
  | 3 => some .rom
  | 4 => some .io
  | 5 => some .cache
  | 6 => some .scratch
  | _ => none

/-- The listed bytes of a domain. -/
def Memory.bytes (m : Memory) : Domain → List Host.Cell
  | .code => m.code
  | .video => m.video
  | .audio => m.audio
  | .rom => m.rom
  | .io => m.io
  | .cache => m.cache
  | .scratch => m.scratch

/-- The memory with other listed bytes in one domain. -/
def Memory.withBytes (m : Memory) (d : Domain) (l : List Host.Cell) : Memory :=
  match d with
  | .code => { m with code := l }
  | .video => { m with video := l }
  | .audio => { m with audio := l }
  | .rom => { m with rom := l }
  | .io => { m with io := l }
  | .cache => { m with cache := l }
  | .scratch => { m with scratch := l }

/-- What an unlisted address reads as: every byte of every domain is 0x00 at power-on (70_reset_and_hazards.md R552). -/
def unlistedByte : Byte := 0x00

/-- The byte at an address of a listing. -/
def lookupByte : List Host.Cell → Nat → Byte
  | [], _ => unlistedByte
  | (a, v) :: t, x => if a = x then v else lookupByte t x

/-- The listing of consecutive bytes from an address upward. -/
def blockListing : Nat → Bytes → List Host.Cell
  | _, [] => []
  | a, v :: vs => if v = unlistedByte then blockListing (a + 1) vs else (a, v) :: blockListing (a + 1) vs

/-- Store consecutive bytes from an address upward, keeping the listing's canonical form: what lies below the block, the
block, what lies above it. -/
def storeBytes (l : List Host.Cell) (a : Nat) (vs : Bytes) : List Host.Cell :=
  l.filter (fun c => c.1 < a) ++ (blockListing a vs ++ l.filter (fun c => a + vs.length ≤ c.1))

/-- The canonical form of a listing: addresses strictly rising from `lo` and below `size`, and no listed byte equal to
what an unlisted address reads as. -/
def listingWf (lo size : Nat) : List Host.Cell → Bool
  | [] => true
  | (a, v) :: t => decide (lo ≤ a) && decide (a < size) && decide (v ≠ unlistedByte) && listingWf (a + 1) size t

/-- Every domain's listing is in canonical form. -/
def Memory.wf (m : Memory) : Bool :=
  listingWf 0 Domain.code.size m.code && listingWf 0 Domain.video.size m.video
    && listingWf 0 Domain.audio.size m.audio && listingWf 0 Domain.rom.size m.rom
    && listingWf 0 Domain.io.size m.io && listingWf 0 Domain.cache.size m.cache
    && listingWf 0 Domain.scratch.size m.scratch

/-- The byte at an address of a domain. -/
def Memory.byte (m : Memory) (d : Domain) (a : Nat) : Byte := lookupByte (m.bytes d) a

/-- `dom[d][a], dom[d][a+1], …`, `n` bytes. -/
def Memory.span (m : Memory) (d : Domain) (a n : Nat) : Bytes := (List.range n).map fun k => m.byte d (a + k)

/-- Store bytes with no check: the loop of 20_memory.md R85, also that of the ROM-load port (60_exceptions.md R522). -/
def Memory.store (m : Memory) (d : Domain) (a : Nat) (vs : Bytes) : Memory :=
  m.withBytes d (storeBytes (m.bytes d) a vs)

/-- `InRange(d, a, n)` (20_memory.md R82), on unbounded integers. -/
def inRange (d : Domain) (a : Int) (n : Nat) : Bool := decide (0 ≤ a) && decide (a + n ≤ d.size)

/-- `MemRead` of `n` bytes (R84); none is Err(OutOfRange). -/
def Memory.read (m : Memory) (d : Domain) (a : Int) (n : Nat) : Option Bytes :=
  if inRange d a n then some (m.span d a.toNat n) else none

/-- `MemRead(d, a, 4)` (R84, R87), little-endian. -/
def Memory.read32 (m : Memory) (d : Domain) (a : Int) : Option Word :=
  if inRange d a 4 then
    some (ofLe32 (m.byte d a.toNat) (m.byte d (a.toNat + 1)) (m.byte d (a.toNat + 2)) (m.byte d (a.toNat + 3)))
  else none

/-- `MemWrite` of the given bytes (R85); none is Err(OutOfRange), checked over the whole span and before the ROM drop. -/
def Memory.write (m : Memory) (d : Domain) (a : Int) (vs : Bytes) : Option Memory :=
  if inRange d a vs.length then
    some (if d = .rom then m else m.store d a.toNat vs)
  else none

/-! ### Control state and stops -/

/-- The code of a stop cause (60_exceptions.md R501). -/
def StopCode.code : StopCode → Byte
  | .none => 0x00
  | .halt => 0x01
  | .endOfProgram => 0x02
  | .illegalOpcode => 0x03
  | .badTarget => 0x04
  | .emptyReturn => 0x05
  | .external => 0x06
  | .powerOn => 0x07
  | .stackOverflow => 0x10
  | .stackUnderflow => 0x11
  | .callStackOverflow => 0x12
  | .dlAlreadyOpen => 0x13
  | .dlNotOpen => 0x14
  | .dlDuplicateName => 0x15
  | .dlUnknownList => 0x16
  | .dlListFull => 0x17
  | .badColor => 0x18
  | .tagMismatch => 0x19

/-- `log(...)` (60_exceptions.md R505). -/
def State.addLog (s : State) (e : LogEntry) : State := { s with log := s.log ++ [e] }

/-- `pc <- pc + len` (10_state.md R45). -/
def State.advance (s : State) (len : Nat) : State := { s with pc := s.pc + BitVec.ofNat 32 len }

/-- `pc <- target` (R45). -/
def State.jump (s : State) (target : Word) : State := { s with pc := target }

/-- `halt(c)` (60_exceptions.md R502). -/
def State.halt (s : State) (c : StopCode) : State :=
  ({ s with running := false, stop := c.code } : State).addLog (.halted c s.pc)

/-- `raise Fault(c)` (R503): the core's only way of taking an exception. -/
def State.raise (s : State) (c : StopCode) : State :=
  ({ s with running := false, stop := c.code } : State).addLog (.faulted c s.pc)

/-- `skip(reason)` (R504) of the instruction `i`. -/
def State.skip (s : State) (reason : SkipReason) (i : Instr) : State :=
  (s.addLog (.skipped reason s.pc i.opcode)).advance i.len

/-- The CPU reset port `cpuReset()` (70_reset_and_hazards.md R550): the one way on after a stop (60_exceptions.md R509). -/
def State.cpuReset (s : State) : State :=
  { s with
    regs := Vector.replicate 64 RegCell.reset
    flags := 0
    gflags := 0
    callStack := []
    pc := 0
    running := true
    stop := StopCode.none.code
    dl := ⟨[], Option.none⟩
    vcur := 0 }

/-- The memory reset port `memReset()` (70_reset_and_hazards.md R551, 20_memory.md R93). -/
def State.memReset (s : State) : State :=
  { s with
    mem := ⟨[], [], [], s.mem.rom, [], [], []⟩
    operandStack := []
    programLength := 0 }

/-- The power-on state (70_reset_and_hazards.md R552). -/
def State.atPowerOn : State := { State.reset with running := false, stop := StopCode.powerOn.code }

/-! ### Register cells -/

/-- The cell `i` (10_state.md R31). -/
def State.cell (s : State) (i : RegIdx) : RegCell := s.regs[i]

/-- Write a whole cell. -/
def State.setCell (s : State) (i : RegIdx) (c : RegCell) : State := { s with regs := s.regs.set i c }

/-- `WriteInt(i, v)` (R33). -/
def State.writeInt (s : State) (i : RegIdx) (v : Word) : State := s.setCell i ⟨v, .integer, []⟩

/-- `WriteFloat(i, f)` (R33). -/
def State.writeFloat (s : State) (i : RegIdx) (f : Word) : State := s.setCell i ⟨f, .float, []⟩

/-- `WriteModel(i, n)` (R33). -/
def State.writeModel (s : State) (i : RegIdx) (n : Bytes) : State := s.setCell i ⟨0x00000000, .model, n⟩

/-- `ReadInt(i)` and `ReadFloat(i)` (R34): the bits of a cell under the tag the read expects; none is a tag mismatch
that faults. -/
def State.readBits (s : State) (expected : Tag) (i : RegIdx) : Option Word :=
  if (s.cell i).tag = expected then some (s.cell i).bits
  else
    match Config.tagPolicy with
    | .reinterpret => some (s.cell i).bits
    | .fault => none

/-- What `ReadModel` answers (R34): a name, NoModel, or a tag mismatch that faults. -/
inductive ModelRead where
  | name (n : Bytes)
  | noModel
  | mismatch
deriving DecidableEq, Repr

/-- `ReadModel(i)` (R34). -/
def State.readModel (s : State) (i : RegIdx) : ModelRead :=
  if (s.cell i).tag = .model then .name (s.cell i).name
  else
    match Config.tagPolicy with
    | .reinterpret => .noModel
    | .fault => .mismatch

/-! ### Stacks -/

/-- Push on a stack of bounded depth (20_memory.md R95); none is overflow. -/
def pushBounded (depth : Nat) (st : List Word) (v : Word) : Option (List Word) :=
  if st.length < depth then some (st ++ [v]) else none

/-- Pop a stack (R95): the last value and the rest; none is underflow. -/
def popLast (st : List Word) : Option (Word × List Word) :=
  match st.getLast? with
  | some v => some (v, st.dropLast)
  | none => none

/-! ### Environment sources -/

/-- `draw RAND_SOURCE` (60_exceptions.md R523): the value, and the state after the draw. -/
def State.drawRand (s : State) : Word × State := (Config.randSource s.randDraws, { s with randDraws := s.randDraws + 1 })

/-- `draw TICK_SOURCE` (R523): the value, and the state after the draw. -/
def State.drawTick (s : State) : Nat × State := (Config.tickSource s.tickDraws, { s with tickDraws := s.tickDraws + 1 })

end Sys2Proof.Machine
end

