-- ==== Sys2Proof/Machine/Operands.lean ====
section
/-! DEFINITION. How an instruction gets its operands: the register-index check, typed reads, and the effective address of
format M. Each takes what the instruction does next; the checks run in the order of 60_exceptions.md R507. -/

namespace Sys2Proof.Machine

/-- Go on with the cell a register byte names, or skip the whole instruction when the index is 64 or more (10_state.md
R32, 30_encoding.md R136). -/
def withReg (i : Instr) (r : Byte) (s : State) (k : RegIdx → State) : State :=
  if h : r.toNat < 64 then k ⟨r.toNat, h⟩ else s.skip .badRegister i

/-- Go on with the bits of a cell read under a tag, or fault with TAG_MISMATCH (10_state.md R34). -/
def withBits (expected : Tag) (c : RegIdx) (s : State) (k : Word → State) : State :=
  match s.readBits expected c with
  | some v => k v
  | none => s.raise .tagMismatch

/-- `ReadInt` (R34), as an operand. -/
def withInt (c : RegIdx) (s : State) (k : Word → State) : State := withBits .integer c s k

/-- `ReadFloat` (R34), as an operand. -/
def withFloat (c : RegIdx) (s : State) (k : Word → State) : State := withBits .float c s k

/-- Go on with the domain and offset of a format M instruction (46_indexed_memory.md R349). The checks come first: the
kind byte (skip BAD_OFFSET_KIND), then the data register and the offset register (skip BAD_REGISTER), then the typed read
of the offset register. An immediate offset is a `u32`, a register offset an `i32` that may be negative; `off[31:8]` is
ignored with a register offset (30_encoding.md R137). The domain is none when its number names no domain. -/
def withEa (i : Instr) (dom kind : Byte) (off : Word) (r : Byte) (s : State)
    (k : Option Domain → Int → RegIdx → State) : State :=
  match kind.toNat with
  | 0 => withReg i r s fun c => k (Domain.ofNumber dom) off.toNat c
  | 1 =>
    withReg i r s fun c =>
      withReg i (off.extractLsb' 0 8) s fun o =>
        withInt o s fun v => k (Domain.ofNumber dom) v.toInt c
  | _ => s.skip .badOffsetKind i

end Sys2Proof.Machine
end

