-- ==== Sys2Proof/Machine/Compare.lean ====
section
/-! DEFINITION. Compare instructions (43_compare.md). -/

namespace Sys2Proof.Machine

/-- CMP (R271). -/
def execCmp (ra rb : Byte) (s : State) : Result :=
  .next (withReg (.cmp ra rb) ra s fun ca => withReg (.cmp ra rb) rb s fun cb =>
    withInt ca s fun a => withInt cb s fun b =>
      ({ s with flags := flagsOfCmp s.flags a b } : State).advance (Instr.cmp ra rb).len)

/-- CMPI (R272). -/
def execCmpi (r : Byte) (imm : Word) (s : State) : Result :=
  .next (withReg (.cmpi r imm) r s fun c => withInt c s fun a =>
    ({ s with flags := flagsOfCmpi s.flags a imm } : State).advance (Instr.cmpi r imm).len)

end Sys2Proof.Machine
end

