-- ==== Sys2Proof/Machine/Control.lean ====
section
/-! DEFINITION. Control transfer and subroutine instructions (44_control.md). -/

namespace Sys2Proof.Machine

/-- The target lies below the loaded program's length (R290). -/
def validTarget (s : State) (t : Word) : Bool := decide (t.toNat < s.programLength.toNat)

/-- `Transfer(t)` (R290). -/
def transfer (t : Word) (s : State) : State := if validTarget s t then s.jump t else s.halt .badTarget

/-- A conditional jump: the target is checked only when the jump is taken (R290). -/
def jumpIf (taken : Bool) (i : Instr) (t : Word) (s : State) : State := if taken then transfer t s else s.advance i.len

/-- JMP (R291). -/
def execJmp (addr : Word) (s : State) : Result := .next (transfer addr s)

/-- JZ, alias JE (R292). -/
def execJz (addr : Word) (s : State) : Result := .next (jumpIf (s.flag .z) (.jz addr) addr s)

/-- JNZ, alias JNE (R293). -/
def execJnz (addr : Word) (s : State) : Result := .next (jumpIf (!s.flag .z) (.jnz addr) addr s)

/-- JG (R294). -/
def execJg (addr : Word) (s : State) : Result := .next (jumpIf (s.flag .g) (.jg addr) addr s)

/-- JL (R295). -/
def execJl (addr : Word) (s : State) : Result := .next (jumpIf (s.flag .l) (.jl addr) addr s)

/-- JGE (R296): G or E, not GE. -/
def execJge (addr : Word) (s : State) : Result := .next (jumpIf (s.flag .g || s.flag .e) (.jge addr) addr s)

/-- JLE (R297): L or E, not LE. -/
def execJle (addr : Word) (s : State) : Result := .next (jumpIf (s.flag .l || s.flag .e) (.jle addr) addr s)

/-- CALL (R298): the target is checked before the depth, and the pushed address is that after the operands. -/
def execCall (addr : Word) (s : State) : Result :=
  .next (
    if validTarget s addr then
      match pushBounded Config.callDepth s.callStack (s.pc + BitVec.ofNat 32 (Instr.call addr).len) with
      | some cs => ({ s with callStack := cs } : State).jump addr
      | none => s.raise .callStackOverflow
    else s.halt .badTarget)

/-- RET (R299): the empty stack is checked before the target, and a bad target leaves the stack unchanged. -/
def execRet (s : State) : Result :=
  .next (
    match popLast s.callStack with
    | none => s.halt .emptyReturn
    | some (t, cs) => if validTarget s t then ({ s with callStack := cs } : State).jump t else s.halt .badTarget)

end Sys2Proof.Machine
end

