-- ==== Sys2Proof/Machine/DisplayList.lean ====
section
/-! DEFINITION. The display-list manager, its two serialisations and its decoder (47_display_list.md sections 1 and 2).
A failing operation answers the stop cause of the same name: the CPU faults with it (section 3), the host is returned
it (R380). -/

namespace Sys2Proof.Machine

/-! ### The map of sealed lists -/

/-- The order of names in the map: bytewise, a prefix first. -/
def nameLt : Bytes → Bytes → Bool
  | [], [] => false
  | [], _ :: _ => true
  | _ :: _, [] => false
  | a :: s, b :: t => decide (a.toNat < b.toNat) || (decide (a = b) && nameLt s t)

/-- The commands of the list sealed under a name; names are compared as byte strings (30_encoding.md R138). -/
def lookupList : List (Bytes × List DlCommand) → Bytes → Option (List DlCommand)
  | [], _ => none
  | (k, c) :: t, n => if k = n then some c else lookupList t n

/-- `DL.lists[n] <- c`, keeping the names strictly rising. -/
def insertList : List (Bytes × List DlCommand) → Bytes → List DlCommand → List (Bytes × List DlCommand)
  | [], n, c => [(n, c)]
  | (k, d) :: t, n, c =>
    if k = n then (n, c) :: t
    else if nameLt n k then (n, c) :: (k, d) :: t
    else (k, d) :: insertList t n c

/-- The names rise strictly. -/
def namesRise : List (Bytes × List DlCommand) → Bool
  | (k, _) :: (l, d) :: t => nameLt k l && namesRise ((l, d) :: t)
  | [_] => true
  | [] => true

/-! ### The manager's operations (R370 to R376) -/

/-- The command is a primitive. -/
def DlCommand.isPrim : DlCommand → Bool
  | .prim _ => true
  | .color _ _ _ => false
  | .vertex _ _ _ => false

/-- The command is a colour. -/
def DlCommand.isColor : DlCommand → Bool
  | .prim _ => false
  | .color _ _ _ => true
  | .vertex _ _ _ => false

/-- The command is a vertex. -/
def DlCommand.isVertex : DlCommand → Bool
  | .prim _ => false
  | .color _ _ _ => false
  | .vertex _ _ _ => true

/-- `count(Prim, cmds)`. -/
def countPrims (cmds : List DlCommand) : Nat := cmds.countP DlCommand.isPrim

/-- `count(Color, cmds)`. -/
def countColors (cmds : List DlCommand) : Nat := cmds.countP DlCommand.isColor

/-- `count(Vertex, cmds)`. -/
def countVertices (cmds : List DlCommand) : Nat := cmds.countP DlCommand.isVertex

/-- `start(s)` (R371). -/
def dlStart (dl : DlManager) (s : Bytes) : Except StopCode DlManager :=
  match dl.building with
  | some _ => .error .dlAlreadyOpen
  | none =>
    match lookupList dl.lists s with
    | some _ => .error .dlDuplicateName
    | none => .ok { dl with building := some (s, []) }

/-- Append a command to the open list unless `count` of it is full. -/
def dlAppend (dl : DlManager) (count : List DlCommand → Nat) (c : DlCommand) : Except StopCode DlManager :=
  match dl.building with
  | none => .error .dlNotOpen
  | some (s, cmds) =>
    if count cmds < Config.dlMaxPerKind then .ok { dl with building := some (s, cmds ++ [c]) }
    else .error .dlListFull

/-- `addPrimitive(t)` (R372). -/
def dlAddPrimitive (dl : DlManager) (t : Byte) : Except StopCode DlManager := dlAppend dl countPrims (.prim t)

/-- The value of an ASCII hexadecimal digit. -/
def hexDigit (b : Byte) : Option Nat :=
  let n := b.toNat
  if 0x30 ≤ n ∧ n ≤ 0x39 then some (n - 0x30)
  else if 0x41 ≤ n ∧ n ≤ 0x46 then some (n - 0x41 + 10)
  else if 0x61 ≤ n ∧ n ≤ 0x66 then some (n - 0x61 + 10)
  else none

/-- The byte of two hexadecimal digits. -/
def hexPair (h l : Byte) : Option Byte :=
  match hexDigit h, hexDigit l with
  | some h, some l => some (BitVec.ofNat 8 (16 * h + l))
  | _, _ => none

/-- The colour text without its optional prefix `#`, `0x` or `0X` (R373). -/
def colorDigits (c : Bytes) : Bytes :=
  match c with
  | a :: t =>
    if a = 0x23 then t
    else
      match t with
      | b :: u => if a = 0x30 ∧ (b = 0x78 ∨ b = 0x58) then u else c
      | [] => c
  | [] => c

/-- `ParseColor(c)` (R373); none is BadColor. -/
def parseColor (c : Bytes) : Option (Byte × Byte × Byte) :=
  match colorDigits c with
  | [a, b, c, d, e, f] =>
    match hexPair a b, hexPair c d, hexPair e f with
    | some r, some g, some b => some (r, g, b)
    | _, _, _ => none
  | _ => none

/-- `addColor(c)` (R374): the open check, then the text, then the limit. -/
def dlAddColor (dl : DlManager) (c : Bytes) : Except StopCode DlManager :=
  match dl.building with
  | none => .error .dlNotOpen
  | some _ =>
    match parseColor c with
    | none => .error .badColor
    | some (r, g, b) => dlAppend dl countColors (.color r g b)

/-- `addVertex(x, y, z)` (R375): the values are kept bit for bit. -/
def dlAddVertex (dl : DlManager) (x y z : Word) : Except StopCode DlManager := dlAppend dl countVertices (.vertex x y z)

/-- `end()` (R376). -/
def dlEnd (dl : DlManager) : Except StopCode DlManager :=
  match dl.building with
  | none => .error .dlNotOpen
  | some (s, cmds) => .ok { lists := insertList dl.lists s cmds, building := none }

/-! ### Serialisations -/

/-- The bytes of one command in the first serialisation (R377). -/
def commandBytes : DlCommand → Bytes
  | .prim t => [0x01, t]
  | .color r g b => [0x02, r, g, b]
  | .vertex x y z => 0x03 :: (le32 x ++ le32 y ++ le32 z)

/-- `serialize` (R377): magic, length-prefixed name, the counts of vertices, colours and primitives, the commands. -/
def serialize (s : Bytes) (cmds : List DlCommand) : Bytes :=
  Config.dlMagic :: lengthByte s :: (s ++
    ([BitVec.ofNat 8 (countVertices cmds), BitVec.ofNat 8 (countColors cmds), BitVec.ofNat 8 (countPrims cmds)]
      ++ cmds.flatMap commandBytes))

/-- One command at the front of a byte sequence (R378). -/
def decodeCommand : Bytes → Option (DlCommand × Bytes)
  | [] => none
  | tag :: rest =>
    match tag.toNat with
    | 0x01 =>
      match rest with
      | t :: rest => some (.prim t, rest)
      | [] => none
    | 0x02 =>
      match rest with
      | r :: g :: b :: rest => some (.color r g b, rest)
      | _ => none
    | 0x03 => (decodeTriple rest).map fun ((x, y, z), rest) => (.vertex x y z, rest)
    | _ => none

/-- So many commands at the front of a byte sequence (R378). -/
def decodeCommands : Nat → Bytes → Option (List DlCommand × Bytes)
  | 0, b => some ([], b)
  | n + 1, b =>
    match decodeCommand b with
    | none => none
    | some (c, b) => (decodeCommands n b).map fun (cs, b) => (c :: cs, b)

/-- `deserialize(bytes)` (R378): the name, the commands and the record length; none is BAD_RECORD. -/
def deserialize (bytes : Bytes) : Option (Bytes × List DlCommand × Nat) :=
  match bytes with
  | magic :: rest =>
    if magic = Config.dlMagic then
      match decodeString rest with
      | some (s, nv :: nc :: np :: body) =>
        match decodeCommands (nv.toNat + nc.toNat + np.toNat) body with
        | some (cmds, after) =>
          if countVertices cmds = nv.toNat ∧ countColors cmds = nc.toNat ∧ countPrims cmds = np.toNat then
            some (s, cmds, bytes.length - after.length)
          else none
        | none => none
      | _ => none
    else none
  | [] => none

/-- The type byte of the last primitive command, or 0 (R379). -/
def lastPrimitive (cmds : List DlCommand) : Byte :=
  cmds.foldl (fun t c =>
    match c with
    | .prim u => u
    | .color _ _ _ => t
    | .vertex _ _ _ => t) 0x00

/-- The bytes of one vertex in the 3D vertex block; other commands have none (R379). -/
def vertexBlock : DlCommand → Bytes
  | .prim _ => []
  | .color _ _ _ => []
  | .vertex x y z => le32 x ++ le32 y ++ le32 z

/-- The bytes of one colour in the 3D colour block, alpha 255; other commands have none (R379). -/
def colorBlock : DlCommand → Bytes
  | .prim _ => []
  | .color r g b => [r, g, b, 0xFF]
  | .vertex _ _ _ => []

/-- `serializeAs3D` (R379): a header of 16 bytes, the vertex block, the colour block, an empty index block. -/
def serializeAs3D (cmds : List DlCommand) : Bytes :=
  [lastPrimitive cmds, 0x00, 0x00, 0x00]
    ++ le32 (BitVec.ofNat 32 (countVertices cmds)) ++ le32 (BitVec.ofNat 32 (countColors cmds)) ++ le32 0
    ++ cmds.flatMap vertexBlock ++ cmds.flatMap colorBlock

/-! ### The store into Video -/

/-- `StoreToVideo` (R381) of a sealed list: the address and length of the record, or none (NoFit), and the state
after. -/
def storeToVideo (name : Bytes) (cmds : List DlCommand) (s : State) : Option (Nat × Nat) × State :=
  let record := serialize name cmds
  if s.vcur.toNat + record.length ≤ Config.sizeVideo then
    (some (s.vcur.toNat, record.length),
      { s with
        mem := s.mem.store .video s.vcur.toNat record
        vcur := s.vcur + BitVec.ofNat 32 record.length })
  else (none, s.setFlag .err true)

end Sys2Proof.Machine
end

