-- ==== Sys2Proof/Machine/DisplayListInstr.lean ====
section
/-! DEFINITION. Display-list instructions (47_display_list.md section 3). -/

namespace Sys2Proof.Machine

/-- Commit what the manager answers, or fault with its failure, which commits nothing (section 3, 60_exceptions.md
R503). -/
def commitDl (i : Instr) (res : Except StopCode DlManager) (s : State) : State :=
  match res with
  | .ok dl => ({ s with dl := dl } : State).advance i.len
  | .error c => s.raise c

/-- DLSTART (R390). -/
def execDlstart (n : Bytes) (s : State) : Result := .next (commitDl (.dlstart n) (dlStart s.dl n) s)

/-- DLPRIMITIVE (R391). -/
def execDlprimitive (b : Byte) (s : State) : Result := .next (commitDl (.dlprimitive b) (dlAddPrimitive s.dl b) s)

/-- DLCOLOR (R392). -/
def execDlcolor (c : Bytes) (s : State) : Result := .next (commitDl (.dlcolor c) (dlAddColor s.dl c) s)

/-- DLVERTEX (R393). -/
def execDlvertex (fx fy fz : Word) (s : State) : Result :=
  .next (commitDl (.dlvertex fx fy fz) (dlAddVertex s.dl fx fy fz) s)

/-- DLEND (R394). -/
def execDlend (s : State) : Result := .next (commitDl .dlend (dlEnd s.dl) s)

/-- Append a record to the renderer channel (60_exceptions.md R524). -/
def State.emit (s : State) (c : RenderCall) : State := { s with renderCalls := s.renderCalls ++ [c] }

/-- DLCALL (R395): the record is stored at the cursor, and where it fits a RenderCall that locates it is emitted. -/
def execDlcall (n : Bytes) (fx fy fz : Word) (s : State) : Result :=
  .next (
    match lookupList s.dl.lists n with
    | none => s.raise .dlUnknownList
    | some cmds =>
      match storeToVideo n cmds s with
      | (some place, t) => (t.emit ⟨n, fx, fy, fz, some place⟩).advance (Instr.dlcall n fx fy fz).len
      | (none, t) => t.advance (Instr.dlcall n fx fy fz).len)

/-- STOREMODEL (R396): the name is not checked. -/
def execStoremodel (r : Byte) (n : Bytes) (s : State) : Result :=
  .next (withReg (.storemodel r n) r s fun c => (s.writeModel c n).advance (Instr.storemodel r n).len)

/-- LOADMODEL (R397): the record is stored at the cursor; no RenderCall is emitted. -/
def execLoadmodel (r : Byte) (s : State) : Result :=
  .next (withReg (.loadmodel r) r s fun c =>
    match s.readModel c with
    | .mismatch => s.raise .tagMismatch
    | .noModel => (s.addLog (.notAModel s.pc)).advance (Instr.loadmodel r).len
    | .name n =>
      match lookupList s.dl.lists n with
      | none => s.raise .dlUnknownList
      | some cmds => (storeToVideo n cmds s).2.advance (Instr.loadmodel r).len)

end Sys2Proof.Machine
end

