-- ==== Sys2Proof/Machine/Float.lean ====
section
/-! DEFINITION. Binary32 arithmetic (00_scope.md R9, R11): the IEEE-754 encoding, the five operations rounding to nearest
with ties to even, and the conversions. PRESUMED (log entry 13): the spec takes IEEE-754 from general knowledge.

Every finite binary32 value is a whole number of units of 2^-149, the smallest subnormal. So the operations are exact
integer or rational arithmetic on units, narrowed once at the end by `roundUnits`. -/

namespace Sys2Proof.Machine

/-- How many units of 2^-149 make 1: the scale of `f32Units`. -/
def unitsPerOne : Nat := 2 ^ 149

/-- The magnitude pattern of infinity: exponent 255, fraction 0. -/
def infinityPattern : Nat := 0x7F800000

/-- The sign bit. -/
def f32Negative (b : Word) : Bool := b.getLsbD 31

/-- The 31 bits below the sign, as a number. -/
def f32Magnitude (b : Word) : Nat := b.toNat % 2 ^ 31

/-- The pattern is a NaN: exponent 255 and a fraction that is not 0. -/
def f32IsNan (b : Word) : Bool := decide (infinityPattern < f32Magnitude b)

/-- The pattern is +inf or -inf. -/
def f32IsInf (b : Word) : Bool := decide (f32Magnitude b = infinityPattern)

/-- The pattern is +0.0 or -0.0. -/
def f32IsZero (b : Word) : Bool := decide (f32Magnitude b = 0)

/-- The pattern of a sign and a magnitude pattern. -/
def f32OfMagnitude (negative : Bool) (magnitude : Nat) : Word :=
  BitVec.ofNat 32 ((if negative then 2 ^ 31 else 0) + magnitude)

/-- The value of a finite magnitude pattern, in units of 2^-149: the fraction for a subnormal, and the fraction with its
implicit leading 1, shifted by the exponent less 1, for a normal number. -/
def magnitudeUnits (p : Nat) : Nat :=
  if p / 2 ^ 23 = 0 then p else (2 ^ 23 + p % 2 ^ 23) * 2 ^ (p / 2 ^ 23 - 1)

/-- The value of a finite pattern, in units of 2^-149. -/
def f32Units (b : Word) : Int :=
  if f32Negative b then -(magnitudeUnits (f32Magnitude b) : Int) else magnitudeUnits (f32Magnitude b)

/-- Round a quotient to the nearest whole number, ties to even. -/
def divNearestEven (n d : Nat) : Nat :=
  let q := n / d
  let r := n % d
  if 2 * r < d then q
  else if 2 * r = d then (if q % 2 = 0 then q else q + 1)
  else q + 1

/-- The magnitude pattern nearest to `num / den` units of 2^-149, ties to even; too large a value gives infinity. The
spacing of the patterns around the value is 2^k units, where k is 0 below 2^24 units and grows by one with each doubling;
consecutive magnitudes have consecutive patterns, so a significand that rounds up to 2^24 needs no case of its own. -/
def roundUnits (num den : Nat) : Nat :=
  let k := Nat.log2 (num / den) - 23
  let p := k * 2 ^ 23 + divNearestEven num (den * 2 ^ k)
  if p < infinityPattern then p else infinityPattern

/-- The binary32 value of a sign and a magnitude in units of 2^-149, rounded. -/
def f32OfRatio (negative : Bool) (num den : Nat) : Word := f32OfMagnitude negative (roundUnits num den)

/-- The pattern of a NaN. -/
def nanWord (p : Config.NanPattern) : Word := f32OfMagnitude p.negative (infinityPattern + (p.payload.val + 1))

/-- `fadd` (R11); none where the result is NaN. -/
def fadd (a b : Word) : Option Word :=
  if f32IsNan a || f32IsNan b then none
  else if f32IsInf a then
    (if f32IsInf b && (f32Negative a != f32Negative b) then none else some a)
  else if f32IsInf b then some b
  else
    let sum := f32Units a + f32Units b
    if sum = 0 then some (f32OfMagnitude (f32Negative a && f32Negative b) 0)
    else some (f32OfRatio (decide (sum < 0)) sum.natAbs 1)

/-- The pattern with its sign bit flipped. -/
def fneg (a : Word) : Word := a ^^^ 0x80000000

/-- `fsub` (R11): the sum with the second operand negated; none where the result is NaN. -/
def fsub (a b : Word) : Option Word := fadd a (fneg b)

/-- `fmul` (R11); none where the result is NaN. -/
def fmul (a b : Word) : Option Word :=
  let negative := f32Negative a != f32Negative b
  if f32IsNan a || f32IsNan b then none
  else if f32IsInf a || f32IsInf b then
    (if f32IsZero a || f32IsZero b then none else some (f32OfMagnitude negative infinityPattern))
  else some (f32OfRatio negative ((f32Units a).natAbs * (f32Units b).natAbs) unitsPerOne)

/-- `fdiv` (R11) by a divisor that is not ±0.0; none where the result is NaN. -/
def fdiv (a b : Word) : Option Word :=
  let negative := f32Negative a != f32Negative b
  if f32IsNan a || f32IsNan b then none
  else if f32IsInf a then
    (if f32IsInf b then none else some (f32OfMagnitude negative infinityPattern))
  else if f32IsInf b then some (f32OfMagnitude negative 0)
  else some (f32OfRatio negative ((f32Units a).natAbs * unitsPerOne) (f32Units b).natAbs)

/-- `fmod` (R11) by a divisor that is not ±0.0: the exact remainder, with the sign of `a`; none where the result is
NaN. -/
def fmod (a b : Word) : Option Word :=
  if f32IsNan a || f32IsNan b then none
  else if f32IsInf a then none
  else if f32IsInf b then some a
  else some (f32OfRatio (f32Negative a) ((f32Units a).natAbs % (f32Units b).natAbs) 1)

/-- `i2f` (R11): the nearest binary32 of an `i32`, ties to even. -/
def i2f (v : Word) : Word := f32OfRatio (decide (v.toInt < 0)) (v.toInt.natAbs * unitsPerOne) 1

/-- `f2i` (R11): truncation toward zero; none for NaN and where the truncated value is no `i32`. -/
def f2i (f : Word) : Option Word :=
  if f32IsNan f || f32IsInf f then none
  else
    let v := (f32Units f).tdiv unitsPerOne
    if v < -2 ^ 31 ∨ 2 ^ 31 - 1 < v then none else some (BitVec.ofInt 32 v)

end Sys2Proof.Machine
end

