-- ==== Sys2Proof/Machine/FloatAlu.lean ====
section
/-! DEFINITION. Float ALU instructions (42_float_alu.md). -/

namespace Sys2Proof.Machine

/-- Commit a float result: a NaN result takes its pattern from NAN_BITS; no flag is written (R250). -/
def commitFloat (i : Instr) (op : Config.FloatOp) (c : RegIdx) (a b : Word) (res : Option Word) (s : State) : State :=
  (s.writeFloat c (res.getD (nanWord (Config.nanBits op a b)))).advance i.len

/-- The general form of FADD, FSUB and FMUL (R250). -/
def floatRegReg (i : Instr) (op : Config.FloatOp) (f : Word → Word → Option Word) (ra rb : Byte) (s : State) : State :=
  withReg i ra s fun ca => withReg i rb s fun cb =>
    withFloat ca s fun a => withFloat cb s fun b => commitFloat i op ca a b (f a b) s

/-- The general form of FDIV and FMOD (R250): a divisor of +0.0 or -0.0 is logged and writes nothing. -/
def floatDivide (i : Instr) (op : Config.FloatOp) (f : Word → Word → Option Word) (ra rb : Byte) (s : State) : State :=
  withReg i ra s fun ca => withReg i rb s fun cb =>
    withFloat ca s fun a => withFloat cb s fun b =>
      if f32IsZero b then (s.addLog (.divByZero s.pc)).advance i.len
      else commitFloat i op ca a b (f a b) s

/-- FADD (R251). -/
def execFadd (ra rb : Byte) (s : State) : Result := .next (floatRegReg (.fadd ra rb) .fadd fadd ra rb s)

/-- FSUB (R252). -/
def execFsub (ra rb : Byte) (s : State) : Result := .next (floatRegReg (.fsub ra rb) .fsub fsub ra rb s)

/-- FMUL (R253). -/
def execFmul (ra rb : Byte) (s : State) : Result := .next (floatRegReg (.fmul ra rb) .fmul fmul ra rb s)

/-- FDIV (R254). -/
def execFdiv (ra rb : Byte) (s : State) : Result := .next (floatDivide (.fdiv ra rb) .fdiv fdiv ra rb s)

/-- FMOD (R255). -/
def execFmod (ra rb : Byte) (s : State) : Result := .next (floatDivide (.fmod ra rb) .fmod fmod ra rb s)

end Sys2Proof.Machine
end

