-- ==== Sys2Proof/Machine/IndexedMemory.lean ====
section
/-! DEFINITION. Indexed memory instructions (46_indexed_memory.md). -/

namespace Sys2Proof.Machine

/-- LOADI (R350). -/
def execLoadi (dom kind : Byte) (off : Word) (r : Byte) (s : State) : Result :=
  .next (withEa (.loadi dom kind off r) dom kind off r s fun d a c =>
    match d.bind fun d => s.mem.read32 d a with
    | some v => (s.writeInt c v).advance (Instr.loadi dom kind off r).len
    | none => (s.setFlag .err true).advance (Instr.loadi dom kind off r).len)

/-- STOREI (R351). -/
def execStorei (dom kind : Byte) (off : Word) (r : Byte) (s : State) : Result :=
  .next (withEa (.storei dom kind off r) dom kind off r s fun d a c =>
    withInt c s fun v =>
      match d.bind fun d => s.mem.write d a (le32 v) with
      | some m => ({ s with mem := m } : State).advance (Instr.storei dom kind off r).len
      | none => (s.setFlag .err true).advance (Instr.storei dom kind off r).len)

end Sys2Proof.Machine
end

