-- ==== Sys2Proof/Machine/IntegerAlu.lean ====
section
/-! DEFINITION. Integer ALU instructions (41_integer_alu.md). -/

namespace Sys2Proof.Machine

/-! ### The operations; none is a zero divisor -/

/-- `a +32 b` (R221). -/
def aluAdd (a b : Word) : Option Word := some (a + b)

/-- `a -32 b` (R222). -/
def aluSub (a b : Word) : Option Word := some (a - b)

/-- The low 32 bits of the product (R223). -/
def aluMul (a b : Word) : Option Word := some (a * b)

/-- Signed quotient truncated toward zero, with -2^31 / -1 = -2^31 (R224). -/
def aluDiv (a b : Word) : Option Word :=
  if b = 0 then none
  else if a = 0x80000000 ∧ b = 0xFFFFFFFF then some 0x80000000
  else some (BitVec.ofInt 32 (a.toInt.tdiv b.toInt))

/-- Bitwise and (R225). -/
def aluAnd (a b : Word) : Option Word := some (a &&& b)

/-- Bitwise or (R226). -/
def aluOr (a b : Word) : Option Word := some (a ||| b)

/-- Bitwise exclusive or (R227). -/
def aluXor (a b : Word) : Option Word := some (a ^^^ b)

/-- Bitwise complement (R228). -/
def aluNot (a : Word) : Option Word := some (~~~a)

/-- The shift count: bits 4 to 0 (R229). -/
def shiftCount (b : Word) : Nat := b.toNat % 32

/-- Shift left, zeros in (R229). -/
def aluShl (a b : Word) : Option Word := some (a <<< shiftCount b)

/-- Arithmetic shift right, copies of bit 31 in (R230). -/
def aluShr (a b : Word) : Option Word := some (a.sshiftRight (shiftCount b))

/-! ### The general form (R220) -/

/-- Commit a result: the destination and Z are written; a zero divisor is logged and writes neither (R220). -/
def commitInt (i : Instr) (c : RegIdx) (res : Option Word) (s : State) : State :=
  match res with
  | some v => ((({ s with flags := flagsOfResult s.flags v } : State).writeInt c v)).advance i.len
  | none => (s.addLog (.divByZero s.pc)).advance i.len

/-- A register form (R220). -/
def intRegReg (i : Instr) (op : Word → Word → Option Word) (ra rb : Byte) (s : State) : State :=
  withReg i ra s fun ca => withReg i rb s fun cb =>
    withInt ca s fun a => withInt cb s fun b => commitInt i ca (op a b) s

/-- An immediate form (R220, file section 3). -/
def intRegImm (i : Instr) (op : Word → Word → Option Word) (r : Byte) (imm : Word) (s : State) : State :=
  withReg i r s fun c => withInt c s fun a => commitInt i c (op a imm) s

/-! ### Register forms -/

/-- ADD (R221). -/
def execAdd (ra rb : Byte) (s : State) : Result := .next (intRegReg (.add ra rb) aluAdd ra rb s)

/-- SUB (R222). -/
def execSub (ra rb : Byte) (s : State) : Result := .next (intRegReg (.sub ra rb) aluSub ra rb s)

/-- MUL (R223). -/
def execMul (ra rb : Byte) (s : State) : Result := .next (intRegReg (.mul ra rb) aluMul ra rb s)

/-- DIV (R224). -/
def execDiv (ra rb : Byte) (s : State) : Result := .next (intRegReg (.div ra rb) aluDiv ra rb s)

/-- AND (R225). -/
def execAnd (ra rb : Byte) (s : State) : Result := .next (intRegReg (.and ra rb) aluAnd ra rb s)

/-- OR (R226). -/
def execOr (ra rb : Byte) (s : State) : Result := .next (intRegReg (.or ra rb) aluOr ra rb s)

/-- XOR (R227). -/
def execXor (ra rb : Byte) (s : State) : Result := .next (intRegReg (.xor ra rb) aluXor ra rb s)

/-- NOT (R228). -/
def execNot (r : Byte) (s : State) : Result :=
  .next (withReg (.not r) r s fun c => withInt c s fun a => commitInt (.not r) c (aluNot a) s)

/-- SHL (R229). -/
def execShl (ra rb : Byte) (s : State) : Result := .next (intRegReg (.shl ra rb) aluShl ra rb s)

/-- SHR (R230). -/
def execShr (ra rb : Byte) (s : State) : Result := .next (intRegReg (.shr ra rb) aluShr ra rb s)

/-! ### Immediate forms -/

/-- ADDI (R231). -/
def execAddi (r : Byte) (imm : Word) (s : State) : Result :=
  .next (intRegImm (.addi r imm) aluAdd r imm s)

/-- SUBI (R232). -/
def execSubi (r : Byte) (imm : Word) (s : State) : Result :=
  .next (intRegImm (.subi r imm) aluSub r imm s)

/-- MULI (R233). -/
def execMuli (r : Byte) (imm : Word) (s : State) : Result :=
  .next (intRegImm (.muli r imm) aluMul r imm s)

/-- DIVI (R234). -/
def execDivi (r : Byte) (imm : Word) (s : State) : Result :=
  .next (intRegImm (.divi r imm) aluDiv r imm s)

/-- ANDI (R235). -/
def execAndi (r : Byte) (imm : Word) (s : State) : Result :=
  .next (intRegImm (.andi r imm) aluAnd r imm s)

/-- ORI (R236). -/
def execOri (r : Byte) (imm : Word) (s : State) : Result :=
  .next (intRegImm (.ori r imm) aluOr r imm s)

/-- XORI (R237). -/
def execXori (r : Byte) (imm : Word) (s : State) : Result :=
  .next (intRegImm (.xori r imm) aluXor r imm s)

/-- SHLI (R238). -/
def execShli (r : Byte) (imm : Word) (s : State) : Result :=
  .next (intRegImm (.shli r imm) aluShl r imm s)

/-- SHRI (R239). -/
def execShri (r : Byte) (imm : Word) (s : State) : Result :=
  .next (intRegImm (.shri r imm) aluShr r imm s)

end Sys2Proof.Machine
end

