-- ==== Sys2Proof/Machine/Move.lean ====
section
/-! DEFINITION. Move and conversion instructions (40_move_convert.md). -/

namespace Sys2Proof.Machine

/-- MOV (R200). -/
def execMov (r : Byte) (imm : Word) (s : State) : Result :=
  .next (withReg (.mov r imm) r s fun c => (s.writeInt c imm).advance (Instr.mov r imm).len)

/-- MOVF (R201): the bits are copied unchanged. -/
def execMovf (r : Byte) (imm : Word) (s : State) : Result :=
  .next (withReg (.movf r imm) r s fun c => (s.writeFloat c imm).advance (Instr.movf r imm).len)

/-- LI (R202): as MOV. -/
def execLi (r : Byte) (imm : Word) (s : State) : Result :=
  .next (withReg (.li r imm) r s fun c => (s.writeInt c imm).advance (Instr.li r imm).len)

/-- ITOF (R205). -/
def execItof (r : Byte) (s : State) : Result :=
  .next (withReg (.itof r) r s fun c =>
    withInt c s fun v => (s.writeFloat c (i2f v)).advance (Instr.itof r).len)

/-- FTOI (R206): FTOI_INVALID for NaN and out-of-range values. -/
def execFtoi (r : Byte) (s : State) : Result :=
  .next (withReg (.ftoi r) r s fun c =>
    withFloat c s fun f => (s.writeInt c ((f2i f).getD Config.ftoiInvalid)).advance (Instr.ftoi r).len)

end Sys2Proof.Machine
end

