-- ==== Sys2Proof/Machine/StackIo.lean ====
section
/-! DEFINITION. Stack, I/O and miscellaneous instructions (45_stack_io_misc.md). -/

namespace Sys2Proof.Machine

/-- PUSH (R320). -/
def execPush (r : Byte) (s : State) : Result :=
  .next (withReg (.push r) r s fun c => withInt c s fun v =>
    match pushBounded Config.stackDepth s.operandStack v with
    | some os => ({ s with operandStack := os } : State).advance (Instr.push r).len
    | none => s.raise .stackOverflow)

/-- POP (R321). -/
def execPop (r : Byte) (s : State) : Result :=
  .next (withReg (.pop r) r s fun c =>
    match popLast s.operandStack with
    | some (v, os) => ((({ s with operandStack := os } : State).writeInt c v)).advance (Instr.pop r).len
    | none => s.raise .stackUnderflow)

/-- IN (R326): the byte is zero-extended; a port out of range sets ERR and leaves the register. -/
def execInp (r : Byte) (imm : Word) (s : State) : Result :=
  .next (withReg (.inp r imm) r s fun c =>
    match s.mem.read .io imm.toNat 1 with
    | some [v] => (s.writeInt c (v.setWidth 32)).advance (Instr.inp r imm).len
    | _ => (s.setFlag .err true).advance (Instr.inp r imm).len)

/-- OUT (R327): the low 8 bits are written; a port out of range sets ERR. -/
def execOut (r : Byte) (imm : Word) (s : State) : Result :=
  .next (withReg (.out r imm) r s fun c => withInt c s fun v =>
    match s.mem.write .io imm.toNat [v.extractLsb' 0 8] with
    | some m => ({ s with mem := m } : State).advance (Instr.out r imm).len
    | none => (s.setFlag .err true).advance (Instr.out r imm).len)

/-- RAND (R330). -/
def execRand (r : Byte) (s : State) : Result :=
  .next (withReg (.rand r) r s fun c => (s.drawRand.2.writeInt c s.drawRand.1).advance (Instr.rand r).len)

/-- TIME (R331): the low 32 bits of the tick count. -/
def execTime (r : Byte) (s : State) : Result :=
  .next (withReg (.time r) r s fun c =>
    (s.drawTick.2.writeInt c (BitVec.ofNat 32 s.drawTick.1)).advance (Instr.time r).len)

/-- INT (R332): logged, nothing else. -/
def execIntr (b : Byte) (s : State) : Result :=
  .next ((s.addLog (.unimplementedInterrupt b)).advance (Instr.intr b).len)

/-- HLT (R333): pc advances, then the CPU halts. -/
def execHlt (s : State) : Result := .next ((s.advance Instr.hlt.len).halt .halt)

end Sys2Proof.Machine
end

