-- ==== Sys2Proof/Machine/Dispatch.lean ====
section
/-! DEFINITION. The meaning of each instruction: one arm per constructor of Instr. -/

namespace Sys2Proof.Machine

/-- `Execute(ins)` (30_encoding.md R130). -/
def exec (i : Instr) (s : State) : Host.Outcome State Fault Refusal :=
  match i with
  | .hlt => Sys2Proof.Machine.execHlt s
  | .mov r imm => Sys2Proof.Machine.execMov r imm s
  | .movf r imm => Sys2Proof.Machine.execMovf r imm s
  | .li r imm => Sys2Proof.Machine.execLi r imm s
  | .add ra rb => Sys2Proof.Machine.execAdd ra rb s
  | .sub ra rb => Sys2Proof.Machine.execSub ra rb s
  | .mul ra rb => Sys2Proof.Machine.execMul ra rb s
  | .div ra rb => Sys2Proof.Machine.execDiv ra rb s
  | .and ra rb => Sys2Proof.Machine.execAnd ra rb s
  | .or ra rb => Sys2Proof.Machine.execOr ra rb s
  | .xor ra rb => Sys2Proof.Machine.execXor ra rb s
  | .not r => Sys2Proof.Machine.execNot r s
  | .shl ra rb => Sys2Proof.Machine.execShl ra rb s
  | .shr ra rb => Sys2Proof.Machine.execShr ra rb s
  | .addi r imm => Sys2Proof.Machine.execAddi r imm s
  | .subi r imm => Sys2Proof.Machine.execSubi r imm s
  | .muli r imm => Sys2Proof.Machine.execMuli r imm s
  | .divi r imm => Sys2Proof.Machine.execDivi r imm s
  | .andi r imm => Sys2Proof.Machine.execAndi r imm s
  | .ori r imm => Sys2Proof.Machine.execOri r imm s
  | .xori r imm => Sys2Proof.Machine.execXori r imm s
  | .shli r imm => Sys2Proof.Machine.execShli r imm s
  | .shri r imm => Sys2Proof.Machine.execShri r imm s
  | .fadd ra rb => Sys2Proof.Machine.execFadd ra rb s
  | .fsub ra rb => Sys2Proof.Machine.execFsub ra rb s
  | .fmul ra rb => Sys2Proof.Machine.execFmul ra rb s
  | .fdiv ra rb => Sys2Proof.Machine.execFdiv ra rb s
  | .fmod ra rb => Sys2Proof.Machine.execFmod ra rb s
  | .itof r => Sys2Proof.Machine.execItof r s
  | .ftoi r => Sys2Proof.Machine.execFtoi r s
  | .cmp ra rb => Sys2Proof.Machine.execCmp ra rb s
  | .cmpi r imm => Sys2Proof.Machine.execCmpi r imm s
  | .jmp addr => Sys2Proof.Machine.execJmp addr s
  | .jz addr => Sys2Proof.Machine.execJz addr s
  | .jnz addr => Sys2Proof.Machine.execJnz addr s
  | .jg addr => Sys2Proof.Machine.execJg addr s
  | .jl addr => Sys2Proof.Machine.execJl addr s
  | .jge addr => Sys2Proof.Machine.execJge addr s
  | .jle addr => Sys2Proof.Machine.execJle addr s
  | .call addr => Sys2Proof.Machine.execCall addr s
  | .ret => Sys2Proof.Machine.execRet s
  | .push r => Sys2Proof.Machine.execPush r s
  | .pop r => Sys2Proof.Machine.execPop r s
  | .inp r imm => Sys2Proof.Machine.execInp r imm s
  | .out r imm => Sys2Proof.Machine.execOut r imm s
  | .rand r => Sys2Proof.Machine.execRand r s
  | .time r => Sys2Proof.Machine.execTime r s
  | .intr b => Sys2Proof.Machine.execIntr b s
  | .loadi dom kind off r => Sys2Proof.Machine.execLoadi dom kind off r s
  | .storei dom kind off r => Sys2Proof.Machine.execStorei dom kind off r s
  | .dlstart n => Sys2Proof.Machine.execDlstart n s
  | .dlprimitive b => Sys2Proof.Machine.execDlprimitive b s
  | .dlcolor n => Sys2Proof.Machine.execDlcolor n s
  | .dlvertex fx fy fz => Sys2Proof.Machine.execDlvertex fx fy fz s
  | .dlend => Sys2Proof.Machine.execDlend s
  | .dlcall n fx fy fz => Sys2Proof.Machine.execDlcall n fx fy fz s
  | .storemodel r n => Sys2Proof.Machine.execStoremodel r n s
  | .loadmodel r => Sys2Proof.Machine.execLoadmodel r s

end Sys2Proof.Machine
end

