-- ==== Sys2Proof/Machine/Fetch.lean ====
section
/-! DEFINITION. Fetching the next instruction (30_encoding.md R130, R131, R134, R143), and placing one there. -/

namespace Sys2Proof.Machine

/-- What the fetch of a step finds: a stop, an instruction, or bytes beyond the Code domain (a state R131 excludes). -/
inductive Fetched where
  | stop (c : StopCode)
  | outside
  | instr (i : Instr)
deriving DecidableEq, Repr

/-- `Length(op, pc)` (R134) of a format; none is TRUNCATED. -/
def fetchLength (f : Format) (s : State) : Option Nat :=
  let p := s.pc.toNat
  let stringLength (at_ base : Nat) : Option Nat :=
    if s.programLength.toNat ≤ p + at_ then none else some (base + (s.mem.byte .code (p + at_)).toNat)
  match f with
  | .n => some 1
  | .ri => some 6
  | .rr => some 3
  | .r => some 2
  | .a => some 5
  | .b => some 2
  | .m => some 8
  | .v => some 13
  | .s => stringLength 1 2
  | .sv => stringLength 1 14
  | .rs => stringLength 2 3

/-- The first checks of a step, in the order of 60_exceptions.md R507, and the decoded instruction (R130). -/
def fetch (s : State) : Fetched :=
  let p := s.pc.toNat
  let n := s.programLength.toNat
  if n ≤ p then .stop .endOfProgram
  else if Config.sizeCode ≤ p then .outside
  else
    match opcodeMap (s.mem.byte .code p) with
    | none => .stop .illegalOpcode
    | some row =>
      match fetchLength row.format s with
      | none => .stop .endOfProgram
      | some len =>
        if n < p + len then .stop .endOfProgram
        else if Config.sizeCode < p + len then .outside
        else
          match decode (s.mem.span .code p len) with
          | .instr i _ => .instr i
          | .illegalOpcode _ => .stop .illegalOpcode
          | .truncated => .stop .endOfProgram

/-- The state with given bytes in the Code domain at pc, as far as the domain reaches, the program long enough to hold
them, and the CPU running: what the host's load of a program (60_exceptions.md R521) sets for the next fetch. -/
def placeAtPc (s : State) (bytes : Bytes) : State :=
  let p := s.pc.toNat
  let fits := bytes.take (Config.sizeCode - p)
  { s with
    mem := s.mem.store .code p fits
    programLength := BitVec.ofNat 32 (max s.programLength.toNat (p + fits.length))
    running := true
    stop := StopCode.none.code }

/-- The bytes of the instruction a table word stands for (its operand bytes beyond the word are zeros); of a word that is
no instruction, the word's own bytes. -/
def tableWordInstr (nbits w : Nat) : Bytes :=
  match decode (tableWordBytes nbits w) with
  | .instr i _ => (tableWordBytes nbits w).take i.len
  | .illegalOpcode _ => (tableWordBytes nbits w).take (nbits / 8)
  | .truncated => (tableWordBytes nbits w).take (nbits / 8)

end Sys2Proof.Machine
end

