-- ==== Sys2Proof/Machine/Step.lean ====
section
/-! DEFINITION. One step of the CPU (30_encoding.md R130). -/

namespace Sys2Proof.Machine

/-- `step()` (R130): nothing while stopped; a stop of the fetch; or the instruction at pc. -/
def step (s : State) : Host.Outcome State Fault Refusal :=
  if s.running then
    match fetch s with
    | .stop c => .next (s.halt c)
    | .outside => .fault .fetchOutsideCode
    | .instr i => exec i s
  else .next s

/-- The state with a table word's instruction placed where the next step fetches (log entry 1). -/
def State.withFetchWord (s : State) (nbits w : Nat) : State := placeAtPc s (tableWordInstr nbits w)

end Sys2Proof.Machine
end

