-- ==== Sys2Proof/Machine/Assembler.lean ====
section
/-! DEFINITION. The two-pass PASM assembler (48_assembler.md): a pure function of the source text. Its second pass makes
instructions and encodes them with the encoder of Decode.lean, so that "the operand-size table and the CPU decode table
are one contract" (R430). -/

namespace Sys2Proof.Machine

/-! ### Lexical structure (R431 to R434) -/

/-- The bytes of an ASCII string. -/
def ascii (s : String) : Bytes := s.toList.map fun c => BitVec.ofNat 8 c.toNat

/-- An ASCII letter in upper case; any other byte unchanged. -/
def upperByte (b : Byte) : Byte := if 0x61 ≤ b.toNat ∧ b.toNat ≤ 0x7A then b - 0x20 else b

/-- The text split at each LF (R431). -/
def splitLines : Bytes → List Bytes
  | [] => [[]]
  | b :: t =>
    if b = 0x0A then [] :: splitLines t
    else
      match splitLines t with
      | l :: ls => (b :: l) :: ls
      | [] => [[b]]

/-- A line without a CR at its end (R431). -/
def stripCr (l : Bytes) : Bytes := if l.getLast? = some 0x0D then l.dropLast else l

/-- A line without its comment: what stands before the first semicolon (R431). -/
def stripComment (l : Bytes) : Bytes := l.takeWhile fun b => b ≠ 0x3B

/-- Space, TAB and comma separate tokens (R431, R432). -/
def isSeparator (b : Byte) : Bool := b = 0x20 || b = 0x09 || b = 0x2C

/-- The tokens of a line (R432); `current` is the token being read, last byte first. -/
def tokenize (current : Bytes) : Bytes → List Bytes
  | [] => if current.isEmpty then [] else [current.reverse]
  | b :: t =>
    if isSeparator b then
      if current.isEmpty then tokenize [] t else current.reverse :: tokenize [] t
    else tokenize (b :: current) t

/-- The label declarations at the front of a line, without their final colon, and the other tokens (R433). -/
def splitLabels : List Bytes → List Bytes × List Bytes
  | [] => ([], [])
  | t :: ts =>
    if t.getLast? = some 0x3A then
      let (ls, rest) := splitLabels ts
      (t.dropLast :: ls, rest)
    else ([], t :: ts)

/-- A label name is not empty and holds no colon (R433). -/
def labelNameOk (l : Bytes) : Bool := !l.isEmpty && !l.contains 0x3A

/-- A source line: its number from 1, the label names it declares, and the tokens after them. -/
structure SourceLine where
  number : Nat
  labels : List Bytes
  body : List Bytes
deriving DecidableEq, Repr

/-- One line of the text, read (R431 to R433). -/
def readLine (number : Nat) (l : Bytes) : SourceLine :=
  let (labels, body) := splitLabels (tokenize [] (stripComment (stripCr l)))
  ⟨number, labels, body⟩

/-- The lines of a list, numbered upward. -/
def readLines : Nat → List Bytes → List SourceLine
  | _, [] => []
  | n, l :: ls => readLine n l :: readLines (n + 1) ls

/-- The mnemonic table (R440): each mnemonic with its opcode. -/
def mnemonicTable : List (String × Byte) :=
  [("HLT", 0x00), ("MOV", 0x01), ("MOVF", 0x02), ("LI", 0x03), ("ADD", 0x10), ("SUB", 0x11), ("MUL", 0x12),
   ("DIV", 0x13), ("AND", 0x14), ("OR", 0x15), ("XOR", 0x16), ("NOT", 0x17), ("SHL", 0x18), ("SHR", 0x19),
   ("ADDI", 0x20), ("SUBI", 0x21), ("MULI", 0x22), ("DIVI", 0x23), ("ANDI", 0x24), ("ORI", 0x25), ("XORI", 0x26),
   ("SHLI", 0x28), ("SHRI", 0x29), ("FADD", 0x30), ("FSUB", 0x31), ("FMUL", 0x32), ("FDIV", 0x33), ("FMOD", 0x34),
   ("ITOF", 0x38), ("FTOI", 0x39), ("CMP", 0x40), ("CMPI", 0x41), ("JMP", 0x50), ("JZ", 0x51), ("JE", 0x51),
   ("JNZ", 0x52), ("JNE", 0x52), ("JG", 0x53), ("JL", 0x54), ("JGE", 0x55), ("JLE", 0x56), ("CALL", 0x58),
   ("RET", 0x59), ("PUSH", 0x60), ("POP", 0x61), ("IN", 0x68), ("OUT", 0x69), ("RAND", 0x70), ("TIME", 0x71),
   ("INT", 0x72), ("LOADI", 0x80), ("STOREI", 0x81), ("DLSTART", 0x90), ("DLPRIMITIVE", 0x91), ("DLCOLOR", 0x92),
   ("DLVERTEX", 0x93), ("DLEND", 0x94), ("DLCALL", 0x95), ("STOREMODEL", 0x96), ("LOADMODEL", 0x97)]

/-- The opcode a mnemonic token stands for, whatever the case of its letters (R434). -/
def findMnemonic (t : Bytes) : Option Byte :=
  let u := t.map upperByte
  (mnemonicTable.find? fun row => ascii row.1 = u).map fun row => row.2

/-! ### Diagnostics (R450) -/

/-- The diagnostic kinds (R450). -/
inductive DiagKind where
  | unknownMnemonic | badLabel | duplicateLabel | badRegisterToken | badLiteral | unresolvedLabel | badDomain
  | byteRange | stringTooLong | missingOperand | extraOperand
deriving DecidableEq, Repr

/-- A diagnostic: line number, kind, detail (R430); the detail is the token it is about. -/
structure Diagnostic where
  line : Nat
  kind : DiagKind
  detail : Bytes
deriving DecidableEq, Repr

/-- A value with the diagnostics met on the way to it. -/
abbrev Noted (α : Type) := α × List (DiagKind × Bytes)

/-! ### Operand tokens (R435 to R445) -/

/-- The value of a digit in a base up to 16. -/
def digitValue (base : Nat) (b : Byte) : Option Nat :=
  match hexDigit b with
  | some v => if v < base then some v else none
  | none => none

/-- The value of digits read after the value `acc`. -/
def digitsFrom (base : Nat) : Nat → Bytes → Option Nat
  | acc, [] => some acc
  | acc, b :: t =>
    match digitValue base b with
    | some v => digitsFrom base (base * acc + v) t
    | none => none

/-- The value of one or more digits. -/
def digitsValue (base : Nat) (ds : Bytes) : Option Nat := if ds.isEmpty then none else digitsFrom base 0 ds

/-- The sign of a literal, negative or not, and what follows it. -/
def splitSign : Bytes → Bool × Bytes
  | b :: t => if b = 0x2B then (false, t) else if b = 0x2D then (true, t) else (false, b :: t)
  | [] => (false, [])

/-- The magnitude of an integer literal (R437). -/
def magnitudeLiteral (t : Bytes) : Option Nat :=
  match t with
  | z :: p :: ds =>
    if z = 0x30 ∧ (p = 0x78 ∨ p = 0x58) then digitsValue 16 ds
    else if z = 0x30 ∧ (p = 0x62 ∨ p = 0x42) then digitsValue 2 ds
    else digitsValue 10 t
  | _ => digitsValue 10 t

/-- The mathematical value of a token of the integer grammar (R437). -/
def integerLiteral (t : Bytes) : Option Int :=
  let (negative, m) := splitSign t
  (magnitudeLiteral m).map fun v => if negative then -(v : Int) else v

/-- An integer literal is accepted from -2^31 to 2^32 - 1 (R437). -/
def literalAccepted (v : Int) : Bool := decide (-2 ^ 31 ≤ v) && decide (v ≤ 2 ^ 32 - 1)

/-- An `int` operand (R437). -/
def intOperand (t : Bytes) : Noted Word :=
  match integerLiteral t with
  | some v => if literalAccepted v then (BitVec.ofInt 32 v, []) else (0, [(.badLiteral, t)])
  | none => (0, [(.badLiteral, t)])

/-- The exponent part of a float literal: nothing, or `e`, a sign and digits (R438). -/
def exponentPart (t : Bytes) : Option Int :=
  match t with
  | [] => some 0
  | e :: u =>
    if e = 0x65 ∨ e = 0x45 then
      let (negative, ds) := splitSign u
      (digitsValue 10 ds).map fun v => if negative then -(v : Int) else v
    else none

/-- The byte is a decimal digit. -/
def isDigit (b : Byte) : Bool := (digitValue 10 b).isSome

/-- A token of the float grammar (R438): its sign, its digits as one number, and the power of ten they are scaled by. -/
def decimalLiteral (t : Bytes) : Option (Bool × Nat × Int) :=
  let (negative, m) := splitSign t
  let whole := m.takeWhile isDigit
  let afterWhole := m.dropWhile isDigit
  let (fraction, rest, dotted) :=
    match afterWhole with
    | d :: u => if d = 0x2E then (u.takeWhile isDigit, u.dropWhile isDigit, true) else ([], afterWhole, false)
    | [] => ([], [], false)
  if whole.isEmpty && (!dotted || fraction.isEmpty) then none
  else
    match digitsValue 10 (whole ++ fraction), exponentPart rest with
    | some v, some e => some (negative, v, e - fraction.length)
    | _, _ => none

/-- The binary32 value nearest to a decimal number (R438). -/
def f32OfDecimal (negative : Bool) (digits : Nat) (scale : Int) : Word :=
  if 0 ≤ scale then f32OfRatio negative (digits * 10 ^ scale.toNat * unitsPerOne) 1
  else f32OfRatio negative (digits * unitsPerOne) (10 ^ (-scale).toNat)

/-- A `float` operand (R438): an accepted integer literal by its value, or a float literal. -/
def floatOperand (t : Bytes) : Noted Word :=
  let decimal : Noted Word :=
    match decimalLiteral t with
    | some (negative, digits, scale) => (f32OfDecimal negative digits scale, [])
    | none => (0, [(.badLiteral, t)])
  match integerLiteral t with
  | some v => if literalAccepted v then (f32OfDecimal (decide (v < 0)) v.natAbs 0, []) else decimal
  | none => decimal

/-- A token is register-shaped: R or G and one or more decimal digits (R435). -/
def registerShaped (t : Bytes) : Bool :=
  match t with
  | c :: ds => (upperByte c = 0x52 || upperByte c = 0x47) && !ds.isEmpty && ds.all isDigit
  | [] => false

/-- A `reg` operand (R435): Gn is 32 + n; a malformed token is register 0. -/
def regOperand (t : Bytes) : Noted Byte :=
  match t with
  | c :: ds =>
    if registerShaped t then
      match digitsValue 10 ds with
      | some n =>
        if n ≤ 31 then (BitVec.ofNat 8 (if upperByte c = 0x47 then 32 + n else n), [])
        else (0, [(.badRegisterToken, t)])
      | none => (0, [(.badRegisterToken, t)])
    else (0, [(.badRegisterToken, t)])
  | [] => (0, [(.badRegisterToken, t)])

/-- The label table (R436). -/
abbrev LabelTable := List (Bytes × Nat)

/-- The address of a label. -/
def findLabel (lt : LabelTable) (n : Bytes) : Option Nat := (lt.find? fun e => e.1 = n).map fun e => e.2

/-- An `addr` operand (R439): an integer literal, or a label. DESIGN CHOICE (log entry 23): a label whose address is 2^32
or more takes its low 32 bits, with no diagnostic; the field has 4 bytes and R439 says nothing of such a label. -/
def addrOperand (lt : LabelTable) (t : Bytes) : Noted Word :=
  match integerLiteral t with
  | some _ => intOperand t
  | none =>
    match findLabel lt t with
    | some a => (BitVec.ofNat 32 a, [])
    | none => (0, [(.unresolvedLabel, t)])

/-- An integer literal of a byte's range. -/
def byteLiteral (t : Bytes) : Option Byte :=
  match integerLiteral t with
  | some v => if 0 ≤ v ∧ v ≤ 255 then some (BitVec.ofInt 8 v) else none
  | none => none

/-- A `byte` operand (R443). -/
def byteOperand (t : Bytes) : Noted Byte :=
  match byteLiteral t with
  | some b => (b, [])
  | none => (0, [(.byteRange, t)])

/-- The domain tokens (R442). -/
def domainTokens : List (String × Byte) :=
  [("CODE", 0), ("VIDEO", 1), ("AUDIO", 2), ("ROM", 3), ("IO", 4), ("CACHE", 5), ("SCRATCH", 6)]

/-- The primitive names (R445). -/
def primitiveNames : List (String × Byte) :=
  [("POINTS", 0), ("LINES", 1), ("LINE_STRIP", 2), ("TRIANGLES", 3), ("TRIANGLE_STRIP", 4), ("TRIANGLE_FAN", 5)]

/-- The byte a name of a table stands for, whatever the case of its letters. -/
def findName (table : List (String × Byte)) (t : Bytes) : Option Byte :=
  let u := t.map upperByte
  (table.find? fun e => ascii e.1 = u).map fun e => e.2

/-- A `dom` operand (R442). -/
def domainOperand (t : Bytes) : Noted Byte :=
  match findName domainTokens t with
  | some d => (d, [])
  | none =>
    match byteLiteral t with
    | some d => (d, [])
    | none => (0, [(.badDomain, t)])

/-- A `prim` operand (R445). -/
def primOperand (t : Bytes) : Noted Byte :=
  match findName primitiveNames t with
  | some p => (p, [])
  | none => byteOperand t

/-- An `offset` operand (R441): the kind byte and the offset field. -/
def offsetOperand (t : Bytes) : Noted (Byte × Word) :=
  if registerShaped t then
    let (r, notes) := regOperand t
    ((1, r.setWidth 32), notes)
  else
    let (v, notes) := intOperand t
    ((0, v), notes)

/-- A `name` or `colour` operand (R444): the token verbatim, cut to 255 bytes. -/
def stringOperand (t : Bytes) : Noted Bytes :=
  if t.length ≤ Config.nameMax then (t, []) else (t.take Config.nameMax, [(.stringTooLong, t)])

/-- An operand that may be missing, with what it then encodes as (R449). -/
def orMissing {α : Type} (f : Bytes → Noted α) (missing : α) : Option Bytes → Noted α
  | some t => f t
  | none => (missing, [])

/-- The register and the value token of the RI class, in whichever order they stand (R448). -/
def orderRi (t1 t2 : Option Bytes) : Option Bytes × Option Bytes :=
  match t1, t2 with
  | some a, some b => if !registerShaped a && registerShaped b then (some b, some a) else (some a, some b)
  | _, _ => (t1, t2)

/-! ### One instruction line (R440, R441, R449) -/

/-- The opcode of MOVF, whose immediate is a float. -/
def opMovf : Byte := 0x02

/-- The opcode of DLPRIMITIVE, whose byte may be a primitive name. -/
def opDlprimitive : Byte := 0x91

/-- The instruction of an operand list (R441, R448); missing operands are 0, 0.0, register 0 or "" (R449). -/
def instrOperands (lt : LabelTable) (op : Byte) (row : Builder) (ts : List Bytes) : Noted Instr :=
  match row with
  | .n i => (i, [])
  | .ri mk =>
    let (rt, vt) := orderRi ts[0]? ts[1]?
    let (r, n1) := orMissing regOperand 0 rt
    let (v, n2) := orMissing (if op = opMovf then floatOperand else intOperand) 0 vt
    (mk r v, n1 ++ n2)
  | .rr mk =>
    let (ra, n1) := orMissing regOperand 0 ts[0]?
    let (rb, n2) := orMissing regOperand 0 ts[1]?
    (mk ra rb, n1 ++ n2)
  | .r mk =>
    let (r, n1) := orMissing regOperand 0 ts[0]?
    (mk r, n1)
  | .a mk =>
    let (a, n1) := orMissing (addrOperand lt) 0 ts[0]?
    (mk a, n1)
  | .b mk =>
    let (b, n1) := orMissing (if op = opDlprimitive then primOperand else byteOperand) 0 ts[0]?
    (mk b, n1)
  | .m mk =>
    let (d, n1) := orMissing domainOperand 0 ts[0]?
    let (o, n2) := orMissing offsetOperand (0, 0) ts[1]?
    let (r, n3) := orMissing regOperand 0 ts[2]?
    (mk d o.1 o.2 r, n1 ++ n2 ++ n3)
  | .s mk =>
    let (s, n1) := orMissing stringOperand [] ts[0]?
    (mk s, n1)
  | .v mk =>
    let (x, n1) := orMissing floatOperand 0 ts[0]?
    let (y, n2) := orMissing floatOperand 0 ts[1]?
    let (z, n3) := orMissing floatOperand 0 ts[2]?
    (mk x y z, n1 ++ n2 ++ n3)
  | .sv mk =>
    let (s, n0) := orMissing stringOperand [] ts[0]?
    let (x, n1) := orMissing floatOperand 0 ts[1]?
    let (y, n2) := orMissing floatOperand 0 ts[2]?
    let (z, n3) := orMissing floatOperand 0 ts[3]?
    (mk s x y z, n0 ++ n1 ++ n2 ++ n3)
  | .rs mk =>
    let (r, n1) := orMissing regOperand 0 ts[0]?
    let (s, n2) := orMissing stringOperand [] ts[1]?
    (mk r s, n1 ++ n2)

/-- The fewest and the most operand tokens of a syntax class (R440). -/
def arity : Format → Nat × Nat
  | .n => (0, 0)
  | .ri => (2, 2)
  | .rr => (2, 2)
  | .r => (1, 1)
  | .a => (1, 1)
  | .b => (1, 1)
  | .m => (3, 3)
  | .s => (1, 1)
  | .v => (2, 3)
  | .sv => (1, 4)
  | .rs => (2, 2)

/-- MISSING_OPERAND or EXTRA_OPERAND of a line (R449). -/
def arityNotes (f : Format) (ts : List Bytes) : List (DiagKind × Bytes) :=
  if ts.length < (arity f).1 then [(.missingOperand, [])]
  else if (arity f).2 < ts.length then [(.extraOperand, [])]
  else []

/-- The opcode and the row of a line's mnemonic, and its operand tokens; none without a known mnemonic. -/
def knownInstr (body : List Bytes) : Option (Byte × Builder × List Bytes) :=
  match body with
  | [] => none
  | m :: ts =>
    match findMnemonic m with
    | none => none
    | some op => (opcodeMap op).map fun row => (op, row, ts)

/-- `Size(m, tokens)` (R447), as pass 1 counts it. -/
def syntaxSize (f : Format) (ts : List Bytes) : Nat :=
  let cut (t : Option Bytes) : Nat :=
    match t with
    | some t => min t.length Config.nameMax
    | none => 0
  match f with
  | .n => 1
  | .ri => 6
  | .rr => 3
  | .r => 2
  | .a => 5
  | .b => 2
  | .m => 8
  | .v => 13
  | .s => 2 + cut ts[0]?
  | .sv => 14 + cut ts[0]?
  | .rs => 3 + cut ts[1]?

/-- The size of a line in pass 1: 0 without a known mnemonic (R434). -/
def lineSize (l : SourceLine) : Nat :=
  match knownInstr l.body with
  | some (_, row, ts) => syntaxSize row.format ts
  | none => 0

/-- What pass 2 emits for a line, with the diagnostics (R449, R434). -/
def emitLine (lt : LabelTable) (l : SourceLine) : Noted Bytes :=
  match knownInstr l.body with
  | some (op, row, ts) =>
    let (i, notes) := instrOperands lt op row ts
    (encode i, notes ++ arityNotes row.format ts)
  | none =>
    match l.body with
    | m :: _ => ([], [(.unknownMnemonic, m)])
    | [] => ([], [])

/-! ### The two passes (R436, R449) -/

/-- The diagnostics of one line. -/
def onLine (l : SourceLine) (notes : List (DiagKind × Bytes)) : List Diagnostic :=
  notes.map fun (k, d) => ⟨l.number, k, d⟩

/-- Record a line's labels at an address: the first definition of a label is kept (R433, R436). -/
def recordLabels (lt : LabelTable) (a : Nat) : List Bytes → LabelTable × List (DiagKind × Bytes)
  | [] => (lt, [])
  | n :: ns =>
    if labelNameOk n then
      match findLabel lt n with
      | some _ =>
        let (lt', notes) := recordLabels lt a ns
        (lt', (.duplicateLabel, n) :: notes)
      | none => recordLabels (lt ++ [(n, a)]) a ns
    else
      let (lt', notes) := recordLabels lt a ns
      (lt', (.badLabel, n) :: notes)

/-- Pass 1 (R436), from an address and a label table on. -/
def pass1 : Nat → LabelTable → List SourceLine → LabelTable × List Diagnostic
  | _, lt, [] => (lt, [])
  | a, lt, l :: ls =>
    let (lt', notes) := recordLabels lt a l.labels
    let (lt'', diags) := pass1 (a + lineSize l) lt' ls
    (lt'', onLine l notes ++ diags)

/-- Pass 2 (R449): the bytes of every instruction line in order, with nothing between them (R446). -/
def pass2 (lt : LabelTable) (ls : List SourceLine) : Bytes × List Diagnostic :=
  (ls.flatMap fun l => (emitLine lt l).1, ls.flatMap fun l => onLine l (emitLine lt l).2)

/-- `assemble(text)` (R430). -/
def assemble (text : Bytes) : Bytes × List Diagnostic :=
  let ls := readLines 1 (splitLines text)
  let (lt, d1) := pass1 0 [] ls
  let (bytes, d2) := pass2 lt ls
  (bytes, d1 ++ d2)

end Sys2Proof.Machine
end

