-- ==== Sys2Proof/Machine/HostApi.lean ====
section
/-! DEFINITION. The host interface (60_exceptions.md R520 to R525): functions of the state, applied between steps only
(20_memory.md R112). A failing operation returns its failure and no state, so it changes nothing. The reset ports stand
in Machine/Ops.lean; the fields of State are what the host observes. -/

namespace Sys2Proof.Machine

/-- Why a host operation failed (R520). -/
inductive HostFail where
  /-- OutOfRange (20_memory.md R83, R92, R522). -/
  | outOfRange
  /-- TooLarge (R521). -/
  | tooLarge
  /-- BAD_RECORD (47_display_list.md R378). -/
  | badRecord
  /-- A failure named as a stop cause: of the operand stack (20_memory.md R95) or the manager (47_display_list.md R380). -/
  | cause (c : StopCode)
deriving DecidableEq, Repr

/-! ### Power, loading, stepping -/

/-- `powerOn()` (70_reset_and_hazards.md R552): the power-on state; the output channels and the environment sources are
no part of it (R554). -/
def State.hostPowerOn (s : State) : State :=
  { State.atPowerOn with
    renderCalls := s.renderCalls
    log := s.log
    randDraws := s.randDraws
    tickDraws := s.tickDraws }

/-- `loadProgram(b)` (R521). -/
def State.hostLoadProgram (s : State) (b : Bytes) : Except HostFail State :=
  if b.length ≤ Config.sizeCode then
    .ok { s with mem := s.mem.store .code 0 b, programLength := BitVec.ofNat 32 b.length }
  else .error .tooLarge

/-- `loadRom(o, b)` (R522): the only writer of the ROM domain. -/
def State.hostLoadRom (s : State) (o : Int) (b : Bytes) : Except HostFail State :=
  if inRange .rom o b.length then .ok { s with mem := s.mem.store .rom o.toNat b } else .error .outOfRange

/-- `stop()` (R525). -/
def State.hostStop (s : State) : State :=
  if s.running then { s with running := false, stop := StopCode.external.code } else s

/-- What `step()` returns (R520). -/
inductive StepReport where
  | ok
  | halted (c : Byte)
  | faulted (c : Byte)
deriving DecidableEq, Repr

/-- What a step from `s` to `t` reports: a code below 0x10 is a halt, another a fault (R501); a step that finds the CPU
stopped ends in none of the three (R500). -/
def stepReport (s t : State) : Option StepReport :=
  if s.running then
    if t.running then some .ok
    else if t.stop.toNat < 0x10 then some (.halted t.stop)
    else some (.faulted t.stop)
  else none

/-! ### Domain access (20_memory.md R83, R86, R92) -/

/-- `read(d, a)` (R83). -/
def State.hostRead (s : State) (d : Byte) (a : Int) : Except HostFail Byte :=
  match (Domain.ofNumber d).bind fun d => s.mem.read d a 1 with
  | some [v] => .ok v
  | _ => .error .outOfRange

/-- Store bytes through the checked write (R83, R85). -/
def State.hostStore (s : State) (d : Byte) (a : Int) (vs : Bytes) : Except HostFail State :=
  match (Domain.ofNumber d).bind fun d => s.mem.write d a vs with
  | some m => .ok { s with mem := m }
  | none => .error .outOfRange

/-- `write(d, a, v)` (R83): an in-range write to ROM is dropped. -/
def State.hostWrite (s : State) (d : Byte) (a : Int) (v : Byte) : Except HostFail State := s.hostStore d a [v]

/-- `readInt(d, a)` (R86). -/
def State.hostReadInt (s : State) (d : Byte) (a : Int) : Except HostFail Word :=
  match (Domain.ofNumber d).bind fun d => s.mem.read32 d a with
  | some v => .ok v
  | none => .error .outOfRange

/-- `writeInt(d, a, v)` (R86). -/
def State.hostWriteInt (s : State) (d : Byte) (a : Int) (v : Word) : Except HostFail State := s.hostStore d a (le32 v)

/-- `readFloat(d, a)` (R86): the same bits, read as binary32. -/
def State.hostReadFloat (s : State) (d : Byte) (a : Int) : Except HostFail Word := s.hostReadInt d a

/-- `writeFloat(d, a, f)` (R86): the same bits, a NaN pattern unchanged. -/
def State.hostWriteFloat (s : State) (d : Byte) (a : Int) (f : Word) : Except HostFail State := s.hostWriteInt d a f

/-- `copyBlock(sd, sa, dd, da, n)` (R92): both spans are checked before any byte moves, overlap is safe, and a ROM
destination is dropped. -/
def State.hostCopyBlock (s : State) (sd : Byte) (sa : Int) (dd : Byte) (da : Int) (n : Nat) : Except HostFail State :=
  match (Domain.ofNumber sd).bind fun d => s.mem.read d sa n with
  | some bytes => s.hostStore dd da bytes
  | none => .error .outOfRange

/-! ### Operand stack (20_memory.md R95) -/

/-- `push(v)`. -/
def State.hostPush (s : State) (v : Word) : Except HostFail State :=
  match pushBounded Config.stackDepth s.operandStack v with
  | some os => .ok { s with operandStack := os }
  | none => .error (.cause .stackOverflow)

/-- `pop()`. -/
def State.hostPop (s : State) : Except HostFail (Word × State) :=
  match popLast s.operandStack with
  | some (v, os) => .ok (v, { s with operandStack := os })
  | none => .error (.cause .stackUnderflow)

/-! ### Display-list manager (47_display_list.md R370 to R380) -/

/-- A manager operation on the host API. -/
def State.hostManager (s : State) (res : Except StopCode DlManager) : Except HostFail State :=
  match res with
  | .ok dl => .ok { s with dl := dl }
  | .error c => .error (.cause c)

/-- `start(n)` (R371). -/
def State.hostStart (s : State) (n : Bytes) : Except HostFail State := s.hostManager (dlStart s.dl n)

/-- `addPrimitive(t)` (R372). -/
def State.hostAddPrimitive (s : State) (t : Byte) : Except HostFail State := s.hostManager (dlAddPrimitive s.dl t)

/-- `addColor(c)` (R374). -/
def State.hostAddColor (s : State) (c : Bytes) : Except HostFail State := s.hostManager (dlAddColor s.dl c)

/-- `addVertex(x, y, z)` (R375). -/
def State.hostAddVertex (s : State) (x y z : Word) : Except HostFail State := s.hostManager (dlAddVertex s.dl x y z)

/-- `end()` (R376). -/
def State.hostEnd (s : State) : Except HostFail State := s.hostManager (dlEnd s.dl)

/-- The commands of a sealed list, or the failure DL_UNKNOWN_LIST. -/
def State.hostSealed (s : State) (n : Bytes) : Except HostFail (List DlCommand) :=
  match lookupList s.dl.lists n with
  | some cmds => .ok cmds
  | none => .error (.cause .dlUnknownList)

/-- `serialize(n)` (R377). -/
def State.hostSerialize (s : State) (n : Bytes) : Except HostFail Bytes :=
  (s.hostSealed n).map fun cmds => serialize n cmds

/-- `serializeAs3D(n)` (R379). -/
def State.hostSerializeAs3D (s : State) (n : Bytes) : Except HostFail Bytes := (s.hostSealed n).map serializeAs3D

/-- `deserialize(bytes)` (R378). -/
def hostDeserialize (b : Bytes) : Except HostFail (Bytes × List DlCommand × Nat) :=
  match deserialize b with
  | some r => .ok r
  | none => .error .badRecord

/-- `storeToDomain(n, startAddress)` (R380): the cursor is not used. -/
def State.hostStoreToDomain (s : State) (n : Bytes) (start : Int) : Except HostFail State :=
  match lookupList s.dl.lists n with
  | none => .error (.cause .dlUnknownList)
  | some cmds =>
    match s.mem.write .video start (serialize n cmds) with
    | some m => .ok { s with mem := m }
    | none => .error .outOfRange

/-- `call(n, x, y, z)` (R380): a RenderCall without a place. -/
def State.hostCall (s : State) (n : Bytes) (x y z : Word) : Except HostFail State :=
  (s.hostSealed n).map fun _ => s.emit ⟨n, x, y, z, none⟩

/-! ### The output channels (R520) -/

/-- Take the RenderCall records. -/
def State.hostTakeRenderCalls (s : State) : List RenderCall × State := (s.renderCalls, { s with renderCalls := [] })

/-- Take the diagnostic entries. -/
def State.hostTakeLog (s : State) : List LogEntry × State := (s.log, { s with log := [] })

/-! ### Every state-changing operation -/

/-- The host operations that can change the state (R520), but for `step` and `run`. -/
inductive HostOp where
  | powerOn
  | cpuReset
  | memReset
  | loadProgram (b : Bytes)
  | loadRom (o : Int) (b : Bytes)
  | stop
  | write (d : Byte) (a : Int) (v : Byte)
  | writeInt (d : Byte) (a : Int) (v : Word)
  | writeFloat (d : Byte) (a : Int) (f : Word)
  | copyBlock (sd : Byte) (sa : Int) (dd : Byte) (da : Int) (n : Nat)
  | push (v : Word)
  | pop
  | start (n : Bytes)
  | addPrimitive (t : Byte)
  | addColor (c : Bytes)
  | addVertex (x y z : Word)
  | endList
  | storeToDomain (n : Bytes) (a : Int)
  | call (n : Bytes) (x y z : Word)
  | takeRenderCalls
  | takeLog
deriving DecidableEq, Repr

/-- A name the host gives a list is a byte string of at most NAME_MAX bytes (00_scope.md R7). -/
def HostOp.wellFormed : HostOp → Bool
  | .start n => stringFits n
  | .powerOn | .cpuReset | .memReset | .loadProgram _ | .loadRom _ _ | .stop | .write _ _ _ | .writeInt _ _ _
  | .writeFloat _ _ _ | .copyBlock _ _ _ _ _ | .push _ | .pop | .addPrimitive _ | .addColor _ | .addVertex _ _ _
  | .endList | .storeToDomain _ _ | .call _ _ _ _ | .takeRenderCalls | .takeLog => true

/-- Apply a host operation; what it returns beside the state is dropped. -/
def State.hostApply (s : State) : HostOp → Except HostFail State
  | .powerOn => .ok s.hostPowerOn
  | .cpuReset => .ok s.cpuReset
  | .memReset => .ok s.memReset
  | .loadProgram b => s.hostLoadProgram b
  | .loadRom o b => s.hostLoadRom o b
  | .stop => .ok s.hostStop
  | .write d a v => s.hostWrite d a v
  | .writeInt d a v => s.hostWriteInt d a v
  | .writeFloat d a f => s.hostWriteFloat d a f
  | .copyBlock sd sa dd da n => s.hostCopyBlock sd sa dd da n
  | .push v => s.hostPush v
  | .pop => s.hostPop.map fun r => r.2
  | .start n => s.hostStart n
  | .addPrimitive t => s.hostAddPrimitive t
  | .addColor c => s.hostAddColor c
  | .addVertex x y z => s.hostAddVertex x y z
  | .endList => s.hostEnd
  | .storeToDomain n a => s.hostStoreToDomain n a
  | .call n x y z => s.hostCall n x y z
  | .takeRenderCalls => .ok s.hostTakeRenderCalls.2
  | .takeLog => .ok s.hostTakeLog.2

/-! ### Running, with the host at the step boundaries (30_encoding.md R145) -/

/-- One host operation at a step boundary; one that fails changes nothing (R520). -/
def State.hostAct (s : State) (op : HostOp) : State :=
  match s.hostApply op with
  | .ok t => t
  | .error _ => s

/-- What the host does at one step boundary, in order (20_memory.md R112, 70_reset_and_hazards.md R563). -/
def State.hostActs (s : State) (ops : List HostOp) : State := ops.foldl State.hostAct s

/-- How far a run has come. -/
inductive RunOutcome where
  /-- `run` has returned the last step's result (none if no step was taken), and the state it left. -/
  | returned (last : Option StepReport) (s : State)
  /-- The CPU is still running where the given boundaries end: `run` has not returned, and goes on from this state. -/
  | going (last : Option StepReport) (s : State)
  /-- The step from this state is none of the machine's: it answers the model's own fault or a refusal (30_encoding.md
  R131 excludes the state). -/
  | outside (s : State)
deriving DecidableEq, Repr

/-- The repetition of R145 after a step that returned `last`. `host` holds what the host does after each further step; it
gives the run one step an entry. The run returns when it finds running = 0: at its start, after a step that stopped the
CPU, or after a boundary at which the host stopped it (60_exceptions.md R525). DEDUCED (log entry 15): the result
after an external stop is the last step's. -/
def runFrom : List (List HostOp) → Option StepReport → State → RunOutcome
  | [], last, s => if s.running then .going last s else .returned last s
  | ops :: host, last, s =>
    if s.running then
      match step s with
      | .next t =>
        if t.running then runFrom host (stepReport s t) (t.hostActs ops) else .returned (stepReport s t) t
      | .fault _ => .outside s
      | .refused _ => .outside s
    else .returned last s

/-- `run()` (30_encoding.md R145, 60_exceptions.md R520, R525), over what the host does at each step boundary. There is no
timeout: a run that never returns is one that is still going after every number of steps. -/
def State.hostRun (s : State) (host : List (List HostOp)) : RunOutcome := runFrom host none s

end Sys2Proof.Machine
end

