-- ==== Sys2Proof/Safety.lean ====
section
/-! DEFINITION. The terms claims are stated in: the parts of the state and their frames, how an instruction ends
(60_exceptions.md R500), and the invariant every run keeps. -/

namespace Sys2Proof.Machine

/-! ### Frames -/

/-- The parts of the state. -/
inductive Part where
  | regs | flags | gflags | pc | running | stop | programLength | callStack | operandStack | dl | vcur | memory
  | renderCalls | log | randDraws | tickDraws
deriving DecidableEq, Repr

/-- A part is the same in two states; the memory is compared by reading every byte of every domain. -/
def Part.same : Part → State → State → Prop
  | .regs, s, t => ∀ j, t.cell j = s.cell j
  | .flags, s, t => t.flags = s.flags
  | .gflags, s, t => t.gflags = s.gflags
  | .pc, s, t => t.pc = s.pc
  | .running, s, t => t.running = s.running
  | .stop, s, t => t.stop = s.stop
  | .programLength, s, t => t.programLength = s.programLength
  | .callStack, s, t => t.callStack = s.callStack
  | .operandStack, s, t => t.operandStack = s.operandStack
  | .dl, s, t => t.dl = s.dl
  | .vcur, s, t => t.vcur = s.vcur
  | .memory, s, t => ∀ d a, t.mem.byte d a = s.mem.byte d a
  | .renderCalls, s, t => t.renderCalls = s.renderCalls
  | .log, s, t => t.log = s.log
  | .randDraws, s, t => t.randDraws = s.randDraws
  | .tickDraws, s, t => t.tickDraws = s.tickDraws

/-- Every part but those listed is the same. -/
def SameBut (changed : List Part) (s t : State) : Prop := ∀ p, p ∉ changed → p.same s t

/-- Every register cell but one is the same. -/
def SameCellsBut (i : RegIdx) (s t : State) : Prop := ∀ j, j ≠ i → t.cell j = s.cell j

/-- Every bit of FLAGS but those listed is the same. -/
def SameFlagBitsBut (bits : List Nat) (s t : State) : Prop := ∀ k, k ∉ bits → t.flags.getLsbD k = s.flags.getLsbD k

/-- Every byte outside `n` bytes of a domain is the same. -/
def SameBytesOutside (d : Domain) (a n : Nat) (s t : State) : Prop :=
  ∀ e b, ¬ (e = d ∧ a ≤ b ∧ b < a + n) → t.mem.byte e b = s.mem.byte e b

/-! ### How an instruction ends (R500) -/

/-- The instruction completes: it answers a next state in which only the listed parts may differ, and which is as
said. -/
def Completes (i : Instr) (s : State) (changed : List Part) (P : State → Prop) : Prop :=
  ∃ t, exec i s = .next t ∧ SameBut changed s t ∧ P t

/-- The instruction is skipped (R504): pc passes its `len` bytes, and an entry is logged. -/
def Skips (i : Instr) (s : State) (reason : SkipReason) (len : Nat) : Prop :=
  Completes i s [.pc, .log] fun t =>
    t.pc = s.pc + BitVec.ofNat 32 len ∧ t.log = s.log ++ [.skipped reason s.pc i.opcode]

/-- The instruction halts (R502): the CPU stops with the cause, pc stays, and an entry is logged. -/
def Halts (i : Instr) (s : State) (c : StopCode) : Prop :=
  Completes i s [.running, .stop, .log] fun t =>
    t.running = false ∧ t.stop = c.code ∧ t.log = s.log ++ [.halted c s.pc]

/-- The instruction faults (R503): the CPU stops with the cause, nothing is committed, and an entry is logged. -/
def Faults (i : Instr) (s : State) (c : StopCode) : Prop :=
  Completes i s [.running, .stop, .log] fun t =>
    t.running = false ∧ t.stop = c.code ∧ t.log = s.log ++ [.faulted c s.pc]

/-- A typed read of a cell under a tag gives its bits rather than the TAG_MISMATCH fault (10_state.md R34). -/
def readable (s : State) (expected : Tag) (i : RegIdx) : Bool :=
  decide ((s.cell i).tag = expected) || decide (Config.tagPolicy = .reinterpret)

/-- The accessed bytes are out of range: ERR is set, no other flag changes, pc passes the instruction (10_state.md R40,
R42). -/
def SetsErr (i : Instr) (s : State) (len : Nat) : Prop :=
  Completes i s [.flags, .pc] fun t =>
    t.flags.getLsbD 9 = true ∧ SameFlagBitsBut [9] s t ∧ t.pc = s.pc + BitVec.ofNat 32 len

/-- The step finds no instruction to run and halts with the cause (30_encoding.md R130, 60_exceptions.md R502). -/
def StepHalts (s : State) (c : StopCode) : Prop :=
  ∃ t, step s = .next t ∧ SameBut [.running, .stop, .log] s t ∧ t.running = false ∧ t.stop = c.code
    ∧ t.log = s.log ++ [.halted c s.pc]

/-- One cell is written and no other. -/
def WritesCell (c : RegIdx) (v : RegCell) (s t : State) : Prop := t.cell c = v ∧ SameCellsBut c s t

/-- Z is written and no other bit of FLAGS. -/
def WritesZ (z : Bool) (s t : State) : Prop := t.flags.getLsbD 0 = z ∧ SameFlagBitsBut [0] s t

/-- A register operand that is not read: the instruction is skipped for an index of 64 or more (R32), and is otherwise
as said of the cell. -/
def WithCell (i : Instr) (s : State) (r : Byte) (len : Nat) (P : RegIdx → Prop) : Prop :=
  if h : r.toNat < 64 then P ⟨r.toNat, h⟩ else Skips i s .badRegister len

/-- A register operand read under a tag: the instruction is skipped for an index of 64 or more, faults on a tag mismatch
(R34), and is otherwise as said of the cell. -/
def WithRead (tag : Tag) (i : Instr) (s : State) (r : Byte) (len : Nat) (P : RegIdx → Prop) : Prop :=
  WithCell i s r len fun c => if readable s tag c then P c else Faults i s .tagMismatch

/-- Two register operands read under a tag. -/
def WithReads (tag : Tag) (i : Instr) (s : State) (ra rb : Byte) (len : Nat) (P : RegIdx → RegIdx → Prop) : Prop :=
  if h : ra.toNat < 64 ∧ rb.toNat < 64 then
    if readable s tag ⟨ra.toNat, h.1⟩ ∧ readable s tag ⟨rb.toNat, h.2⟩ then P ⟨ra.toNat, h.1⟩ ⟨rb.toNat, h.2⟩
    else Faults i s .tagMismatch
  else Skips i s .badRegister len

/-- The operands of format M (46_indexed_memory.md R349): a kind byte of 2 or more and a bad register index skip the
instruction, a tag mismatch of the offset register faults, and otherwise it is as said of the offset and the data cell. -/
def WithOffset (i : Instr) (s : State) (kind : Byte) (off : Word) (r : Byte) (P : Int → RegIdx → Prop) : Prop :=
  if 2 ≤ kind.toNat then Skips i s .badOffsetKind 8
  else if kind = 0 then WithCell i s r 8 fun c => P off.toNat c
  else
    if h : r.toNat < 64 ∧ (off.extractLsb' 0 8).toNat < 64 then
      if readable s .integer ⟨(off.extractLsb' 0 8).toNat, h.2⟩ then
        P (s.cell ⟨(off.extractLsb' 0 8).toNat, h.2⟩).bits.toInt ⟨r.toNat, h.1⟩
      else Faults i s .tagMismatch
    else Skips i s .badRegister 8

/-- A transfer of control (44_control.md R290): to a target below programLength, or a halt that leaves pc. -/
def Transfers (i : Instr) (s : State) (target : Word) : Prop :=
  if target.toNat < s.programLength.toNat then Completes i s [.pc] fun t => t.pc = target
  else Halts i s .badTarget

/-- A record is stored in Video at the cursor, which moves behind it (47_display_list.md R381). -/
def StoresRecord (record : Bytes) (s t : State) : Prop :=
  (∀ k, (h : k < record.length) → t.mem.byte .video (s.vcur.toNat + k) = record[k])
    ∧ SameBytesOutside .video s.vcur.toNat record.length s t
    ∧ t.vcur.toNat = s.vcur.toNat + record.length

/-! ### Display-list bytes, written out from the rules -/

/-- The tag byte of a command (47_display_list.md R377). -/
def recordTag : DlCommand → Byte
  | .prim _ => 0x01
  | .color _ _ _ => 0x02
  | .vertex _ _ _ => 0x03

/-- The bytes of a command after its tag (R377): a vertex is twelve, each component least significant byte first. -/
def recordPayload : DlCommand → Bytes
  | .prim t => [t]
  | .color r g b => [r, g, b]
  | .vertex x y z =>
    [x.extractLsb' 0 8, x.extractLsb' 8 8, x.extractLsb' 16 8, x.extractLsb' 24 8,
      y.extractLsb' 0 8, y.extractLsb' 8 8, y.extractLsb' 16 8, y.extractLsb' 24 8,
      z.extractLsb' 0 8, z.extractLsb' 8 8, z.extractLsb' 16 8, z.extractLsb' 24 8]

/-- How many commands of a sequence have a tag (R377). -/
def tagCount (tag : Byte) (cmds : List DlCommand) : Nat := cmds.countP fun c => recordTag c = tag

/-- The byte is a hexadecimal digit of the value: 0-9, A-F or a-f (R373). -/
def IsHexDigit (d : Byte) (v : Nat) : Prop :=
  (v ≤ 9 ∧ d.toNat = 0x30 + v) ∨ (10 ≤ v ∧ v ≤ 15 ∧ (d.toNat = 0x41 + (v - 10) ∨ d.toNat = 0x61 + (v - 10)))

/-- Two bytes are the hexadecimal digits of a byte, the high one first (R373). -/
def IsHexPair (h l b : Byte) : Prop := ∃ v w, IsHexDigit h v ∧ IsHexDigit l w ∧ b.toNat = 16 * v + w

/-! ### Register operands -/

/-- The register operands of an instruction; in format M with kind = 1 the low byte of `off` is one (30_encoding.md
R137). -/
def registerBytes : Instr → List Byte
  | .hlt | .ret | .dlend => []
  | .mov r _ | .movf r _ | .li r _ | .addi r _ | .subi r _ | .muli r _ | .divi r _ | .andi r _ | .ori r _
  | .xori r _ | .shli r _ | .shri r _ | .cmpi r _ | .inp r _ | .out r _ => [r]
  | .add ra rb | .sub ra rb | .mul ra rb | .div ra rb | .and ra rb | .or ra rb | .xor ra rb | .shl ra rb | .shr ra rb
  | .fadd ra rb | .fsub ra rb | .fmul ra rb | .fdiv ra rb | .fmod ra rb | .cmp ra rb => [ra, rb]
  | .not r | .itof r | .ftoi r | .push r | .pop r | .rand r | .time r | .loadmodel r => [r]
  | .jmp _ | .jz _ | .jnz _ | .jg _ | .jl _ | .jge _ | .jle _ | .call _ => []
  | .intr _ | .dlprimitive _ => []
  | .loadi _ kind off r | .storei _ kind off r => if kind = 1 then [off.extractLsb' 0 8, r] else [r]
  | .dlstart _ | .dlcolor _ => []
  | .dlvertex _ _ _ => []
  | .dlcall _ _ _ _ => []
  | .storemodel r _ => [r]

/-! ### Binary32 results (00_scope.md R11) -/

/-- How far the magnitude pattern `q` lies from `num / den` units of 2^-149, times `den`. -/
def unitsApart (num den q : Nat) : Nat := ((num : Int) - den * magnitudeUnits q).natAbs

/-- `r` is `num / den` units of 2^-149 with the given sign, rounded to nearest, ties to even: no finite magnitude is nearer
than a finite one chosen, a different one at the same distance leaves the chosen one even, and infinity is chosen exactly
from half a unit in the last place above the largest finite magnitude on. -/
def Rounds (r : Word) (negative : Bool) (num den : Nat) : Prop :=
  f32Negative r = negative ∧ f32Magnitude r ≤ infinityPattern
    ∧ (f32Magnitude r < infinityPattern →
        ∀ q, q < infinityPattern → unitsApart num den (f32Magnitude r) ≤ unitsApart num den q
          ∧ (unitsApart num den (f32Magnitude r) = unitsApart num den q → q = f32Magnitude r ∨ f32Magnitude r % 2 = 0))
    ∧ (f32Magnitude r = infinityPattern ↔ den * ((2 ^ 25 - 1) * 2 ^ 253) ≤ 2 * num)

/-- `r` is what FADD writes for `a` and `b`, and with `flip` what FSUB writes: a NaN by NAN_BITS, an infinity, a zero that
is negative only when both terms are, or the rounded sum. -/
def SumResult (op : Config.FloatOp) (flip : Bool) (a b r : Word) : Prop :=
  let second := f32Negative b != flip
  if f32IsNan a ∨ f32IsNan b ∨ (f32IsInf a ∧ f32IsInf b ∧ f32Negative a ≠ second) then
    r = nanWord (Config.nanBits op a b)
  else if f32IsInf a then r = a
  else if f32IsInf b then f32IsInf r ∧ f32Negative r = second
  else
    let sum := f32Units a + (if flip then -f32Units b else f32Units b)
    if sum = 0 then f32IsZero r ∧ f32Negative r = (f32Negative a && second)
    else Rounds r (decide (sum < 0)) sum.natAbs 1

/-- `r` is what FMUL writes for `a` and `b`. -/
def ProductResult (a b r : Word) : Prop :=
  let negative := f32Negative a != f32Negative b
  if f32IsNan a ∨ f32IsNan b ∨ (f32IsInf a ∧ f32IsZero b) ∨ (f32IsZero a ∧ f32IsInf b) then
    r = nanWord (Config.nanBits .fmul a b)
  else if f32IsInf a ∨ f32IsInf b then f32IsInf r ∧ f32Negative r = negative
  else Rounds r negative ((f32Units a).natAbs * (f32Units b).natAbs) (2 ^ 149)

/-- `r` is what FDIV writes for `a` and a `b` that is not zero. -/
def QuotientResult (a b r : Word) : Prop :=
  let negative := f32Negative a != f32Negative b
  if f32IsNan a ∨ f32IsNan b ∨ (f32IsInf a ∧ f32IsInf b) then r = nanWord (Config.nanBits .fdiv a b)
  else if f32IsInf a then f32IsInf r ∧ f32Negative r = negative
  else if f32IsInf b then f32IsZero r ∧ f32Negative r = negative
  else Rounds r negative ((f32Units a).natAbs * 2 ^ 149) (f32Units b).natAbs

/-- `r` is what FMOD writes for `a` and a `b` that is not zero: the exact remainder, with the sign of `a`. -/
def RemainderResult (a b r : Word) : Prop :=
  if f32IsNan a ∨ f32IsNan b ∨ f32IsInf a then r = nanWord (Config.nanBits .fmod a b)
  else if f32IsInf b then r = a
  else f32Magnitude r < infinityPattern ∧ f32Units r = (f32Units a).tmod (f32Units b) ∧ f32Negative r = f32Negative a

/-! ### The invariant -/

/-- A cell is one the typed writes can make (10_state.md R31, R33). -/
def CellOk (c : RegCell) : Prop :=
  (c.tag ≠ .model → c.name = []) ∧ (c.tag = .model → c.bits = 0) ∧ c.name.length ≤ Config.nameMax

/-- A named list keeps the manager's limits (47_display_list.md R370, 00_scope.md R7). -/
def ListOk (n : Bytes) (cmds : List DlCommand) : Prop :=
  n.length ≤ Config.nameMax ∧ countPrims cmds ≤ Config.dlMaxPerKind ∧ countColors cmds ≤ Config.dlMaxPerKind
    ∧ countVertices cmds ≤ Config.dlMaxPerKind

/-- What holds of every state of a run. -/
structure State.Inv (s : State) : Prop where
  /-- Every cell is one the typed writes can make (10_state.md R31, R33). -/
  cells : ∀ i, CellOk (s.cell i)
  /-- C, V, N and bits 10 to 31 of FLAGS are 0 (R40). -/
  flags : ∀ k, k = 1 ∨ k = 2 ∨ k = 3 ∨ 10 ≤ k → s.flags.getLsbD k = false
  /-- GFLAGS is 0 (R43). -/
  gflags : s.gflags = 0
  /-- pc stays within the Code domain or just behind it (R45). -/
  pc : s.pc.toNat ≤ Config.sizeCode
  /-- STOP is NONE exactly while running, and otherwise a listed code (R47, 60_exceptions.md R501). -/
  stop : ∃ c : StopCode, s.stop = c.code ∧ (s.running = true ↔ c = .none)
  /-- programLength is at most SIZE_CODE (R44). -/
  programLength : s.programLength.toNat ≤ Config.sizeCode
  /-- The call stack keeps its depth (R49). -/
  callDepth : s.callStack.length ≤ Config.callDepth
  /-- Return addresses stay within the Code domain or just behind it (R298). -/
  returns : ∀ a ∈ s.callStack, a.toNat ≤ Config.sizeCode
  /-- The operand stack keeps its depth (R50). -/
  stackDepth : s.operandStack.length ≤ Config.stackDepth
  /-- The video cursor is at most SIZE_VIDEO (R44). -/
  vcur : s.vcur.toNat ≤ Config.sizeVideo
  /-- Every domain's listing is in canonical form. -/
  mem : s.mem.wf = true
  /-- The sealed lists stand in canonical form. -/
  names : namesRise s.dl.lists = true
  /-- Sealed lists keep the limits (47_display_list.md R370). -/
  sealed : ∀ n cmds, (n, cmds) ∈ s.dl.lists → ListOk n cmds
  /-- The open list keeps the limits, and its name is not sealed (R370, R371). -/
  building : ∀ n cmds, s.dl.building = some (n, cmds) → ListOk n cmds ∧ lookupList s.dl.lists n = none

end Sys2Proof.Machine
end

