-- ==== Sys2Proof/Certificates/Slice0/Obligations.lean ====
section
/-! DEFINITION. The statements for the provers. -/

open Sys2Proof Sys2Proof.Machine

/-! ### Encoding -/

/-- Decode and encode agree: the bytes of every well-formed instruction, whatever follows them, decode to it with every
operand at every value (30_encoding.md R132, R133, R139). -/
def Obligations.DecodeOfEncode : Prop :=
  ∀ i : Instr, i.wellFormed = true → ∀ rest, decode (encode i ++ rest) = .instr i rest

/-- What decodes is well formed and is its own encoding: no two byte sequences stand for one instruction. -/
def Obligations.EncodeOfDecode : Prop :=
  ∀ bs i rest, decode bs = .instr i rest → i.wellFormed = true ∧ encode i ++ rest = bs

/-- The illegal opcode bytes are exactly the ranges R140 lists, and a running CPU that fetches one halts ILLEGAL_OPCODE with
pc at it. -/
def Obligations.IllegalOpcodesHalt : Prop :=
  (∀ op : Byte, ∀ rest, decode (op :: rest) = .illegalOpcode op ↔
    ∃ p ∈ [(0x04, 0x0F), (0x1A, 0x1F), (0x27, 0x27), (0x2A, 0x2F), (0x35, 0x37), (0x3A, 0x3F), (0x42, 0x4F), (0x57, 0x57),
      (0x5A, 0x5F), (0x62, 0x67), (0x6A, 0x6F), (0x73, 0x7F), (0x82, 0x8F), (0x98, 0xFF)],
      p.1 ≤ op.toNat ∧ op.toNat ≤ p.2)
    ∧ ∀ s : State, s.running = true → s.pc.toNat < s.programLength.toNat → s.programLength.toNat ≤ Config.sizeCode →
        decode [s.mem.byte .code s.pc.toNat] = .illegalOpcode (s.mem.byte .code s.pc.toNat) → StepHalts s .illegalOpcode

/-- Byte sequences written out from the spec's examples decode to the instructions they stand for. -/
def Obligations.SampleBytesDecode : Prop :=
  decode [0x01, 0x00, 0x0A, 0x00, 0x00, 0x00] = .instr (.mov 0 10) []
    ∧ decode [0x10, 0x00, 0x01] = .instr (.add 0 1) []
    ∧ decode [0x50, 0x0B, 0x00, 0x00, 0x00] = .instr (.jmp 11) []
    ∧ decode [0x80, 0x06, 0x00, 0x10, 0x00, 0x00, 0x00, 0x02] = .instr (.loadi 6 0 16 2) []
    ∧ decode [0x96, 0x0A, 0x04, 0x43, 0x55, 0x42, 0x45] = .instr (.storemodel 10 [0x43, 0x55, 0x42, 0x45]) []

/-! ### The step -/

/-- A step runs the decoded instruction: while running, with the bytes of a well-formed instruction at pc and inside the
loaded program, the step is exec of that instruction on the same state (R130, R131). -/
def Obligations.StepRunsDecoded : Prop :=
  ∀ (s : State) (i : Instr), s.running = true → i.wellFormed = true →
    s.pc.toNat + i.len ≤ s.programLength.toNat → s.programLength.toNat ≤ Config.sizeCode →
    s.mem.span .code s.pc.toNat i.len = encode i → step s = exec i s

/-- A step that runs no instruction: a stopped CPU does nothing; pc at or behind the program's end, and an instruction cut
short by the program's end, halt END_OF_PROGRAM with pc where it was. -/
def Obligations.StepStopsAtFetch : Prop :=
  ∀ s : State,
    (s.running = false → step s = .next s)
    ∧ (s.running = true → s.programLength.toNat ≤ s.pc.toNat → StepHalts s .endOfProgram)
    ∧ (s.running = true → s.pc.toNat < s.programLength.toNat → s.programLength.toNat ≤ Config.sizeCode →
        ∀ i : Instr, i.wellFormed = true → s.programLength.toNat < s.pc.toNat + i.len →
        (∀ k, (h : k < (encode i).length) → s.pc.toNat + k < s.programLength.toNat →
          s.mem.byte .code (s.pc.toNat + k) = (encode i)[k]) →
        StepHalts s .endOfProgram)

/-! ### Move and conversion -/

/-- MOV, MOVF and LI copy the 32-bit immediate into the register with the tag Integer, Float and Integer, clear its name
and write nothing else but pc; a register index of 64 or more skips them. -/
def Obligations.MoveLoadsImmediate : Prop :=
  ∀ p ∈ ([(0x01, Instr.mov, .integer), (0x02, Instr.movf, .float), (0x03, Instr.li, .integer)]
      : List (Byte × (Byte → Word → Instr) × Tag)),
    ∀ (s : State) (r : Byte) (imm : Word),
      encode (p.2.1 r imm) = p.1 :: r :: le32 imm
      ∧ WithCell (p.2.1 r imm) s r 6 fun c =>
        Completes (p.2.1 r imm) s [.regs, .pc] fun t => WritesCell c ⟨imm, p.2.2, []⟩ s t ∧ t.pc = s.pc + 6

/-- ITOF converts the register's integer to the nearest binary32, ties to even, in place and tags it Float. -/
def Obligations.ItofConverts : Prop :=
  ∀ (s : State) (r : Byte),
    encode (.itof r) = [0x38, r]
    ∧ WithRead .integer (.itof r) s r 2 fun c =>
      Completes (.itof r) s [.regs, .pc] fun t =>
        (∃ f, Rounds f (decide ((s.cell c).bits.toInt < 0)) ((s.cell c).bits.toInt.natAbs * 2 ^ 149) 1
          ∧ WritesCell c ⟨f, .float, []⟩ s t)
        ∧ t.pc = s.pc + 2

/-- FTOI truncates the register's binary32 toward zero in place and tags it Integer; a NaN, an infinity and a truncated
value outside -2^31 to 2^31 - 1 give FTOI_INVALID, whatever that is. -/
def Obligations.FtoiTruncates : Prop :=
  ∀ (s : State) (r : Byte),
    encode (.ftoi r) = [0x39, r]
    ∧ WithRead .float (.ftoi r) s r 2 fun c =>
      Completes (.ftoi r) s [.regs, .pc] fun t =>
        let f := (s.cell c).bits
        let v := (f32Units f).tdiv (2 ^ 149)
        WritesCell c
          ⟨if f32IsNan f ∨ f32IsInf f ∨ v < -2 ^ 31 ∨ 2 ^ 31 - 1 < v then Config.ftoiInvalid else BitVec.ofInt 32 v,
            .integer, []⟩ s t
        ∧ t.pc = s.pc + 2

/-- ITOF followed by FTOI gives back every integer of magnitude at most 2^24, and is out of range for 2147483647; FTOI
followed by ITOF gives the truncated value exactly. -/
def Obligations.ConversionRoundTrips : Prop :=
  (∀ v : Word, v.toInt.natAbs ≤ 2 ^ 24 → f2i (i2f v) = some v)
    ∧ f2i (i2f 2147483647) = none
    ∧ ∀ f v : Word, f2i f = some v → f32Units (i2f v) = (f32Units f).tdiv (2 ^ 149) * 2 ^ 149

/-! ### Integer ALU -/

/-- The two-register integer forms but DIV: the exact result on signed integers, narrowed to 32 bits (for the shifts, by
the low five bits of the count; for the bitwise ones, bit by bit), goes to the first register with tag Integer, Z says
whether it is 0, and nothing else but pc changes. -/
def Obligations.IntegerRegisterForms : Prop :=
  ∀ p ∈ ([(0x10, Instr.add, fun a b => BitVec.ofInt 32 (a.toInt + b.toInt)),
      (0x11, Instr.sub, fun a b => BitVec.ofInt 32 (a.toInt - b.toInt)),
      (0x12, Instr.mul, fun a b => BitVec.ofInt 32 (a.toInt * b.toInt)),
      (0x14, Instr.and, fun a b => a &&& b), (0x15, Instr.or, fun a b => a ||| b), (0x16, Instr.xor, fun a b => a ^^^ b),
      (0x18, Instr.shl, fun a b => BitVec.ofNat 32 (a.toNat * 2 ^ (b.toNat % 32))),
      (0x19, Instr.shr, fun a b => BitVec.ofInt 32 (a.toInt / 2 ^ (b.toNat % 32)))]
      : List (Byte × (Byte → Byte → Instr) × (Word → Word → Word))),
    ∀ (s : State) (ra rb : Byte),
      encode (p.2.1 ra rb) = [p.1, ra, rb]
      ∧ WithReads .integer (p.2.1 ra rb) s ra rb 3 fun a b =>
        Completes (p.2.1 ra rb) s [.regs, .flags, .pc] fun t =>
          let v := p.2.2 (s.cell a).bits (s.cell b).bits
          WritesCell a ⟨v, .integer, []⟩ s t ∧ WritesZ (decide (v = 0)) s t ∧ t.pc = s.pc + 3

/-- The immediate integer forms but DIVI: as the register forms, with the immediate as second operand. -/
def Obligations.IntegerImmediateForms : Prop :=
  ∀ p ∈ ([(0x20, Instr.addi, fun a b => BitVec.ofInt 32 (a.toInt + b.toInt)),
      (0x21, Instr.subi, fun a b => BitVec.ofInt 32 (a.toInt - b.toInt)),
      (0x22, Instr.muli, fun a b => BitVec.ofInt 32 (a.toInt * b.toInt)),
      (0x24, Instr.andi, fun a b => a &&& b), (0x25, Instr.ori, fun a b => a ||| b),
      (0x26, Instr.xori, fun a b => a ^^^ b),
      (0x28, Instr.shli, fun a b => BitVec.ofNat 32 (a.toNat * 2 ^ (b.toNat % 32))),
      (0x29, Instr.shri, fun a b => BitVec.ofInt 32 (a.toInt / 2 ^ (b.toNat % 32)))]
      : List (Byte × (Byte → Word → Instr) × (Word → Word → Word))),
    ∀ (s : State) (r : Byte) (imm : Word),
      encode (p.2.1 r imm) = p.1 :: r :: le32 imm
      ∧ WithRead .integer (p.2.1 r imm) s r 6 fun c =>
        Completes (p.2.1 r imm) s [.regs, .flags, .pc] fun t =>
          let v := p.2.2 (s.cell c).bits imm
          WritesCell c ⟨v, .integer, []⟩ s t ∧ WritesZ (decide (v = 0)) s t ∧ t.pc = s.pc + 6

/-- NOT complements every bit of the register, tags it Integer, and writes Z. -/
def Obligations.NotComplements : Prop :=
  ∀ (s : State) (r : Byte),
    encode (.not r) = [0x17, r]
    ∧ WithRead .integer (.not r) s r 2 fun c =>
      Completes (.not r) s [.regs, .flags, .pc] fun t =>
        let v : Word := BitVec.ofInt 32 (-(s.cell c).bits.toInt - 1)
        WritesCell c ⟨v, .integer, []⟩ s t ∧ WritesZ (decide (v = 0)) s t ∧ t.pc = s.pc + 2

/-- DIV writes the signed quotient truncated toward zero, which is -2^31 for -2^31 / -1, and Z; a zero divisor is logged
and leaves every register and flag as it was. That the log keeps the entry, with pc in it, is the model's choice (log
entry 11). -/
def Obligations.DivTruncates : Prop :=
  ∀ (s : State) (ra rb : Byte),
    encode (.div ra rb) = [0x13, ra, rb]
    ∧ WithReads .integer (.div ra rb) s ra rb 3 fun a b =>
      if (s.cell b).bits = 0 then
        Completes (.div ra rb) s [.pc, .log] fun t => t.pc = s.pc + 3 ∧ t.log = s.log ++ [.divByZero s.pc]
      else
        Completes (.div ra rb) s [.regs, .flags, .pc] fun t =>
          let v : Word := BitVec.ofInt 32 ((s.cell a).bits.toInt.tdiv (s.cell b).bits.toInt)
          WritesCell a ⟨v, .integer, []⟩ s t ∧ WritesZ (decide (v = 0)) s t ∧ t.pc = s.pc + 3

/-- DIVI: as DIV, with the immediate as divisor. That the log keeps the entry, with pc in it, is the model's choice (log
entry 11). -/
def Obligations.DiviTruncates : Prop :=
  ∀ (s : State) (r : Byte) (imm : Word),
    encode (.divi r imm) = 0x23 :: r :: le32 imm
    ∧ WithRead .integer (.divi r imm) s r 6 fun c =>
      if imm = 0 then
        Completes (.divi r imm) s [.pc, .log] fun t => t.pc = s.pc + 6 ∧ t.log = s.log ++ [.divByZero s.pc]
      else
        Completes (.divi r imm) s [.regs, .flags, .pc] fun t =>
          let v : Word := BitVec.ofInt 32 ((s.cell c).bits.toInt.tdiv imm.toInt)
          WritesCell c ⟨v, .integer, []⟩ s t ∧ WritesZ (decide (v = 0)) s t ∧ t.pc = s.pc + 6

/-! ### Float ALU -/

/-- FADD, FSUB and FMUL write the rounded sum, difference or product of their operands with tag Float, with the infinities,
signed zeros and NaNs of binary32, a NaN by NAN_BITS of the operation and the operands; no flag changes. What the rules of
the three instructions leave to IEEE-754 (infinities passing through, the signs of infinite products) is R11's binary32,
PRESUMED (log entry 13); NAN_BITS is R250's. -/
def Obligations.FloatAddSubMul : Prop :=
  ∀ p ∈ ([(0x30, Instr.fadd, SumResult .fadd false), (0x31, Instr.fsub, SumResult .fsub true),
      (0x32, Instr.fmul, ProductResult)] : List (Byte × (Byte → Byte → Instr) × (Word → Word → Word → Prop))),
    ∀ (s : State) (ra rb : Byte),
      encode (p.2.1 ra rb) = [p.1, ra, rb]
      ∧ WithReads .float (p.2.1 ra rb) s ra rb 3 fun a b =>
        Completes (p.2.1 ra rb) s [.regs, .pc] fun t =>
          (∃ r, p.2.2 (s.cell a).bits (s.cell b).bits r ∧ WritesCell a ⟨r, .float, []⟩ s t) ∧ t.pc = s.pc + 3

/-- FDIV and FMOD write the rounded quotient and the exact remainder with tag Float, a NaN by NAN_BITS; a divisor of +0.0
or -0.0 is logged and leaves every register as it was; no flag changes. That the log keeps the entry, with pc in it, is the
model's choice (log entry 11); the infinite quotients are R11's binary32, PRESUMED (log entry 13); NAN_BITS is R250's. -/
def Obligations.FloatDivMod : Prop :=
  ∀ p ∈ ([(0x33, Instr.fdiv, QuotientResult), (0x34, Instr.fmod, RemainderResult)]
      : List (Byte × (Byte → Byte → Instr) × (Word → Word → Word → Prop))),
    ∀ (s : State) (ra rb : Byte),
      encode (p.2.1 ra rb) = [p.1, ra, rb]
      ∧ WithReads .float (p.2.1 ra rb) s ra rb 3 fun a b =>
        if (s.cell b).bits = 0x00000000 ∨ (s.cell b).bits = 0x80000000 then
          Completes (p.2.1 ra rb) s [.pc, .log] fun t => t.pc = s.pc + 3 ∧ t.log = s.log ++ [.divByZero s.pc]
        else
          Completes (p.2.1 ra rb) s [.regs, .pc] fun t =>
            (∃ r, p.2.2 (s.cell a).bits (s.cell b).bits r ∧ WritesCell a ⟨r, .float, []⟩ s t) ∧ t.pc = s.pc + 3

/-- The narrowing all the operations share rounds to nearest, ties to even, for every exact value and sign. -/
def Obligations.RoundsToNearestEven : Prop :=
  ∀ (negative : Bool) (num den : Nat), 0 < den → Rounds (f32OfRatio negative num den) negative num den

/-- The remainder of finite operands is exact and has the sign of the dividend: no rounding occurs. -/
def Obligations.FmodExact : Prop :=
  ∀ a b : Word, f32Magnitude a < infinityPattern → f32Magnitude b < infinityPattern → f32IsZero b = false →
    ∃ r, fmod a b = some r ∧ f32Magnitude r < infinityPattern ∧ f32Units r = (f32Units a).tmod (f32Units b)
      ∧ f32Negative r = f32Negative a

/-! ### Compare -/

/-- CMP compares signed, writes G, L, E and Z, exactly one of G, L and E being 1, and no other flag: GE and LE keep their
values. -/
def Obligations.CmpWritesPlainFlags : Prop :=
  ∀ (s : State) (ra rb : Byte),
    encode (.cmp ra rb) = [0x40, ra, rb]
    ∧ WithReads .integer (.cmp ra rb) s ra rb 3 fun a b =>
      Completes (.cmp ra rb) s [.flags, .pc] fun t =>
        let x := (s.cell a).bits.toInt
        let y := (s.cell b).bits.toInt
        t.flags.getLsbD 4 = decide (y < x) ∧ t.flags.getLsbD 5 = decide (x < y) ∧ t.flags.getLsbD 6 = decide (x = y)
        ∧ t.flags.getLsbD 0 = decide (x = y) ∧ SameFlagBitsBut [0, 4, 5, 6] s t ∧ t.pc = s.pc + 3

/-- CMPI compares signed with the immediate and writes G, L, E, GE, LE and Z, and no other flag; GE is G or E, LE is L
or E. -/
def Obligations.CmpiWritesDerivedFlags : Prop :=
  ∀ (s : State) (r : Byte) (imm : Word),
    encode (.cmpi r imm) = 0x41 :: r :: le32 imm
    ∧ WithRead .integer (.cmpi r imm) s r 6 fun c =>
      Completes (.cmpi r imm) s [.flags, .pc] fun t =>
        let x := (s.cell c).bits.toInt
        let y := imm.toInt
        t.flags.getLsbD 4 = decide (y < x) ∧ t.flags.getLsbD 5 = decide (x < y) ∧ t.flags.getLsbD 6 = decide (x = y)
        ∧ t.flags.getLsbD 7 = decide (y ≤ x) ∧ t.flags.getLsbD 8 = decide (x ≤ y)
        ∧ t.flags.getLsbD 0 = decide (x = y) ∧ SameFlagBitsBut [0, 4, 5, 6, 7, 8] s t ∧ t.pc = s.pc + 6

/-! ### Control -/

/-- Each jump transfers exactly when its flags say so (JMP: always, JZ: Z, JNZ: not Z, JG: G, JL: L, JGE: G or E, JLE: L
or E), and then goes to its address or halts BAD_TARGET where that is not below programLength; otherwise it passes its 5
bytes, whatever its address. -/
def Obligations.JumpsTransfer : Prop :=
  ∀ p ∈ ([(0x50, Instr.jmp, fun _ => true), (0x51, Instr.jz, fun w => w.getLsbD 0), (0x52, Instr.jnz, fun w => !w.getLsbD 0),
      (0x53, Instr.jg, fun w => w.getLsbD 4), (0x54, Instr.jl, fun w => w.getLsbD 5),
      (0x55, Instr.jge, fun w => w.getLsbD 4 || w.getLsbD 6), (0x56, Instr.jle, fun w => w.getLsbD 5 || w.getLsbD 6)]
      : List (Byte × (Word → Instr) × (Word → Bool))),
    ∀ (s : State) (addr : Word),
      encode (p.2.1 addr) = p.1 :: le32 addr
      ∧ if p.2.2 s.flags then Transfers (p.2.1 addr) s addr
        else Completes (p.2.1 addr) s [.pc] fun t => t.pc = s.pc + 5

/-- CALL pushes the address after its 5 bytes and goes to its target; a bad target halts and a full call stack faults,
with nothing pushed; the target is checked first. That more than 256 entries fault too, which no run reaches, is the model's
reading (log entry 22). -/
def Obligations.CallPushesReturn : Prop :=
  ∀ (s : State) (addr : Word),
    encode (.call addr) = 0x58 :: le32 addr
    ∧ if s.programLength.toNat ≤ addr.toNat then Halts (.call addr) s .badTarget
      else if 256 ≤ s.callStack.length then Faults (.call addr) s .callStackOverflow
      else
        Completes (.call addr) s [.pc, .callStack] fun t => t.callStack = s.callStack ++ [s.pc + 5] ∧ t.pc = addr

/-- RET pops the last return address and goes there; an empty call stack halts EMPTY_RETURN, a bad target halts and leaves
the call stack. -/
def Obligations.RetPopsReturn : Prop :=
  ∀ s : State,
    encode .ret = [0x59]
    ∧ (s.callStack = [] → Halts .ret s .emptyReturn)
    ∧ ∀ cs a, s.callStack = cs ++ [a] →
        if a.toNat < s.programLength.toNat then
          Completes .ret s [.pc, .callStack] fun t => t.callStack = cs ∧ t.pc = a
        else Halts .ret s .badTarget

/-! ### Stack, I/O, miscellaneous -/

/-- PUSH appends the register's integer to the operand stack, or faults STACK_OVERFLOW with 256 entries there. That more
than 256 entries fault too, which no run reaches, is the model's reading (log entry 22). -/
def Obligations.PushAppends : Prop :=
  ∀ (s : State) (r : Byte),
    encode (.push r) = [0x60, r]
    ∧ WithRead .integer (.push r) s r 2 fun c =>
      if 256 ≤ s.operandStack.length then Faults (.push r) s .stackOverflow
      else
        Completes (.push r) s [.pc, .operandStack] fun t =>
          t.operandStack = s.operandStack ++ [(s.cell c).bits] ∧ t.pc = s.pc + 2

/-- POP moves the last entry of the operand stack into the register with tag Integer, or faults STACK_UNDERFLOW. -/
def Obligations.PopTakesLast : Prop :=
  ∀ (s : State) (r : Byte),
    encode (.pop r) = [0x61, r]
    ∧ WithCell (.pop r) s r 2 fun c =>
      (s.operandStack = [] → Faults (.pop r) s .stackUnderflow)
      ∧ ∀ os v, s.operandStack = os ++ [v] →
        Completes (.pop r) s [.pc, .regs, .operandStack] fun t =>
          t.operandStack = os ∧ WritesCell c ⟨v, .integer, []⟩ s t ∧ t.pc = s.pc + 2

/-- IN reads a byte of the IO domain, zero-extended, into the register with tag Integer; a port of 256 or more sets ERR
and leaves the register. -/
def Obligations.InReadsPort : Prop :=
  ∀ (s : State) (r : Byte) (imm : Word),
    encode (.inp r imm) = 0x68 :: r :: le32 imm
    ∧ WithCell (.inp r imm) s r 6 fun c =>
      if imm.toNat < 256 then
        Completes (.inp r imm) s [.pc, .regs] fun t =>
          WritesCell c ⟨BitVec.ofNat 32 (s.mem.byte .io imm.toNat).toNat, .integer, []⟩ s t ∧ t.pc = s.pc + 6
      else SetsErr (.inp r imm) s 6

/-- OUT writes the low byte of the register's integer to the IO byte its port names and to no other byte; a port of 256 or
more sets ERR and writes nothing. -/
def Obligations.OutWritesPort : Prop :=
  ∀ (s : State) (r : Byte) (imm : Word),
    encode (.out r imm) = 0x69 :: r :: le32 imm
    ∧ WithRead .integer (.out r imm) s r 6 fun c =>
      if imm.toNat < 256 then
        Completes (.out r imm) s [.pc, .memory] fun t =>
          t.mem.byte .io imm.toNat = (s.cell c).bits.extractLsb' 0 8 ∧ SameBytesOutside .io imm.toNat 1 s t
          ∧ t.pc = s.pc + 6
      else SetsErr (.out r imm) s 6

/-- RAND writes the next value of RAND_SOURCE, whatever it is, with tag Integer. The draw counter is the model's own (log
entry 6). -/
def Obligations.RandDraws : Prop :=
  ∀ (s : State) (r : Byte),
    encode (.rand r) = [0x70, r]
    ∧ WithCell (.rand r) s r 2 fun c =>
      Completes (.rand r) s [.pc, .regs, .randDraws] fun t =>
        WritesCell c ⟨Config.randSource s.randDraws, .integer, []⟩ s t ∧ t.randDraws = s.randDraws + 1 ∧ t.pc = s.pc + 2

/-- TIME writes the low 32 bits of the next value of TICK_SOURCE, whatever it is, with tag Integer; a later draw of
TICK_SOURCE is never smaller than an earlier one. The draw counter is the model's own (log entry 7). -/
def Obligations.TimeDraws : Prop :=
  (∀ (s : State) (r : Byte),
    encode (.time r) = [0x71, r]
    ∧ WithCell (.time r) s r 2 fun c =>
      Completes (.time r) s [.pc, .regs, .tickDraws] fun t =>
        WritesCell c ⟨BitVec.ofNat 32 (Config.tickSource s.tickDraws % 2 ^ 32), .integer, []⟩ s t
        ∧ t.tickDraws = s.tickDraws + 1 ∧ t.pc = s.pc + 2)
    ∧ ∀ m n : Nat, m ≤ n → Config.tickSource m ≤ Config.tickSource n

/-- INT is logged and changes nothing but pc, for every number. -/
def Obligations.IntIsLogged : Prop :=
  ∀ (s : State) (b : Byte),
    encode (.intr b) = [0x72, b]
    ∧ Completes (.intr b) s [.pc, .log] fun t => t.pc = s.pc + 2 ∧ t.log = s.log ++ [.unimplementedInterrupt b]

/-- HLT stops the CPU with STOP = HALT and pc behind it. -/
def Obligations.HltStops : Prop :=
  ∀ s : State,
    encode .hlt = [0x00]
    ∧ Completes .hlt s [.pc, .running, .stop, .log] fun t =>
      t.pc = s.pc + 1 ∧ t.running = false ∧ t.stop = 0x01 ∧ t.log = s.log ++ [.halted .halt (s.pc + 1)]

/-! ### Indexed memory -/

/-- LOADI reads 4 bytes little-endian at the effective address into the register with tag Integer; an unknown domain and a
span that is not wholly inside the domain set ERR and leave the register. -/
def Obligations.LoadiReadsDomain : Prop :=
  ∀ (s : State) (dom kind : Byte) (off : Word) (r : Byte),
    encode (.loadi dom kind off r) = 0x80 :: dom :: kind :: (le32 off ++ [r])
    ∧ WithOffset (.loadi dom kind off r) s kind off r fun a c =>
      match Domain.ofNumber dom with
      | none => SetsErr (.loadi dom kind off r) s 8
      | some d =>
        if 0 ≤ a ∧ a + 4 ≤ d.size then
          Completes (.loadi dom kind off r) s [.pc, .regs] fun t =>
            WritesCell c
              ⟨s.mem.byte d (a.toNat + 3) ++ s.mem.byte d (a.toNat + 2) ++ s.mem.byte d (a.toNat + 1) ++ s.mem.byte d a.toNat,
                .integer, []⟩ s t
            ∧ t.pc = s.pc + 8
        else SetsErr (.loadi dom kind off r) s 8

/-- STOREI writes the register's 4 bytes little-endian at the effective address and no other byte; an in-range store to
ROM is dropped without a flag; an unknown domain and a span that is not wholly inside the domain, ROM's too, set ERR and
write nothing. -/
def Obligations.StoreiWritesDomain : Prop :=
  ∀ (s : State) (dom kind : Byte) (off : Word) (r : Byte),
    encode (.storei dom kind off r) = 0x81 :: dom :: kind :: (le32 off ++ [r])
    ∧ WithOffset (.storei dom kind off r) s kind off r fun a c =>
      if readable s .integer c then
        match Domain.ofNumber dom with
        | none => SetsErr (.storei dom kind off r) s 8
        | some d =>
          if 0 ≤ a ∧ a + 4 ≤ d.size then
            if d = .rom then Completes (.storei dom kind off r) s [.pc] fun t => t.pc = s.pc + 8
            else
              Completes (.storei dom kind off r) s [.pc, .memory] fun t =>
                (∀ k, k < 4 → t.mem.byte d (a.toNat + k) = (s.cell c).bits.extractLsb' (8 * k) 8)
                ∧ SameBytesOutside d a.toNat 4 s t ∧ t.pc = s.pc + 8
          else SetsErr (.storei dom kind off r) s 8
      else Faults (.storei dom kind off r) s .tagMismatch

/-- The domain numbers and sizes of the canon; a number of 7 or more names no domain. -/
def Obligations.DomainTable : Prop :=
  ((List.range 7).map fun n => (Domain.ofNumber (BitVec.ofNat 8 n)).map fun d => (d, d.size))
      = [some (.code, 65536), some (.video, 262144), some (.audio, 65536), some (.rom, 1048576), some (.io, 256),
        some (.cache, 16384), some (.scratch, 65536)]
    ∧ ∀ d : Byte, 7 ≤ d.toNat → Domain.ofNumber d = none

/-- A write inside a domain other than ROM reads back byte for byte and leaves every other byte of every domain; a write
inside ROM changes no byte; a write that is not wholly inside its domain fails. -/
def Obligations.WriteThenRead : Prop :=
  ∀ (m : Memory) (d : Domain) (a : Int) (vs : Bytes),
    if 0 ≤ a ∧ a + vs.length ≤ d.size then
      ∃ m', m.write d a vs = some m'
        ∧ (d = .rom → ∀ e b, m'.byte e b = m.byte e b)
        ∧ (d ≠ .rom → m'.read d a vs.length = some vs
            ∧ ∀ e b, ¬ (e = d ∧ a.toNat ≤ b ∧ b < a.toNat + vs.length) → m'.byte e b = m.byte e b)
    else m.write d a vs = none

/-! ### Display list -/

/-- DLSTART opens an empty list under its name; it faults while a list is open, and otherwise when the name is sealed. -/
def Obligations.DlstartOpens : Prop :=
  ∀ (s : State) (n : Bytes),
    encode (.dlstart n) = 0x90 :: BitVec.ofNat 8 n.length :: n
    ∧ if s.dl.building ≠ none then Faults (.dlstart n) s .dlAlreadyOpen
      else if n ∈ s.dl.lists.map (·.1) then Faults (.dlstart n) s .dlDuplicateName
      else
        Completes (.dlstart n) s [.pc, .dl] fun t =>
          t.dl = ⟨s.dl.lists, some (n, [])⟩ ∧ t.pc = s.pc + BitVec.ofNat 32 (2 + n.length)

/-- DLPRIMITIVE and DLVERTEX append their command to the open list; they fault with none open, and with 255 commands of
their kind in it. That more than 255 fault too, which no run reaches, is the model's reading (log entry 22). -/
def Obligations.DlprimitiveDlvertexAppend : Prop :=
  ∀ p : (Instr × Bytes × Nat × DlCommand × (DlCommand → Bool)),
    ((∃ b, p = (.dlprimitive b, [0x91, b], 2, .prim b, DlCommand.isPrim))
      ∨ ∃ x y z, p = (.dlvertex x y z, 0x93 :: (le32 x ++ le32 y ++ le32 z), 13, .vertex x y z, DlCommand.isVertex)) →
    ∀ s : State,
      encode p.1 = p.2.1
      ∧ match s.dl.building with
        | none => Faults p.1 s .dlNotOpen
        | some (n, cmds) =>
          if 255 ≤ cmds.countP p.2.2.2.2 then Faults p.1 s .dlListFull
          else
            Completes p.1 s [.pc, .dl] fun t =>
              t.dl = ⟨s.dl.lists, some (n, cmds ++ [p.2.2.2.1])⟩ ∧ t.pc = s.pc + BitVec.ofNat 32 p.2.2.1

/-- DLCOLOR appends the colour its text spells to the open list; it faults with none open, then for a malformed text, then
with 255 colours in the list. That more than 255 fault too, which no run reaches, is the model's reading (log entry 22). -/
def Obligations.DlcolorAppends : Prop :=
  ∀ (s : State) (c : Bytes),
    encode (.dlcolor c) = 0x92 :: BitVec.ofNat 8 c.length :: c
    ∧ match s.dl.building with
      | none => Faults (.dlcolor c) s .dlNotOpen
      | some (n, cmds) =>
        match parseColor c with
        | none => Faults (.dlcolor c) s .badColor
        | some (r, g, b) =>
          if 255 ≤ cmds.countP DlCommand.isColor then Faults (.dlcolor c) s .dlListFull
          else
            Completes (.dlcolor c) s [.pc, .dl] fun t =>
              t.dl = ⟨s.dl.lists, some (n, cmds ++ [.color r g b])⟩ ∧ t.pc = s.pc + BitVec.ofNat 32 (2 + c.length)

/-- A colour text is well formed exactly when it is an optional `#`, `0x` or `0X` and six hexadecimal digits, and then
spells the three bytes of the digit pairs; the digits are 0-9, A-F and a-f, with their values (R373). -/
def Obligations.ColorTextSyntax : Prop :=
  ∀ (c : Bytes) (r g b : Byte),
    parseColor c = some (r, g, b) ↔
      ∃ pre ∈ ([[], [0x23], [0x30, 0x78], [0x30, 0x58]] : List Bytes), ∃ d0 d1 d2 d3 d4 d5,
        c = pre ++ [d0, d1, d2, d3, d4, d5] ∧ IsHexPair d0 d1 r ∧ IsHexPair d2 d3 g ∧ IsHexPair d4 d5 b

/-- DLEND seals the open list under its name and leaves every other sealed list; it faults with none open. -/
def Obligations.DlendSeals : Prop :=
  ∀ s : State,
    encode .dlend = [0x94]
    ∧ match s.dl.building with
      | none => Faults .dlend s .dlNotOpen
      | some (n, cmds) =>
        Completes .dlend s [.pc, .dl] fun t =>
          t.dl.building = none ∧ lookupList t.dl.lists n = some cmds
          ∧ (∀ m, m ≠ n → lookupList t.dl.lists m = lookupList s.dl.lists m) ∧ t.pc = s.pc + 1

/-- DLCALL stores the record of a sealed list at the cursor and emits the RenderCall that locates it; a record that does
not fit sets ERR and emits nothing; a name that is not sealed faults. -/
def Obligations.DlcallStoresAndEmits : Prop :=
  ∀ (s : State) (n : Bytes) (x y z : Word),
    encode (.dlcall n x y z) = 0x95 :: BitVec.ofNat 8 n.length :: (n ++ (le32 x ++ le32 y ++ le32 z))
    ∧ match lookupList s.dl.lists n with
      | none => Faults (.dlcall n x y z) s .dlUnknownList
      | some cmds =>
        if s.vcur.toNat + (serialize n cmds).length ≤ 262144 then
          Completes (.dlcall n x y z) s [.pc, .memory, .vcur, .renderCalls] fun t =>
            StoresRecord (serialize n cmds) s t
            ∧ t.renderCalls = s.renderCalls ++ [⟨n, x, y, z, some (s.vcur.toNat, (serialize n cmds).length)⟩]
            ∧ t.pc = s.pc + BitVec.ofNat 32 (14 + n.length)
        else SetsErr (.dlcall n x y z) s (14 + n.length)

/-- STOREMODEL makes the register a Model cell of the name, its pattern 0. -/
def Obligations.StoremodelWritesModel : Prop :=
  ∀ (s : State) (r : Byte) (n : Bytes),
    encode (.storemodel r n) = 0x96 :: r :: BitVec.ofNat 8 n.length :: n
    ∧ WithCell (.storemodel r n) s r (3 + n.length) fun c =>
      Completes (.storemodel r n) s [.pc, .regs] fun t =>
        WritesCell c ⟨0, .model, n⟩ s t ∧ t.pc = s.pc + BitVec.ofNat 32 (3 + n.length)

/-- LOADMODEL stores the record of the sealed list a Model cell names at the cursor, and emits nothing; a record that does
not fit sets ERR; an unsealed name faults; a cell that is no Model cell is a logged no-op or a tag-mismatch fault, as
TAG_POLICY says. That the log keeps the no-op's entry, with pc in it, is the model's choice (log entry 11). -/
def Obligations.LoadmodelStores : Prop :=
  ∀ (s : State) (r : Byte),
    encode (.loadmodel r) = [0x97, r]
    ∧ WithCell (.loadmodel r) s r 2 fun c =>
      if (s.cell c).tag = .model then
        match lookupList s.dl.lists (s.cell c).name with
        | none => Faults (.loadmodel r) s .dlUnknownList
        | some cmds =>
          if s.vcur.toNat + (serialize (s.cell c).name cmds).length ≤ 262144 then
            Completes (.loadmodel r) s [.pc, .memory, .vcur] fun t =>
              StoresRecord (serialize (s.cell c).name cmds) s t ∧ t.pc = s.pc + 2
          else SetsErr (.loadmodel r) s 2
      else if Config.tagPolicy = .reinterpret then
        Completes (.loadmodel r) s [.pc, .log] fun t => t.log = s.log ++ [.notAModel s.pc] ∧ t.pc = s.pc + 2
      else Faults (.loadmodel r) s .tagMismatch

/-- A list within the manager's limits has the record R377 writes out: 0xD1, the length byte, the name, the counts of
vertices, colours and primitives, and each command as its tag and its bytes; that is 5 + |s| + 2 np + 4 nc + 13 nv bytes,
and the decoder gives back the name, the commands in order, bit for bit, and the record's length, whatever bytes
follow (R378). DLCALL and LOADMODEL store this record. -/
def Obligations.RecordRoundTrip : Prop :=
  ∀ (n : Bytes) (cmds : List DlCommand), ListOk n cmds →
    serialize n cmds
        = [0xD1, BitVec.ofNat 8 n.length] ++ n
          ++ [BitVec.ofNat 8 (tagCount 0x03 cmds), BitVec.ofNat 8 (tagCount 0x02 cmds), BitVec.ofNat 8 (tagCount 0x01 cmds)]
          ++ cmds.flatMap (fun c => recordTag c :: recordPayload c)
    ∧ (serialize n cmds).length = 5 + n.length + 2 * tagCount 0x01 cmds + 4 * tagCount 0x02 cmds + 13 * tagCount 0x03 cmds
    ∧ ∀ after, deserialize (serialize n cmds ++ after) = some (n, cmds, (serialize n cmds).length)

/-! ### Reset and the host -/

/-- State.reset is the power-on state after the memory reset port and the CPU reset port, and has the values of the reset
table. That it is this point of the boot sequence is the model's choice (log entry 1). -/
def Obligations.ResetValues : Prop :=
  State.reset = State.atPowerOn.memReset.cpuReset
    ∧ (∀ i, State.reset.cell i = ⟨0, .integer, []⟩) ∧ State.reset.flags = 0 ∧ State.reset.gflags = 0
    ∧ State.reset.callStack = [] ∧ State.reset.pc = 0 ∧ State.reset.running = true ∧ State.reset.stop = 0x00
    ∧ State.reset.dl = ⟨[], none⟩ ∧ State.reset.vcur = 0 ∧ State.reset.programLength = 0
    ∧ State.reset.operandStack = [] ∧ (∀ d a, State.reset.mem.byte d a = 0x00)
    ∧ State.atPowerOn.running = false ∧ State.atPowerOn.stop = 0x07

/-- The CPU reset port sets what R550 lists, from every state, and leaves memory, the operand stack, programLength, the
output channels and the environment sources. -/
def Obligations.CpuResetPort : Prop :=
  ∀ s : State,
    SameBut [.regs, .flags, .gflags, .callStack, .pc, .running, .stop, .dl, .vcur] s s.cpuReset
    ∧ (∀ i, s.cpuReset.cell i = ⟨0, .integer, []⟩) ∧ s.cpuReset.flags = 0 ∧ s.cpuReset.gflags = 0
    ∧ s.cpuReset.callStack = [] ∧ s.cpuReset.pc = 0 ∧ s.cpuReset.running = true ∧ s.cpuReset.stop = 0x00
    ∧ s.cpuReset.dl = ⟨[], none⟩ ∧ s.cpuReset.vcur = 0

/-- The memory reset port zeroes every domain but ROM, which it leaves, empties the operand stack, sets programLength to 0
and changes nothing else. -/
def Obligations.MemResetPort : Prop :=
  ∀ s : State,
    SameBut [.memory, .operandStack, .programLength] s s.memReset
    ∧ (∀ d a, s.memReset.mem.byte d a = if d = .rom then s.mem.byte .rom a else 0x00)
    ∧ s.memReset.operandStack = [] ∧ s.memReset.programLength = 0

/-! ### The invariant -/

/-- The invariant holds of the reset state. -/
def Obligations.ResetKeepsInvariant : Prop := State.reset.Inv ∧ State.atPowerOn.Inv

/-- Every step keeps the invariant, from every state that has it. -/
def Obligations.StepPreservesInvariant : Prop := ∀ s t : State, s.Inv → step s = .next t → t.Inv

/-- From every state that has the invariant, a step answers a next state: no step of the machine ends in the model's own
fault or in a refusal. -/
def Obligations.StepAnswersNext : Prop := ∀ s : State, s.Inv → ∃ t, step s = .next t

/-- Every host operation that succeeds keeps the invariant. -/
def Obligations.HostOpsPreserveInvariant : Prop :=
  ∀ (s t : State) (op : HostOp), s.Inv → op.wellFormed = true → s.hostApply op = .ok t → t.Inv

/-! ### Rules of the whole machine -/

/-- An instruction with a register operand of 64 or more, the offset register of format M among them, does nothing but pass pc over its bytes and log an entry, and the
CPU goes on. -/
def Obligations.BadRegisterSkipsWhole : Prop :=
  ∀ (i : Instr) (s : State), (∃ r ∈ registerBytes i, 64 ≤ r.toNat) →
    Completes i s [.pc, .log] fun t => t.pc = s.pc + BitVec.ofNat 32 i.len ∧ ∃ e, t.log = s.log ++ [e]

/-- Stops are precise: a step that stops a running CPU, but for HLT, changes only running, STOP and the diagnostic
channel; the host's stop changes only running and STOP, which becomes EXTERNAL, and nothing of a stopped CPU (60_exceptions.md
R525). A run returns only with the CPU stopped, and returns at the step boundary where the host stops it, whatever the host
does there before and had planned for later (30_encoding.md R145). -/
def Obligations.StopsArePrecise : Prop :=
  (∀ s t : State, s.running = true → step s = .next t → t.running = false → t.stop ≠ 0x01 →
    SameBut [.running, .stop, .log] s t)
    ∧ (∀ s : State, (s.running = true →
        SameBut [.running, .stop] s s.hostStop ∧ s.hostStop.running = false ∧ s.hostStop.stop = 0x06)
      ∧ (s.running = false → s.hostStop = s))
    ∧ (∀ (s t : State) (host : List (List HostOp)) (last : Option StepReport),
        s.hostRun host = .returned last t → t.running = false)
    ∧ ∀ (s t : State) (ops : List HostOp) (host : List (List HostOp)), s.running = true → step s = .next t →
        t.running = true → ∃ last, s.hostRun ((ops ++ [.stop]) :: host) = .returned last (t.hostActs ops).hostStop

/-- No instruction clears ERR, writes C, V, N or bits 10 to 31 of FLAGS, GFLAGS or programLength. -/
def Obligations.StickyAndUnwrittenBits : Prop :=
  ∀ (i : Instr) (s t : State), exec i s = .next t →
    (s.flags.getLsbD 9 = true → t.flags.getLsbD 9 = true)
    ∧ (∀ k, k = 1 ∨ k = 2 ∨ k = 3 ∨ 10 ≤ k → t.flags.getLsbD k = s.flags.getLsbD k)
    ∧ t.gflags = s.gflags ∧ t.programLength = s.programLength

/-- No step changes a byte of ROM. -/
def Obligations.RomNeverChanges : Prop :=
  ∀ s t : State, step s = .next t → ∀ a, t.mem.byte .rom a = s.mem.byte .rom a

/-- Only STOREI changes Code, Audio, Cache and Scratch, only STOREI and OUT change IO, and only STOREI, DLCALL and
LOADMODEL change Video. -/
def Obligations.OnlyStoresWriteMemory : Prop :=
  ∀ (i : Instr) (s t : State), exec i s = .next t → (∀ dom kind off r, i ≠ .storei dom kind off r) →
    (∀ d, d = .code ∨ d = .audio ∨ d = .cache ∨ d = .scratch → ∀ a, t.mem.byte d a = s.mem.byte d a)
    ∧ ((∀ r imm, i ≠ .out r imm) → ∀ a, t.mem.byte .io a = s.mem.byte .io a)
    ∧ ((∀ n x y z, i ≠ .dlcall n x y z) → (∀ r, i ≠ .loadmodel r) → ∀ a, t.mem.byte .video a = s.mem.byte .video a)

/-- The stop codes of R501. -/
def Obligations.StopCodeTable : Prop :=
  [StopCode.none, .halt, .endOfProgram, .illegalOpcode, .badTarget, .emptyReturn, .external, .powerOn].map StopCode.code
      = [0x00, 0x01, 0x02, 0x03, 0x04, 0x05, 0x06, 0x07]
    ∧ [StopCode.stackOverflow, .stackUnderflow, .callStackOverflow, .dlAlreadyOpen, .dlNotOpen, .dlDuplicateName,
        .dlUnknownList, .dlListFull, .badColor, .tagMismatch].map StopCode.code
      = [0x10, 0x11, 0x12, 0x13, 0x14, 0x15, 0x16, 0x17, 0x18, 0x19]

/-! ### The assembler -/

/-- The two passes agree: for every line and label table, pass 1 counts exactly the bytes pass 2 emits, and the bytes of an
instruction line are one well-formed instruction of that length. -/
def Obligations.AssemblerSizesAgree : Prop :=
  ∀ (lt : LabelTable) (l : SourceLine),
    (emitLine lt l).1.length = lineSize l
    ∧ (knownInstr l.body ≠ none →
        ∃ i : Instr, i.wellFormed = true ∧ i.len = lineSize l ∧ decode (emitLine lt l).1 = .instr i [])

/-- Pass 1 gives each label the address where the bytes pass 2 emits for the lines after it begin: the sum of the sizes of
the lines before it; the first definition of a label is kept. -/
def Obligations.LabelAddresses : Prop :=
  ∀ (before after : List SourceLine) (l : SourceLine) (n : Bytes),
    labelNameOk n = true → n ∈ l.labels → (∀ k ∈ before, n ∉ k.labels) →
    ∀ lt, (pass1 0 [] (before ++ l :: after)).1 = lt →
      findLabel lt n = some (pass2 lt before).1.length
end

