-- ==== Sys2Proof/Laws/Flags.lean ====
section
/-! SUPPORT. The bits of a flags word after each flag computation. -/

namespace Sys2Proof.Machine

theorem Flag.bit_lt (f : Flag) : f.bit < 32 := by cases f <;> decide

/-- Writing a flag: its own bit is the value written, every other bit as before. -/
@[simp] theorem withFlag_getLsbD (w : Word) (f : Flag) (b : Bool) (k : Nat) :
    (withFlag w f b).getLsbD k = if k = f.bit then b else w.getLsbD k := by
  have hf := f.bit_lt
  have one : ((1#32) <<< f.bit).getLsbD k = decide (k = f.bit) := by
    rw [BitVec.getLsbD_shiftLeft]
    by_cases hk : k = f.bit
    · subst hk; simp [hf]
    · by_cases hlt : k < f.bit
      · simp [hlt, hk]
      · have : k - f.bit ≠ 0 := by omega
        simp [this, hk]
  cases b
  · simp only [withFlag, Bool.false_eq_true, if_false, BitVec.getLsbD_and, BitVec.getLsbD_not, one]
    by_cases hk : k = f.bit
    · simp [hk]
    · by_cases h32 : k < 32
      · simp [hk, h32]
      · simp [hk, BitVec.getLsbD_of_ge w k (by omega)]
  · simp only [withFlag, if_true, BitVec.getLsbD_or, one]
    by_cases hk : k = f.bit <;> simp [hk]

/-- An integer result writes Z alone. -/
theorem flagsOfResult_getLsbD (w res : Word) (k : Nat) :
    (flagsOfResult w res).getLsbD k = if k = 0 then decide (res = 0) else w.getLsbD k := by
  simp only [flagsOfResult, withFlag_getLsbD, Flag.bit]
  rfl

/-- CMP writes bits 0, 4, 5 and 6. -/
theorem flagsOfCmp_getLsbD (w a b : Word) (k : Nat) :
    (flagsOfCmp w a b).getLsbD k =
      if k = 0 then decide (a = b) else if k = 6 then decide (a = b) else if k = 5 then a.slt b
      else if k = 4 then b.slt a else w.getLsbD k := by
  simp only [flagsOfCmp, withFlag_getLsbD, Flag.bit]
  rfl

/-- The bits of the comparison mask. -/
theorem comparisonMask_getLsbD (k : Nat) : comparisonMask.getLsbD k = decide (4 ≤ k ∧ k ≤ 8) := by
  by_cases h : k < 32
  · have all : ∀ k : Fin 32, comparisonMask.getLsbD k = decide (4 ≤ (k : Nat) ∧ (k : Nat) ≤ 8) := by decide
    exact all ⟨k, h⟩
  · rw [BitVec.getLsbD_of_ge _ _ (by omega), eq_comm, decide_eq_false_iff_not]; omega

/-- CMPI writes bits 0 and 4 to 8. -/
theorem flagsOfCmpi_getLsbD (w a b : Word) (k : Nat) :
    (flagsOfCmpi w a b).getLsbD k =
      if k = 0 then decide (a = b) else if k = 8 then a.sle b else if k = 7 then b.sle a
      else if k = 6 then decide (a = b) else if k = 5 then a.slt b else if k = 4 then b.slt a else w.getLsbD k := by
  have mask : (w &&& ~~~comparisonMask).getLsbD k = (w.getLsbD k && !decide (4 ≤ k ∧ k ≤ 8)) := by
    rw [BitVec.getLsbD_and, BitVec.getLsbD_not, comparisonMask_getLsbD]
    by_cases h : k < 32
    · simp [h]
    · simp [BitVec.getLsbD_of_ge w k (by omega)]
  simp only [flagsOfCmpi, withFlag_getLsbD, Flag.bit, mask]
  by_cases h8 : 4 ≤ k ∧ k ≤ 8
  · obtain rfl | rfl | rfl | rfl | rfl : k = 4 ∨ k = 5 ∨ k = 6 ∨ k = 7 ∨ k = 8 := by omega
    all_goals simp
  · simp [h8]

end Sys2Proof.Machine
end

