-- ==== Sys2Proof/Laws/State.lean ====
section
/-! SUPPORT. One lemma per field per update of the state, and the register cells under each update. -/

namespace Sys2Proof.Machine

variable (s : State)

/-! ### addLog -/

@[simp] theorem State.addLog_regs (e : LogEntry) : (s.addLog e).regs = s.regs := rfl
@[simp] theorem State.addLog_flags (e : LogEntry) : (s.addLog e).flags = s.flags := rfl
@[simp] theorem State.addLog_gflags (e : LogEntry) : (s.addLog e).gflags = s.gflags := rfl
@[simp] theorem State.addLog_pc (e : LogEntry) : (s.addLog e).pc = s.pc := rfl
@[simp] theorem State.addLog_running (e : LogEntry) : (s.addLog e).running = s.running := rfl
@[simp] theorem State.addLog_stop (e : LogEntry) : (s.addLog e).stop = s.stop := rfl
@[simp] theorem State.addLog_programLength (e : LogEntry) : (s.addLog e).programLength = s.programLength := rfl
@[simp] theorem State.addLog_callStack (e : LogEntry) : (s.addLog e).callStack = s.callStack := rfl
@[simp] theorem State.addLog_operandStack (e : LogEntry) : (s.addLog e).operandStack = s.operandStack := rfl
@[simp] theorem State.addLog_dl (e : LogEntry) : (s.addLog e).dl = s.dl := rfl
@[simp] theorem State.addLog_vcur (e : LogEntry) : (s.addLog e).vcur = s.vcur := rfl
@[simp] theorem State.addLog_mem (e : LogEntry) : (s.addLog e).mem = s.mem := rfl
@[simp] theorem State.addLog_renderCalls (e : LogEntry) : (s.addLog e).renderCalls = s.renderCalls := rfl
@[simp] theorem State.addLog_log (e : LogEntry) : (s.addLog e).log = s.log ++ [e] := rfl
@[simp] theorem State.addLog_randDraws (e : LogEntry) : (s.addLog e).randDraws = s.randDraws := rfl
@[simp] theorem State.addLog_tickDraws (e : LogEntry) : (s.addLog e).tickDraws = s.tickDraws := rfl
@[simp] theorem State.addLog_cell (e : LogEntry) (j : RegIdx) : (s.addLog e).cell j = s.cell j := rfl

/-! ### advance -/

@[simp] theorem State.advance_regs (n : Nat) : (s.advance n).regs = s.regs := rfl
@[simp] theorem State.advance_flags (n : Nat) : (s.advance n).flags = s.flags := rfl
@[simp] theorem State.advance_gflags (n : Nat) : (s.advance n).gflags = s.gflags := rfl
@[simp] theorem State.advance_pc (n : Nat) : (s.advance n).pc = s.pc + BitVec.ofNat 32 n := rfl
@[simp] theorem State.advance_running (n : Nat) : (s.advance n).running = s.running := rfl
@[simp] theorem State.advance_stop (n : Nat) : (s.advance n).stop = s.stop := rfl
@[simp] theorem State.advance_programLength (n : Nat) : (s.advance n).programLength = s.programLength := rfl
@[simp] theorem State.advance_callStack (n : Nat) : (s.advance n).callStack = s.callStack := rfl
@[simp] theorem State.advance_operandStack (n : Nat) : (s.advance n).operandStack = s.operandStack := rfl
@[simp] theorem State.advance_dl (n : Nat) : (s.advance n).dl = s.dl := rfl
@[simp] theorem State.advance_vcur (n : Nat) : (s.advance n).vcur = s.vcur := rfl
@[simp] theorem State.advance_mem (n : Nat) : (s.advance n).mem = s.mem := rfl
@[simp] theorem State.advance_renderCalls (n : Nat) : (s.advance n).renderCalls = s.renderCalls := rfl
@[simp] theorem State.advance_log (n : Nat) : (s.advance n).log = s.log := rfl
@[simp] theorem State.advance_randDraws (n : Nat) : (s.advance n).randDraws = s.randDraws := rfl
@[simp] theorem State.advance_tickDraws (n : Nat) : (s.advance n).tickDraws = s.tickDraws := rfl
@[simp] theorem State.advance_cell (n : Nat) (j : RegIdx) : (s.advance n).cell j = s.cell j := rfl

/-! ### jump -/

@[simp] theorem State.jump_regs (a : Word) : (s.jump a).regs = s.regs := rfl
@[simp] theorem State.jump_flags (a : Word) : (s.jump a).flags = s.flags := rfl
@[simp] theorem State.jump_gflags (a : Word) : (s.jump a).gflags = s.gflags := rfl
@[simp] theorem State.jump_pc (a : Word) : (s.jump a).pc = a := rfl
@[simp] theorem State.jump_running (a : Word) : (s.jump a).running = s.running := rfl
@[simp] theorem State.jump_stop (a : Word) : (s.jump a).stop = s.stop := rfl
@[simp] theorem State.jump_programLength (a : Word) : (s.jump a).programLength = s.programLength := rfl
@[simp] theorem State.jump_callStack (a : Word) : (s.jump a).callStack = s.callStack := rfl
@[simp] theorem State.jump_operandStack (a : Word) : (s.jump a).operandStack = s.operandStack := rfl
@[simp] theorem State.jump_dl (a : Word) : (s.jump a).dl = s.dl := rfl
@[simp] theorem State.jump_vcur (a : Word) : (s.jump a).vcur = s.vcur := rfl
@[simp] theorem State.jump_mem (a : Word) : (s.jump a).mem = s.mem := rfl
@[simp] theorem State.jump_renderCalls (a : Word) : (s.jump a).renderCalls = s.renderCalls := rfl
@[simp] theorem State.jump_log (a : Word) : (s.jump a).log = s.log := rfl
@[simp] theorem State.jump_randDraws (a : Word) : (s.jump a).randDraws = s.randDraws := rfl
@[simp] theorem State.jump_tickDraws (a : Word) : (s.jump a).tickDraws = s.tickDraws := rfl
@[simp] theorem State.jump_cell (a : Word) (j : RegIdx) : (s.jump a).cell j = s.cell j := rfl

/-! ### halt -/

@[simp] theorem State.halt_regs (c : StopCode) : (s.halt c).regs = s.regs := rfl
@[simp] theorem State.halt_flags (c : StopCode) : (s.halt c).flags = s.flags := rfl
@[simp] theorem State.halt_gflags (c : StopCode) : (s.halt c).gflags = s.gflags := rfl
@[simp] theorem State.halt_pc (c : StopCode) : (s.halt c).pc = s.pc := rfl
@[simp] theorem State.halt_running (c : StopCode) : (s.halt c).running = false := rfl
@[simp] theorem State.halt_stop (c : StopCode) : (s.halt c).stop = c.code := rfl
@[simp] theorem State.halt_programLength (c : StopCode) : (s.halt c).programLength = s.programLength := rfl
@[simp] theorem State.halt_callStack (c : StopCode) : (s.halt c).callStack = s.callStack := rfl
@[simp] theorem State.halt_operandStack (c : StopCode) : (s.halt c).operandStack = s.operandStack := rfl
@[simp] theorem State.halt_dl (c : StopCode) : (s.halt c).dl = s.dl := rfl
@[simp] theorem State.halt_vcur (c : StopCode) : (s.halt c).vcur = s.vcur := rfl
@[simp] theorem State.halt_mem (c : StopCode) : (s.halt c).mem = s.mem := rfl
@[simp] theorem State.halt_renderCalls (c : StopCode) : (s.halt c).renderCalls = s.renderCalls := rfl
@[simp] theorem State.halt_log (c : StopCode) : (s.halt c).log = s.log ++ [.halted c s.pc] := rfl
@[simp] theorem State.halt_randDraws (c : StopCode) : (s.halt c).randDraws = s.randDraws := rfl
@[simp] theorem State.halt_tickDraws (c : StopCode) : (s.halt c).tickDraws = s.tickDraws := rfl
@[simp] theorem State.halt_cell (c : StopCode) (j : RegIdx) : (s.halt c).cell j = s.cell j := rfl

/-! ### raise -/

@[simp] theorem State.raise_regs (c : StopCode) : (s.raise c).regs = s.regs := rfl
@[simp] theorem State.raise_flags (c : StopCode) : (s.raise c).flags = s.flags := rfl
@[simp] theorem State.raise_gflags (c : StopCode) : (s.raise c).gflags = s.gflags := rfl
@[simp] theorem State.raise_pc (c : StopCode) : (s.raise c).pc = s.pc := rfl
@[simp] theorem State.raise_running (c : StopCode) : (s.raise c).running = false := rfl
@[simp] theorem State.raise_stop (c : StopCode) : (s.raise c).stop = c.code := rfl
@[simp] theorem State.raise_programLength (c : StopCode) : (s.raise c).programLength = s.programLength := rfl
@[simp] theorem State.raise_callStack (c : StopCode) : (s.raise c).callStack = s.callStack := rfl
@[simp] theorem State.raise_operandStack (c : StopCode) : (s.raise c).operandStack = s.operandStack := rfl
@[simp] theorem State.raise_dl (c : StopCode) : (s.raise c).dl = s.dl := rfl
@[simp] theorem State.raise_vcur (c : StopCode) : (s.raise c).vcur = s.vcur := rfl
@[simp] theorem State.raise_mem (c : StopCode) : (s.raise c).mem = s.mem := rfl
@[simp] theorem State.raise_renderCalls (c : StopCode) : (s.raise c).renderCalls = s.renderCalls := rfl
@[simp] theorem State.raise_log (c : StopCode) : (s.raise c).log = s.log ++ [.faulted c s.pc] := rfl
@[simp] theorem State.raise_randDraws (c : StopCode) : (s.raise c).randDraws = s.randDraws := rfl
@[simp] theorem State.raise_tickDraws (c : StopCode) : (s.raise c).tickDraws = s.tickDraws := rfl
@[simp] theorem State.raise_cell (c : StopCode) (j : RegIdx) : (s.raise c).cell j = s.cell j := rfl

/-! ### skip -/

@[simp] theorem State.skip_regs (why : SkipReason) (i : Instr) : (s.skip why i).regs = s.regs := rfl
@[simp] theorem State.skip_flags (why : SkipReason) (i : Instr) : (s.skip why i).flags = s.flags := rfl
@[simp] theorem State.skip_gflags (why : SkipReason) (i : Instr) : (s.skip why i).gflags = s.gflags := rfl
@[simp] theorem State.skip_pc (why : SkipReason) (i : Instr) : (s.skip why i).pc = s.pc + BitVec.ofNat 32 i.len := rfl
@[simp] theorem State.skip_running (why : SkipReason) (i : Instr) : (s.skip why i).running = s.running := rfl
@[simp] theorem State.skip_stop (why : SkipReason) (i : Instr) : (s.skip why i).stop = s.stop := rfl
@[simp] theorem State.skip_programLength (why : SkipReason) (i : Instr) : (s.skip why i).programLength = s.programLength := rfl
@[simp] theorem State.skip_callStack (why : SkipReason) (i : Instr) : (s.skip why i).callStack = s.callStack := rfl
@[simp] theorem State.skip_operandStack (why : SkipReason) (i : Instr) : (s.skip why i).operandStack = s.operandStack := rfl
@[simp] theorem State.skip_dl (why : SkipReason) (i : Instr) : (s.skip why i).dl = s.dl := rfl
@[simp] theorem State.skip_vcur (why : SkipReason) (i : Instr) : (s.skip why i).vcur = s.vcur := rfl
@[simp] theorem State.skip_mem (why : SkipReason) (i : Instr) : (s.skip why i).mem = s.mem := rfl
@[simp] theorem State.skip_renderCalls (why : SkipReason) (i : Instr) : (s.skip why i).renderCalls = s.renderCalls := rfl
@[simp] theorem State.skip_log (why : SkipReason) (i : Instr) : (s.skip why i).log = s.log ++ [.skipped why s.pc i.opcode] := rfl
@[simp] theorem State.skip_randDraws (why : SkipReason) (i : Instr) : (s.skip why i).randDraws = s.randDraws := rfl
@[simp] theorem State.skip_tickDraws (why : SkipReason) (i : Instr) : (s.skip why i).tickDraws = s.tickDraws := rfl
@[simp] theorem State.skip_cell (why : SkipReason) (i : Instr) (j : RegIdx) : (s.skip why i).cell j = s.cell j := rfl

/-! ### cpuReset -/

@[simp] theorem State.cpuReset_regs : (s.cpuReset).regs = Vector.replicate 64 RegCell.reset := rfl
@[simp] theorem State.cpuReset_flags : (s.cpuReset).flags = 0 := rfl
@[simp] theorem State.cpuReset_gflags : (s.cpuReset).gflags = 0 := rfl
@[simp] theorem State.cpuReset_pc : (s.cpuReset).pc = 0 := rfl
@[simp] theorem State.cpuReset_running : (s.cpuReset).running = true := rfl
@[simp] theorem State.cpuReset_stop : (s.cpuReset).stop = 0x00 := rfl
@[simp] theorem State.cpuReset_programLength : (s.cpuReset).programLength = s.programLength := rfl
@[simp] theorem State.cpuReset_callStack : (s.cpuReset).callStack = [] := rfl
@[simp] theorem State.cpuReset_operandStack : (s.cpuReset).operandStack = s.operandStack := rfl
@[simp] theorem State.cpuReset_dl : (s.cpuReset).dl = ⟨[], none⟩ := rfl
@[simp] theorem State.cpuReset_vcur : (s.cpuReset).vcur = 0 := rfl
@[simp] theorem State.cpuReset_mem : (s.cpuReset).mem = s.mem := rfl
@[simp] theorem State.cpuReset_renderCalls : (s.cpuReset).renderCalls = s.renderCalls := rfl
@[simp] theorem State.cpuReset_log : (s.cpuReset).log = s.log := rfl
@[simp] theorem State.cpuReset_randDraws : (s.cpuReset).randDraws = s.randDraws := rfl
@[simp] theorem State.cpuReset_tickDraws : (s.cpuReset).tickDraws = s.tickDraws := rfl

/-! ### memReset -/

@[simp] theorem State.memReset_regs : (s.memReset).regs = s.regs := rfl
@[simp] theorem State.memReset_flags : (s.memReset).flags = s.flags := rfl
@[simp] theorem State.memReset_gflags : (s.memReset).gflags = s.gflags := rfl
@[simp] theorem State.memReset_pc : (s.memReset).pc = s.pc := rfl
@[simp] theorem State.memReset_running : (s.memReset).running = s.running := rfl
@[simp] theorem State.memReset_stop : (s.memReset).stop = s.stop := rfl
@[simp] theorem State.memReset_programLength : (s.memReset).programLength = 0 := rfl
@[simp] theorem State.memReset_callStack : (s.memReset).callStack = s.callStack := rfl
@[simp] theorem State.memReset_operandStack : (s.memReset).operandStack = [] := rfl
@[simp] theorem State.memReset_dl : (s.memReset).dl = s.dl := rfl
@[simp] theorem State.memReset_vcur : (s.memReset).vcur = s.vcur := rfl
@[simp] theorem State.memReset_mem : (s.memReset).mem = ⟨[], [], [], s.mem.rom, [], [], []⟩ := rfl
@[simp] theorem State.memReset_renderCalls : (s.memReset).renderCalls = s.renderCalls := rfl
@[simp] theorem State.memReset_log : (s.memReset).log = s.log := rfl
@[simp] theorem State.memReset_randDraws : (s.memReset).randDraws = s.randDraws := rfl
@[simp] theorem State.memReset_tickDraws : (s.memReset).tickDraws = s.tickDraws := rfl
@[simp] theorem State.memReset_cell (j : RegIdx) : (s.memReset).cell j = s.cell j := rfl

/-! ### setCell -/

@[simp] theorem State.setCell_regs (i : RegIdx) (c : RegCell) : (s.setCell i c).regs = s.regs.set i c := rfl
@[simp] theorem State.setCell_flags (i : RegIdx) (c : RegCell) : (s.setCell i c).flags = s.flags := rfl
@[simp] theorem State.setCell_gflags (i : RegIdx) (c : RegCell) : (s.setCell i c).gflags = s.gflags := rfl
@[simp] theorem State.setCell_pc (i : RegIdx) (c : RegCell) : (s.setCell i c).pc = s.pc := rfl
@[simp] theorem State.setCell_running (i : RegIdx) (c : RegCell) : (s.setCell i c).running = s.running := rfl
@[simp] theorem State.setCell_stop (i : RegIdx) (c : RegCell) : (s.setCell i c).stop = s.stop := rfl
@[simp] theorem State.setCell_programLength (i : RegIdx) (c : RegCell) : (s.setCell i c).programLength = s.programLength := rfl
@[simp] theorem State.setCell_callStack (i : RegIdx) (c : RegCell) : (s.setCell i c).callStack = s.callStack := rfl
@[simp] theorem State.setCell_operandStack (i : RegIdx) (c : RegCell) : (s.setCell i c).operandStack = s.operandStack := rfl
@[simp] theorem State.setCell_dl (i : RegIdx) (c : RegCell) : (s.setCell i c).dl = s.dl := rfl
@[simp] theorem State.setCell_vcur (i : RegIdx) (c : RegCell) : (s.setCell i c).vcur = s.vcur := rfl
@[simp] theorem State.setCell_mem (i : RegIdx) (c : RegCell) : (s.setCell i c).mem = s.mem := rfl
@[simp] theorem State.setCell_renderCalls (i : RegIdx) (c : RegCell) : (s.setCell i c).renderCalls = s.renderCalls := rfl
@[simp] theorem State.setCell_log (i : RegIdx) (c : RegCell) : (s.setCell i c).log = s.log := rfl
@[simp] theorem State.setCell_randDraws (i : RegIdx) (c : RegCell) : (s.setCell i c).randDraws = s.randDraws := rfl
@[simp] theorem State.setCell_tickDraws (i : RegIdx) (c : RegCell) : (s.setCell i c).tickDraws = s.tickDraws := rfl

/-! ### writeInt -/

@[simp] theorem State.writeInt_regs (i : RegIdx) (v : Word) : (s.writeInt i v).regs = s.regs.set i ⟨v, .integer, []⟩ := rfl
@[simp] theorem State.writeInt_flags (i : RegIdx) (v : Word) : (s.writeInt i v).flags = s.flags := rfl
@[simp] theorem State.writeInt_gflags (i : RegIdx) (v : Word) : (s.writeInt i v).gflags = s.gflags := rfl
@[simp] theorem State.writeInt_pc (i : RegIdx) (v : Word) : (s.writeInt i v).pc = s.pc := rfl
@[simp] theorem State.writeInt_running (i : RegIdx) (v : Word) : (s.writeInt i v).running = s.running := rfl
@[simp] theorem State.writeInt_stop (i : RegIdx) (v : Word) : (s.writeInt i v).stop = s.stop := rfl
@[simp] theorem State.writeInt_programLength (i : RegIdx) (v : Word) : (s.writeInt i v).programLength = s.programLength := rfl
@[simp] theorem State.writeInt_callStack (i : RegIdx) (v : Word) : (s.writeInt i v).callStack = s.callStack := rfl
@[simp] theorem State.writeInt_operandStack (i : RegIdx) (v : Word) : (s.writeInt i v).operandStack = s.operandStack := rfl
@[simp] theorem State.writeInt_dl (i : RegIdx) (v : Word) : (s.writeInt i v).dl = s.dl := rfl
@[simp] theorem State.writeInt_vcur (i : RegIdx) (v : Word) : (s.writeInt i v).vcur = s.vcur := rfl
@[simp] theorem State.writeInt_mem (i : RegIdx) (v : Word) : (s.writeInt i v).mem = s.mem := rfl
@[simp] theorem State.writeInt_renderCalls (i : RegIdx) (v : Word) : (s.writeInt i v).renderCalls = s.renderCalls := rfl
@[simp] theorem State.writeInt_log (i : RegIdx) (v : Word) : (s.writeInt i v).log = s.log := rfl
@[simp] theorem State.writeInt_randDraws (i : RegIdx) (v : Word) : (s.writeInt i v).randDraws = s.randDraws := rfl
@[simp] theorem State.writeInt_tickDraws (i : RegIdx) (v : Word) : (s.writeInt i v).tickDraws = s.tickDraws := rfl

/-! ### writeFloat -/

@[simp] theorem State.writeFloat_regs (i : RegIdx) (v : Word) : (s.writeFloat i v).regs = s.regs.set i ⟨v, .float, []⟩ := rfl
@[simp] theorem State.writeFloat_flags (i : RegIdx) (v : Word) : (s.writeFloat i v).flags = s.flags := rfl
@[simp] theorem State.writeFloat_gflags (i : RegIdx) (v : Word) : (s.writeFloat i v).gflags = s.gflags := rfl
@[simp] theorem State.writeFloat_pc (i : RegIdx) (v : Word) : (s.writeFloat i v).pc = s.pc := rfl
@[simp] theorem State.writeFloat_running (i : RegIdx) (v : Word) : (s.writeFloat i v).running = s.running := rfl
@[simp] theorem State.writeFloat_stop (i : RegIdx) (v : Word) : (s.writeFloat i v).stop = s.stop := rfl
@[simp] theorem State.writeFloat_programLength (i : RegIdx) (v : Word) : (s.writeFloat i v).programLength = s.programLength := rfl
@[simp] theorem State.writeFloat_callStack (i : RegIdx) (v : Word) : (s.writeFloat i v).callStack = s.callStack := rfl
@[simp] theorem State.writeFloat_operandStack (i : RegIdx) (v : Word) : (s.writeFloat i v).operandStack = s.operandStack := rfl
@[simp] theorem State.writeFloat_dl (i : RegIdx) (v : Word) : (s.writeFloat i v).dl = s.dl := rfl
@[simp] theorem State.writeFloat_vcur (i : RegIdx) (v : Word) : (s.writeFloat i v).vcur = s.vcur := rfl
@[simp] theorem State.writeFloat_mem (i : RegIdx) (v : Word) : (s.writeFloat i v).mem = s.mem := rfl
@[simp] theorem State.writeFloat_renderCalls (i : RegIdx) (v : Word) : (s.writeFloat i v).renderCalls = s.renderCalls := rfl
@[simp] theorem State.writeFloat_log (i : RegIdx) (v : Word) : (s.writeFloat i v).log = s.log := rfl
@[simp] theorem State.writeFloat_randDraws (i : RegIdx) (v : Word) : (s.writeFloat i v).randDraws = s.randDraws := rfl
@[simp] theorem State.writeFloat_tickDraws (i : RegIdx) (v : Word) : (s.writeFloat i v).tickDraws = s.tickDraws := rfl

/-! ### writeModel -/

@[simp] theorem State.writeModel_regs (i : RegIdx) (n : Bytes) : (s.writeModel i n).regs = s.regs.set i ⟨0, .model, n⟩ := rfl
@[simp] theorem State.writeModel_flags (i : RegIdx) (n : Bytes) : (s.writeModel i n).flags = s.flags := rfl
@[simp] theorem State.writeModel_gflags (i : RegIdx) (n : Bytes) : (s.writeModel i n).gflags = s.gflags := rfl
@[simp] theorem State.writeModel_pc (i : RegIdx) (n : Bytes) : (s.writeModel i n).pc = s.pc := rfl
@[simp] theorem State.writeModel_running (i : RegIdx) (n : Bytes) : (s.writeModel i n).running = s.running := rfl
@[simp] theorem State.writeModel_stop (i : RegIdx) (n : Bytes) : (s.writeModel i n).stop = s.stop := rfl
@[simp] theorem State.writeModel_programLength (i : RegIdx) (n : Bytes) : (s.writeModel i n).programLength = s.programLength := rfl
@[simp] theorem State.writeModel_callStack (i : RegIdx) (n : Bytes) : (s.writeModel i n).callStack = s.callStack := rfl
@[simp] theorem State.writeModel_operandStack (i : RegIdx) (n : Bytes) : (s.writeModel i n).operandStack = s.operandStack := rfl
@[simp] theorem State.writeModel_dl (i : RegIdx) (n : Bytes) : (s.writeModel i n).dl = s.dl := rfl
@[simp] theorem State.writeModel_vcur (i : RegIdx) (n : Bytes) : (s.writeModel i n).vcur = s.vcur := rfl
@[simp] theorem State.writeModel_mem (i : RegIdx) (n : Bytes) : (s.writeModel i n).mem = s.mem := rfl
@[simp] theorem State.writeModel_renderCalls (i : RegIdx) (n : Bytes) : (s.writeModel i n).renderCalls = s.renderCalls := rfl
@[simp] theorem State.writeModel_log (i : RegIdx) (n : Bytes) : (s.writeModel i n).log = s.log := rfl
@[simp] theorem State.writeModel_randDraws (i : RegIdx) (n : Bytes) : (s.writeModel i n).randDraws = s.randDraws := rfl
@[simp] theorem State.writeModel_tickDraws (i : RegIdx) (n : Bytes) : (s.writeModel i n).tickDraws = s.tickDraws := rfl

/-! ### setFlag -/

@[simp] theorem State.setFlag_regs (f : Flag) (b : Bool) : (s.setFlag f b).regs = s.regs := rfl
@[simp] theorem State.setFlag_flags (f : Flag) (b : Bool) : (s.setFlag f b).flags = withFlag s.flags f b := rfl
@[simp] theorem State.setFlag_gflags (f : Flag) (b : Bool) : (s.setFlag f b).gflags = s.gflags := rfl
@[simp] theorem State.setFlag_pc (f : Flag) (b : Bool) : (s.setFlag f b).pc = s.pc := rfl
@[simp] theorem State.setFlag_running (f : Flag) (b : Bool) : (s.setFlag f b).running = s.running := rfl
@[simp] theorem State.setFlag_stop (f : Flag) (b : Bool) : (s.setFlag f b).stop = s.stop := rfl
@[simp] theorem State.setFlag_programLength (f : Flag) (b : Bool) : (s.setFlag f b).programLength = s.programLength := rfl
@[simp] theorem State.setFlag_callStack (f : Flag) (b : Bool) : (s.setFlag f b).callStack = s.callStack := rfl
@[simp] theorem State.setFlag_operandStack (f : Flag) (b : Bool) : (s.setFlag f b).operandStack = s.operandStack := rfl
@[simp] theorem State.setFlag_dl (f : Flag) (b : Bool) : (s.setFlag f b).dl = s.dl := rfl
@[simp] theorem State.setFlag_vcur (f : Flag) (b : Bool) : (s.setFlag f b).vcur = s.vcur := rfl
@[simp] theorem State.setFlag_mem (f : Flag) (b : Bool) : (s.setFlag f b).mem = s.mem := rfl
@[simp] theorem State.setFlag_renderCalls (f : Flag) (b : Bool) : (s.setFlag f b).renderCalls = s.renderCalls := rfl
@[simp] theorem State.setFlag_log (f : Flag) (b : Bool) : (s.setFlag f b).log = s.log := rfl
@[simp] theorem State.setFlag_randDraws (f : Flag) (b : Bool) : (s.setFlag f b).randDraws = s.randDraws := rfl
@[simp] theorem State.setFlag_tickDraws (f : Flag) (b : Bool) : (s.setFlag f b).tickDraws = s.tickDraws := rfl
@[simp] theorem State.setFlag_cell (f : Flag) (b : Bool) (j : RegIdx) : (s.setFlag f b).cell j = s.cell j := rfl

/-! ### drawRand -/

@[simp] theorem State.drawRand_regs : (s.drawRand.2).regs = s.regs := rfl
@[simp] theorem State.drawRand_flags : (s.drawRand.2).flags = s.flags := rfl
@[simp] theorem State.drawRand_gflags : (s.drawRand.2).gflags = s.gflags := rfl
@[simp] theorem State.drawRand_pc : (s.drawRand.2).pc = s.pc := rfl
@[simp] theorem State.drawRand_running : (s.drawRand.2).running = s.running := rfl
@[simp] theorem State.drawRand_stop : (s.drawRand.2).stop = s.stop := rfl
@[simp] theorem State.drawRand_programLength : (s.drawRand.2).programLength = s.programLength := rfl
@[simp] theorem State.drawRand_callStack : (s.drawRand.2).callStack = s.callStack := rfl
@[simp] theorem State.drawRand_operandStack : (s.drawRand.2).operandStack = s.operandStack := rfl
@[simp] theorem State.drawRand_dl : (s.drawRand.2).dl = s.dl := rfl
@[simp] theorem State.drawRand_vcur : (s.drawRand.2).vcur = s.vcur := rfl
@[simp] theorem State.drawRand_mem : (s.drawRand.2).mem = s.mem := rfl
@[simp] theorem State.drawRand_renderCalls : (s.drawRand.2).renderCalls = s.renderCalls := rfl
@[simp] theorem State.drawRand_log : (s.drawRand.2).log = s.log := rfl
@[simp] theorem State.drawRand_randDraws : (s.drawRand.2).randDraws = s.randDraws + 1 := rfl
@[simp] theorem State.drawRand_tickDraws : (s.drawRand.2).tickDraws = s.tickDraws := rfl
@[simp] theorem State.drawRand_cell (j : RegIdx) : (s.drawRand.2).cell j = s.cell j := rfl

/-! ### drawTick -/

@[simp] theorem State.drawTick_regs : (s.drawTick.2).regs = s.regs := rfl
@[simp] theorem State.drawTick_flags : (s.drawTick.2).flags = s.flags := rfl
@[simp] theorem State.drawTick_gflags : (s.drawTick.2).gflags = s.gflags := rfl
@[simp] theorem State.drawTick_pc : (s.drawTick.2).pc = s.pc := rfl
@[simp] theorem State.drawTick_running : (s.drawTick.2).running = s.running := rfl
@[simp] theorem State.drawTick_stop : (s.drawTick.2).stop = s.stop := rfl
@[simp] theorem State.drawTick_programLength : (s.drawTick.2).programLength = s.programLength := rfl
@[simp] theorem State.drawTick_callStack : (s.drawTick.2).callStack = s.callStack := rfl
@[simp] theorem State.drawTick_operandStack : (s.drawTick.2).operandStack = s.operandStack := rfl
@[simp] theorem State.drawTick_dl : (s.drawTick.2).dl = s.dl := rfl
@[simp] theorem State.drawTick_vcur : (s.drawTick.2).vcur = s.vcur := rfl
@[simp] theorem State.drawTick_mem : (s.drawTick.2).mem = s.mem := rfl
@[simp] theorem State.drawTick_renderCalls : (s.drawTick.2).renderCalls = s.renderCalls := rfl
@[simp] theorem State.drawTick_log : (s.drawTick.2).log = s.log := rfl
@[simp] theorem State.drawTick_randDraws : (s.drawTick.2).randDraws = s.randDraws := rfl
@[simp] theorem State.drawTick_tickDraws : (s.drawTick.2).tickDraws = s.tickDraws + 1 := rfl
@[simp] theorem State.drawTick_cell (j : RegIdx) : (s.drawTick.2).cell j = s.cell j := rfl

/-! ### emit -/

@[simp] theorem State.emit_regs (c : RenderCall) : (s.emit c).regs = s.regs := rfl
@[simp] theorem State.emit_flags (c : RenderCall) : (s.emit c).flags = s.flags := rfl
@[simp] theorem State.emit_gflags (c : RenderCall) : (s.emit c).gflags = s.gflags := rfl
@[simp] theorem State.emit_pc (c : RenderCall) : (s.emit c).pc = s.pc := rfl
@[simp] theorem State.emit_running (c : RenderCall) : (s.emit c).running = s.running := rfl
@[simp] theorem State.emit_stop (c : RenderCall) : (s.emit c).stop = s.stop := rfl
@[simp] theorem State.emit_programLength (c : RenderCall) : (s.emit c).programLength = s.programLength := rfl
@[simp] theorem State.emit_callStack (c : RenderCall) : (s.emit c).callStack = s.callStack := rfl
@[simp] theorem State.emit_operandStack (c : RenderCall) : (s.emit c).operandStack = s.operandStack := rfl
@[simp] theorem State.emit_dl (c : RenderCall) : (s.emit c).dl = s.dl := rfl
@[simp] theorem State.emit_vcur (c : RenderCall) : (s.emit c).vcur = s.vcur := rfl
@[simp] theorem State.emit_mem (c : RenderCall) : (s.emit c).mem = s.mem := rfl
@[simp] theorem State.emit_renderCalls (c : RenderCall) : (s.emit c).renderCalls = s.renderCalls ++ [c] := rfl
@[simp] theorem State.emit_log (c : RenderCall) : (s.emit c).log = s.log := rfl
@[simp] theorem State.emit_randDraws (c : RenderCall) : (s.emit c).randDraws = s.randDraws := rfl
@[simp] theorem State.emit_tickDraws (c : RenderCall) : (s.emit c).tickDraws = s.tickDraws := rfl
@[simp] theorem State.emit_cell (c : RenderCall) (j : RegIdx) : (s.emit c).cell j = s.cell j := rfl

/-! ### Register cells -/

@[simp] theorem State.cpuReset_cell (j : RegIdx) : s.cpuReset.cell j = ⟨0, .integer, []⟩ := by
  simp [State.cell, RegCell.reset]

theorem State.setCell_cell (i : RegIdx) (c : RegCell) (j : RegIdx) :
    (s.setCell i c).cell j = if j = i then c else s.cell j := by
  simp only [State.cell, State.setCell]
  by_cases h : j = i
  · subst h; simp
  · have : (i : Nat) ≠ (j : Nat) := fun e => h (Fin.ext e.symm)
    simp [h, this]

@[simp] theorem State.writeInt_cell (i : RegIdx) (v : Word) (j : RegIdx) :
    (s.writeInt i v).cell j = if j = i then ⟨v, .integer, []⟩ else s.cell j := s.setCell_cell i _ j

@[simp] theorem State.writeFloat_cell (i : RegIdx) (v : Word) (j : RegIdx) :
    (s.writeFloat i v).cell j = if j = i then ⟨v, .float, []⟩ else s.cell j := s.setCell_cell i _ j

@[simp] theorem State.writeModel_cell (i : RegIdx) (n : Bytes) (j : RegIdx) :
    (s.writeModel i n).cell j = if j = i then ⟨0, .model, n⟩ else s.cell j := s.setCell_cell i _ j

@[simp] theorem State.withFlags_cell (w : Word) (j : RegIdx) : ({ s with flags := w } : State).cell j = s.cell j := rfl

@[simp] theorem State.withMem_cell (m : Memory) (j : RegIdx) : ({ s with mem := m } : State).cell j = s.cell j := rfl

@[simp] theorem State.withCallStack_cell (l : List Word) (j : RegIdx) :
    ({ s with callStack := l } : State).cell j = s.cell j := rfl

@[simp] theorem State.withOperandStack_cell (l : List Word) (j : RegIdx) :
    ({ s with operandStack := l } : State).cell j = s.cell j := rfl

@[simp] theorem State.withDl_cell (d : DlManager) (j : RegIdx) : ({ s with dl := d } : State).cell j = s.cell j := rfl

@[simp] theorem State.withVideo_cell (m : Memory) (v : Word) (j : RegIdx) :
    ({ s with mem := m, vcur := v } : State).cell j = s.cell j := rfl

end Sys2Proof.Machine
end

