-- ==== Sys2Proof/Laws/Memory.lean ====
section
/-! SUPPORT. What the memory operations do: which byte each address reads as afterwards, and that the canonical form of
the listings is kept. -/

namespace Sys2Proof.Machine

/-! ### Reading a listing -/

theorem lookupByte_append (l m : List Host.Cell) (x : Nat) :
    lookupByte (l ++ m) x = if x ∈ l.map (·.1) then lookupByte l x else lookupByte m x := by
  induction l with
  | nil => simp
  | cons c l ih =>
    obtain ⟨a, v⟩ := c
    by_cases h : a = x
    · simp [lookupByte, h]
    · have h' : x ≠ a := fun e => h e.symm
      simp [lookupByte, h, h', ih]

theorem lookupByte_of_not_mem (l : List Host.Cell) (x : Nat) (h : x ∉ l.map (·.1)) : lookupByte l x = unlistedByte := by
  induction l with
  | nil => rfl
  | cons c l ih =>
    obtain ⟨a, v⟩ := c
    simp only [List.map_cons, List.mem_cons, not_or] at h
    rw [lookupByte, if_neg (fun e => h.1 e.symm), ih h.2]

theorem lookupByte_filter (p : Nat → Bool) (l : List Host.Cell) (x : Nat) :
    lookupByte (l.filter fun c => p c.1) x = if p x then lookupByte l x else unlistedByte := by
  induction l with
  | nil => simp [lookupByte]
  | cons c l ih =>
    obtain ⟨a, v⟩ := c
    by_cases h : a = x
    · subst h; cases hp : p a <;> simp [hp, lookupByte, ih]
    · cases hp : p a <;> simp [hp, lookupByte, h, ih]

theorem blockListing_keys (a : Nat) (vs : Bytes) (c : Host.Cell) (h : c ∈ blockListing a vs) :
    a ≤ c.1 ∧ c.1 < a + vs.length ∧ c.2 ≠ unlistedByte := by
  induction vs generalizing a with
  | nil => simp [blockListing] at h
  | cons v vs ih =>
    rw [blockListing] at h
    simp only [List.length_cons]
    split at h
    · have := ih _ h; exact ⟨by omega, by omega, this.2.2⟩
    · rename_i hv
      rcases List.mem_cons.1 h with rfl | h
      · exact ⟨Nat.le_refl _, by simp, hv⟩
      · have := ih _ h; exact ⟨by omega, by omega, this.2.2⟩

theorem lookupByte_blockListing (a : Nat) (vs : Bytes) (x : Nat) :
    lookupByte (blockListing a vs) x = if h : a ≤ x ∧ x < a + vs.length then vs[x - a] else unlistedByte := by
  induction vs generalizing a with
  | nil =>
    have : ¬ (a ≤ x ∧ x < a + ([] : Bytes).length) := by simp
    simp [blockListing, lookupByte]
  | cons v vs ih =>
    by_cases hx : a = x
    · subst hx
      by_cases hv : v = unlistedByte
      · rw [blockListing, if_pos hv, ih]
        simp [hv]
      · simp [blockListing, hv, lookupByte]
    · have key : lookupByte (blockListing a (v :: vs)) x = lookupByte (blockListing (a + 1) vs) x := by
        rw [blockListing]; split
        · rfl
        · rw [lookupByte, if_neg hx]
      rw [key, ih]
      by_cases h : a + 1 ≤ x ∧ x < a + 1 + vs.length
      · have h2 : a ≤ x ∧ x < a + (v :: vs).length := by simp only [List.length_cons]; omega
        obtain ⟨k, rfl⟩ : ∃ k, x = a + 1 + k := ⟨x - (a + 1), by omega⟩
        rw [dif_pos h, dif_pos h2]
        simp [show a + 1 + k - a = k + 1 by omega]
      · have h2 : ¬ (a ≤ x ∧ x < a + (v :: vs).length) := by simp only [List.length_cons]; omega
        rw [dif_neg h, dif_neg h2]

/-- Storing a block: the block's addresses read as the block, every other address as before. -/
theorem lookupByte_storeBytes (l : List Host.Cell) (a : Nat) (vs : Bytes) (x : Nat) :
    lookupByte (storeBytes l a vs) x = if h : a ≤ x ∧ x < a + vs.length then vs[x - a] else lookupByte l x := by
  have hlow := lookupByte_filter (fun k => decide (k < a)) l x
  have hhigh := lookupByte_filter (fun k => decide (a + vs.length ≤ k)) l x
  simp only [decide_eq_true_eq] at hlow hhigh
  rw [storeBytes, lookupByte_append]
  by_cases hm : x ∈ (l.filter fun c => decide (c.1 < a)).map (·.1)
  · rw [if_pos hm, hlow]
    simp only [List.mem_map, List.mem_filter, decide_eq_true_eq] at hm
    obtain ⟨c, ⟨-, hc⟩, rfl⟩ := hm
    rw [if_pos hc, dif_neg (by omega)]
  · rw [if_neg hm, lookupByte_append]
    by_cases hb : x ∈ (blockListing a vs).map (·.1)
    · rw [if_pos hb, lookupByte_blockListing]
      obtain ⟨c, hc, rfl⟩ := List.mem_map.1 hb
      have := blockListing_keys a vs c hc
      rw [dif_pos ⟨this.1, this.2.1⟩, dif_pos ⟨this.1, this.2.1⟩]
    · rw [if_neg hb, hhigh]
      by_cases hin : a ≤ x ∧ x < a + vs.length
      · have hz := lookupByte_of_not_mem _ _ hb
        rw [lookupByte_blockListing, dif_pos hin] at hz
        rw [if_neg (by omega), dif_pos hin, hz]
      · rw [dif_neg hin]
        split
        · rfl
        · have hx : x < a := by omega
          rw [if_pos hx] at hlow
          rw [← hlow, lookupByte_of_not_mem _ _ hm]

/-! ### The canonical form -/

theorem listingWf_iff (lo size : Nat) (l : List Host.Cell) :
    listingWf lo size l = true ↔
      l.Pairwise (fun c d => c.1 < d.1) ∧ ∀ c ∈ l, lo ≤ c.1 ∧ c.1 < size ∧ c.2 ≠ unlistedByte := by
  induction l generalizing lo with
  | nil => simp [listingWf]
  | cons c l ih =>
    obtain ⟨a, v⟩ := c
    simp only [listingWf, Bool.and_eq_true, decide_eq_true_eq, ih, List.pairwise_cons, List.forall_mem_cons]
    constructor
    · rintro ⟨⟨⟨h1, h2⟩, h3⟩, hp, hr⟩
      exact ⟨⟨fun d hd => by have := hr d hd; omega, hp⟩, ⟨h1, h2, h3⟩, fun d hd => by
        have := hr d hd; exact ⟨by omega, this.2⟩⟩
    · rintro ⟨⟨hlt, hp⟩, ⟨h1, h2, h3⟩, hr⟩
      exact ⟨⟨⟨h1, h2⟩, h3⟩, hp, fun d hd => ⟨hlt d hd, (hr d hd).2⟩⟩

theorem blockListing_rises (a : Nat) (vs : Bytes) : (blockListing a vs).Pairwise fun c d => c.1 < d.1 := by
  induction vs generalizing a with
  | nil => simp [blockListing]
  | cons v vs ih =>
    rw [blockListing]; split
    · exact ih _
    · refine List.pairwise_cons.2 ⟨fun d hd => ?_, ih _⟩
      have := blockListing_keys _ _ _ hd
      simp only; omega

/-- Storing a block inside the domain keeps the canonical form. -/
theorem storeBytes_wf (size : Nat) (l : List Host.Cell) (a : Nat) (vs : Bytes)
    (hl : listingWf 0 size l = true) (ha : a + vs.length ≤ size) : listingWf 0 size (storeBytes l a vs) = true := by
  rw [listingWf_iff] at hl ⊢
  obtain ⟨hp, hr⟩ := hl
  have hlow : ∀ c ∈ l.filter (fun c => decide (c.1 < a)), c ∈ l ∧ c.1 < a := by simp
  have hhigh : ∀ c ∈ l.filter (fun c => decide (a + vs.length ≤ c.1)), c ∈ l ∧ a + vs.length ≤ c.1 := by simp
  refine ⟨?_, fun c hc => ?_⟩
  · rw [storeBytes, List.pairwise_append, List.pairwise_append]
    refine ⟨hp.filter _, ⟨blockListing_rises a vs, hp.filter _, fun c hc d hd => ?_⟩, fun c hc d hd => ?_⟩
    · have h1 := blockListing_keys a vs c hc; have h2 := hhigh d hd; omega
    · have h1 := hlow c hc
      rcases List.mem_append.1 hd with hd | hd
      · have h2 := blockListing_keys a vs d hd; omega
      · have h2 := hhigh d hd; omega
  · rw [storeBytes, List.mem_append, List.mem_append] at hc
    rcases hc with hc | hc | hc
    · exact hr c (hlow c hc).1
    · have := blockListing_keys a vs c hc; exact ⟨by omega, by omega, this.2.2⟩
    · exact hr c (hhigh c hc).1

/-- The bytes of a listing in canonical form decide the listing. -/
theorem listing_ext (size : Nat) (l m : List Host.Cell) (hl : listingWf 0 size l = true) (hm : listingWf 0 size m = true)
    (h : ∀ x, lookupByte l x = lookupByte m x) : l = m := by
  have mem_iff : ∀ k : List Host.Cell, listingWf 0 size k = true → ∀ c : Host.Cell,
      c ∈ k ↔ lookupByte k c.1 = c.2 ∧ c.2 ≠ unlistedByte := by
    intro k hk c
    rw [listingWf_iff] at hk
    obtain ⟨hp, hr⟩ := hk
    induction k with
    | nil => simp only [List.not_mem_nil, lookupByte, false_iff]; rintro ⟨h1, h2⟩; exact h2 h1.symm
    | cons e k ih =>
      obtain ⟨a, v⟩ := e
      rw [List.pairwise_cons] at hp
      rw [List.forall_mem_cons] at hr
      have ih := ih hp.2 hr.2
      rw [List.mem_cons, ih, lookupByte]
      by_cases hac : a = c.1
      · have hno : c.1 ∉ k.map (·.1) := by
          intro hin
          obtain ⟨d, hd, hdc⟩ := List.mem_map.1 hin
          have := hp.1 d hd; simp only at this; omega
        rw [if_pos hac, lookupByte_of_not_mem _ _ hno]
        constructor
        · rintro (rfl | ⟨h1, h2⟩)
          · exact ⟨rfl, hr.1.2.2⟩
          · exact absurd h1.symm h2
        · rintro ⟨h1, -⟩; left; exact Prod.ext hac.symm h1.symm
      · rw [if_neg hac]
        constructor
        · rintro (rfl | h); exact absurd rfl hac; exact h
        · exact Or.inr
  have hp := ((listingWf_iff _ _ _).1 hl).1
  have hq := ((listingWf_iff _ _ _).1 hm).1
  refine hp.eq_of_mem_iff (r := fun c d : Host.Cell => c.1 < d.1) hq fun c => ?_
  rw [mem_iff l hl, mem_iff m hm, h]

/-! ### The seven domains -/

@[simp] theorem Memory.withBytes_bytes (m : Memory) (d : Domain) (l : List Host.Cell) (e : Domain) :
    (m.withBytes d l).bytes e = if e = d then l else m.bytes e := by
  cases d <;> cases e <;> simp [Memory.withBytes, Memory.bytes]

theorem Memory.wf_iff (m : Memory) : m.wf = true ↔ ∀ d, listingWf 0 (Domain.size d) (m.bytes d) = true := by
  simp only [Memory.wf, Bool.and_eq_true]
  constructor
  · rintro ⟨⟨⟨⟨⟨⟨h1, h2⟩, h3⟩, h4⟩, h5⟩, h6⟩, h7⟩ d
    cases d <;> assumption
  · intro h
    exact ⟨⟨⟨⟨⟨⟨h .code, h .video⟩, h .audio⟩, h .rom⟩, h .io⟩, h .cache⟩, h .scratch⟩

/-- A store: the stored addresses of its domain read as the stored bytes, and every other byte as before. -/
theorem Memory.store_byte (m : Memory) (d : Domain) (a : Nat) (vs : Bytes) (e : Domain) (x : Nat) :
    (m.store d a vs).byte e x =
      if h : e = d ∧ a ≤ x ∧ x < a + vs.length then vs[x - a] else m.byte e x := by
  simp only [Memory.byte, Memory.store, Memory.withBytes_bytes]
  by_cases he : e = d
  · subst he; simp [lookupByte_storeBytes]
  · simp [he]

theorem Memory.store_byte_other (m : Memory) (d : Domain) (a : Nat) (vs : Bytes) (e : Domain) (x : Nat)
    (h : ¬ (e = d ∧ a ≤ x ∧ x < a + vs.length)) : (m.store d a vs).byte e x = m.byte e x := by
  rw [Memory.store_byte, dif_neg h]

theorem Memory.store_byte_at (m : Memory) (d : Domain) (a : Nat) (vs : Bytes) (k : Nat) (h : k < vs.length) :
    (m.store d a vs).byte d (a + k) = vs[k] := by
  rw [Memory.store_byte, dif_pos ⟨rfl, by omega, by omega⟩]
  simp

/-- A store inside its domain keeps the canonical form. -/
theorem Memory.store_wf (m : Memory) (d : Domain) (a : Nat) (vs : Bytes) (hm : m.wf = true)
    (ha : a + vs.length ≤ d.size) : (m.store d a vs).wf = true := by
  rw [Memory.wf_iff] at hm ⊢
  intro e
  rw [Memory.store, Memory.withBytes_bytes]
  split
  · rename_i he; subst he; exact storeBytes_wf _ _ _ _ (hm e) ha
  · exact hm e

theorem inRange_iff (d : Domain) (a : Int) (n : Nat) : inRange d a n = true ↔ 0 ≤ a ∧ a + n ≤ d.size := by
  simp [inRange]

/-- Everything a checked write can do. -/
theorem Memory.write_cases (m m' : Memory) (d : Domain) (a : Int) (vs : Bytes) :
    m.write d a vs = some m' ↔
      0 ≤ a ∧ a + vs.length ≤ d.size ∧ m' = if d = .rom then m else m.store d a.toNat vs := by
  simp only [Memory.write]
  split
  · rename_i h
    rw [inRange_iff] at h
    simp [h, eq_comm]
  · rename_i h
    rw [inRange_iff] at h
    simp only [reduceCtorEq, false_iff]
    rintro ⟨h1, h2, -⟩; exact h ⟨h1, h2⟩

theorem Memory.write_none (m : Memory) (d : Domain) (a : Int) (vs : Bytes) :
    m.write d a vs = none ↔ ¬ (0 ≤ a ∧ a + vs.length ≤ d.size) := by
  rw [← inRange_iff]; simp [Memory.write]

/-- A checked write keeps the canonical form. -/
theorem Memory.write_wf (m m' : Memory) (d : Domain) (a : Int) (vs : Bytes) (hm : m.wf = true)
    (h : m.write d a vs = some m') : m'.wf = true := by
  obtain ⟨h0, h1, rfl⟩ := (Memory.write_cases ..).1 h
  split
  · exact hm
  · exact Memory.store_wf m d _ vs hm (by omega)

/-- Everything a checked read can do. -/
theorem Memory.read_cases (m : Memory) (d : Domain) (a : Int) (n : Nat) :
    m.read d a n = if 0 ≤ a ∧ a + n ≤ d.size then some (m.span d a.toNat n) else none := by
  simp only [Memory.read, ← inRange_iff]

theorem Memory.read32_cases (m : Memory) (d : Domain) (a : Int) :
    m.read32 d a =
      if 0 ≤ a ∧ a + 4 ≤ d.size then
        some (m.byte d (a.toNat + 3) ++ m.byte d (a.toNat + 2) ++ m.byte d (a.toNat + 1) ++ m.byte d a.toNat)
      else none := by
  have h := inRange_iff d a 4
  simp only [Memory.read32, ofLe32]
  by_cases hr : inRange d a 4 = true
  · rw [if_pos hr, if_pos (by simpa using h.1 hr)]
  · rw [if_neg hr, if_neg (fun e => hr (h.2 (by simpa using e)))]

@[simp] theorem Memory.span_length (m : Memory) (d : Domain) (a n : Nat) : (m.span d a n).length = n := by
  simp [Memory.span]

theorem Memory.span_getElem (m : Memory) (d : Domain) (a n k : Nat) (h : k < (m.span d a n).length) :
    (m.span d a n)[k] = m.byte d (a + k) := by
  simp [Memory.span]

/-- The memory reset port keeps the canonical form. -/
theorem State.memReset_wf (s : State) (h : s.mem.wf = true) : s.memReset.mem.wf = true := by
  rw [Memory.wf_iff] at h ⊢
  intro d
  have := h .rom
  cases d <;> simp_all [Memory.bytes, listingWf]

/-- The memory of the reset state is in canonical form. -/
theorem State.reset_mem_wf : State.reset.mem.wf = true := by decide

end Sys2Proof.Machine
end

