-- ==== Sys2Proof/Laws/Operands.lean ====
section
/-! SUPPORT. What the shared operations of the meanings can do: one lemma each, which says all of it. The `_cases` lemmas
serve goals of any form about the state an operation answers. -/

namespace Sys2Proof.Machine

/-! ### Operands -/

theorem tagPolicy_cases (p : Config.TagPolicy) : p = .reinterpret ∨ p = .fault := by cases p <;> simp

theorem State.readBits_eq (s : State) (tag : Tag) (c : RegIdx) :
    s.readBits tag c = if readable s tag c then some (s.cell c).bits else none := by
  simp only [State.readBits, readable]
  by_cases ht : (s.cell c).tag = tag
  · simp [ht]
  · rcases tagPolicy_cases Config.tagPolicy with h | h <;> simp [ht, h]

theorem State.readModel_eq (s : State) (c : RegIdx) :
    s.readModel c =
      if (s.cell c).tag = .model then .name (s.cell c).name
      else if Config.tagPolicy = .reinterpret then .noModel else .mismatch := by
  simp only [State.readModel]
  rcases tagPolicy_cases Config.tagPolicy with h | h <;> simp [h]

theorem withReg_of_lt (i : Instr) (r : Byte) (s : State) (k : RegIdx → State) (h : r.toNat < 64) :
    withReg i r s k = k ⟨r.toNat, h⟩ := dif_pos h

theorem withReg_of_ge (i : Instr) (r : Byte) (s : State) (k : RegIdx → State) (h : ¬ r.toNat < 64) :
    withReg i r s k = s.skip .badRegister i := dif_neg h

theorem withReg_cases {P : State → Prop} {i : Instr} {r : Byte} {s : State} {k : RegIdx → State}
    (hskip : 64 ≤ r.toNat → P (s.skip .badRegister i)) (hk : ∀ h : r.toNat < 64, P (k ⟨r.toNat, h⟩)) :
    P (withReg i r s k) := by
  by_cases h : r.toNat < 64
  · rw [withReg_of_lt _ _ _ _ h]; exact hk h
  · rw [withReg_of_ge _ _ _ _ h]; exact hskip (by omega)

theorem withBits_eq (tag : Tag) (c : RegIdx) (s : State) (k : Word → State) :
    withBits tag c s k = if readable s tag c then k (s.cell c).bits else s.raise .tagMismatch := by
  simp only [withBits, State.readBits_eq]
  cases readable s tag c <;> rfl

theorem withInt_eq (c : RegIdx) (s : State) (k : Word → State) :
    withInt c s k = if readable s .integer c then k (s.cell c).bits else s.raise .tagMismatch := withBits_eq ..

theorem withFloat_eq (c : RegIdx) (s : State) (k : Word → State) :
    withFloat c s k = if readable s .float c then k (s.cell c).bits else s.raise .tagMismatch := withBits_eq ..

theorem withBits_cases {P : State → Prop} {tag : Tag} {c : RegIdx} {s : State} {k : Word → State}
    (hfault : P (s.raise .tagMismatch)) (hk : P (k (s.cell c).bits)) : P (withBits tag c s k) := by
  rw [withBits_eq]; split <;> assumption

/-- The operands of format M: a kind byte of 2 or more, a bad register, an unreadable offset register, or an offset. -/
theorem withEa_cases {P : State → Prop} {i : Instr} {dom kind : Byte} {off : Word} {r : Byte} {s : State}
    {k : Option Domain → Int → RegIdx → State}
    (hkind : P (s.skip .badOffsetKind i)) (hreg : P (s.skip .badRegister i)) (hfault : P (s.raise .tagMismatch))
    (hk : ∀ a c, P (k (Domain.ofNumber dom) a c)) : P (withEa i dom kind off r s k) := by
  unfold withEa
  split
  · exact withReg_cases (fun _ => hreg) fun _ => hk _ _
  · exact withReg_cases (fun _ => hreg) fun _ => withReg_cases (fun _ => hreg) fun _ =>
      withBits_cases hfault (hk _ _)
  · exact hkind

/-! ### Commits -/

theorem commitInt_cases {P : State → Prop} {i : Instr} {c : RegIdx} {res : Option Word} {s : State}
    (hzero : res = none → P ((s.addLog (.divByZero s.pc)).advance i.len))
    (hres : ∀ v, res = some v → P ((({ s with flags := flagsOfResult s.flags v } : State).writeInt c v).advance i.len)) :
    P (commitInt i c res s) := by
  cases res with
  | none => exact hzero rfl
  | some v => exact hres v rfl

/-- Everything a two-register integer form can do. -/
theorem intRegReg_cases {P : State → Prop} {i : Instr} {op : Word → Word → Option Word} {ra rb : Byte} {s : State}
    (hskip : P (s.skip .badRegister i)) (hfault : P (s.raise .tagMismatch))
    (hzero : P ((s.addLog (.divByZero s.pc)).advance i.len))
    (hres : ∀ c v, P ((({ s with flags := flagsOfResult s.flags v } : State).writeInt c v).advance i.len)) :
    P (intRegReg i op ra rb s) :=
  withReg_cases (fun _ => hskip) fun _ => withReg_cases (fun _ => hskip) fun _ =>
    withBits_cases hfault (withBits_cases hfault (commitInt_cases (fun _ => hzero) fun v _ => hres _ v))

/-- Everything an immediate integer form can do. -/
theorem intRegImm_cases {P : State → Prop} {i : Instr} {op : Word → Word → Option Word} {r : Byte} {imm : Word} {s : State}
    (hskip : P (s.skip .badRegister i)) (hfault : P (s.raise .tagMismatch))
    (hzero : P ((s.addLog (.divByZero s.pc)).advance i.len))
    (hres : ∀ c v, P ((({ s with flags := flagsOfResult s.flags v } : State).writeInt c v).advance i.len)) :
    P (intRegImm i op r imm s) :=
  withReg_cases (fun _ => hskip) fun _ =>
    withBits_cases hfault (commitInt_cases (fun _ => hzero) fun v _ => hres _ v)

/-- Everything FADD, FSUB and FMUL can do. -/
theorem floatRegReg_cases {P : State → Prop} {i : Instr} {op : Config.FloatOp} {f : Word → Word → Option Word}
    {ra rb : Byte} {s : State} (hskip : P (s.skip .badRegister i)) (hfault : P (s.raise .tagMismatch))
    (hres : ∀ c v, P ((s.writeFloat c v).advance i.len)) : P (floatRegReg i op f ra rb s) :=
  withReg_cases (fun _ => hskip) fun _ => withReg_cases (fun _ => hskip) fun _ =>
    withBits_cases hfault (withBits_cases hfault (hres _ _))

/-- Everything FDIV and FMOD can do. -/
theorem floatDivide_cases {P : State → Prop} {i : Instr} {op : Config.FloatOp} {f : Word → Word → Option Word}
    {ra rb : Byte} {s : State} (hskip : P (s.skip .badRegister i)) (hfault : P (s.raise .tagMismatch))
    (hzero : P ((s.addLog (.divByZero s.pc)).advance i.len))
    (hres : ∀ c v, P ((s.writeFloat c v).advance i.len)) : P (floatDivide i op f ra rb s) := by
  refine withReg_cases (fun _ => hskip) fun _ => withReg_cases (fun _ => hskip) fun _ =>
    withBits_cases hfault (withBits_cases hfault ?_)
  split
  · exact hzero
  · exact hres _ _

/-! ### Transfers and stacks -/

theorem transfer_eq (t : Word) (s : State) :
    transfer t s = if t.toNat < s.programLength.toNat then s.jump t else s.halt .badTarget := by
  simp [transfer, validTarget]

theorem jumpIf_cases {P : State → Prop} {taken : Bool} {i : Instr} {t : Word} {s : State}
    (hjump : t.toNat < s.programLength.toNat → P (s.jump t)) (hhalt : P (s.halt .badTarget))
    (hpass : P (s.advance i.len)) : P (jumpIf taken i t s) := by
  simp only [jumpIf, transfer_eq]
  split
  · split
    · exact hjump ‹_›
    · exact hhalt
  · exact hpass

theorem pushBounded_cases (depth : Nat) (st : List Word) (v : Word) (st' : List Word) :
    pushBounded depth st v = some st' ↔ st.length < depth ∧ st' = st ++ [v] := by
  simp only [pushBounded]
  split <;> simp [*, eq_comm]

theorem pushBounded_none (depth : Nat) (st : List Word) (v : Word) :
    pushBounded depth st v = none ↔ depth ≤ st.length := by
  simp [pushBounded]

@[simp] theorem popLast_append (st : List Word) (v : Word) : popLast (st ++ [v]) = some (v, st) := by
  simp [popLast]

@[simp] theorem popLast_nil : popLast [] = none := rfl

theorem popLast_cases (st : List Word) (v : Word) (st' : List Word) :
    popLast st = some (v, st') ↔ st = st' ++ [v] := by
  constructor
  · intro h
    rcases List.eq_nil_or_concat st with rfl | ⟨l, a, rfl⟩
    · simp at h
    · rw [List.concat_eq_append, popLast_append] at h
      cases h; simp
  · rintro rfl; simp

/-! ### Display-list commits -/

theorem commitDl_cases {P : State → Prop} {i : Instr} {res : Except StopCode DlManager} {s : State}
    (hok : ∀ dl, res = .ok dl → P (({ s with dl := dl } : State).advance i.len))
    (herr : ∀ c, res = .error c → P (s.raise c)) : P (commitDl i res s) := by
  cases res with
  | ok dl => exact hok dl rfl
  | error c => exact herr c rfl

theorem storeToVideo_eq (n : Bytes) (cmds : List DlCommand) (s : State) :
    storeToVideo n cmds s =
      if s.vcur.toNat + (serialize n cmds).length ≤ 262144 then
        (some (s.vcur.toNat, (serialize n cmds).length),
          { s with
            mem := s.mem.store .video s.vcur.toNat (serialize n cmds)
            vcur := s.vcur + BitVec.ofNat 32 (serialize n cmds).length })
      else (none, s.setFlag .err true) := rfl

/-- Everything the store of a record into Video can do. -/
theorem storeToVideo_cases {P : Option (Nat × Nat) × State → Prop} {n : Bytes} {cmds : List DlCommand} {s : State}
    (hfit : s.vcur.toNat + (serialize n cmds).length ≤ 262144 →
      P (some (s.vcur.toNat, (serialize n cmds).length),
        { s with
          mem := s.mem.store .video s.vcur.toNat (serialize n cmds)
          vcur := s.vcur + BitVec.ofNat 32 (serialize n cmds).length }))
    (hfull : 262144 < s.vcur.toNat + (serialize n cmds).length → P (none, s.setFlag .err true)) :
    P (storeToVideo n cmds s) := by
  rw [storeToVideo_eq]
  by_cases h : s.vcur.toNat + (serialize n cmds).length ≤ 262144
  · rw [if_pos h]; exact hfit h
  · rw [if_neg h]; exact hfull (by omega)

end Sys2Proof.Machine
end

