-- ==== Sys2Proof/Laws/Claims.lean ====
section
/-! SUPPORT. How to reach the forms of Safety.lean: a claim about an instruction follows from the state its meaning
answers, written over the shared operations. -/

namespace Sys2Proof.Machine

theorem Completes.of {i : Instr} {s t : State} {changed : List Part} {P : State → Prop} (h : exec i s = .next t)
    (hframe : SameBut changed s t) (hP : P t) : Completes i s changed P := ⟨t, h, hframe, hP⟩

theorem Skips.of {i : Instr} {s : State} {why : SkipReason} {len : Nat} (h : exec i s = .next (s.skip why i))
    (hlen : i.len = len) : Skips i s why len := by
  subst hlen
  refine Completes.of h (fun p hp => ?_) ⟨by simp, by simp⟩
  cases p <;> first | (simp [Part.same]; done) | (exact absurd hp (by decide))

theorem Halts.of {i : Instr} {s : State} {c : StopCode} (h : exec i s = .next (s.halt c)) : Halts i s c := by
  refine Completes.of h (fun p hp => ?_) ⟨by simp, by simp, by simp⟩
  cases p <;> first | (simp [Part.same]; done) | (exact absurd hp (by decide))

theorem Faults.of {i : Instr} {s : State} {c : StopCode} (h : exec i s = .next (s.raise c)) : Faults i s c := by
  refine Completes.of h (fun p hp => ?_) ⟨by simp, by simp, by simp⟩
  cases p <;> first | (simp [Part.same]; done) | (exact absurd hp (by decide))

theorem SetsErr.of {i : Instr} {s : State} {len : Nat} (h : exec i s = .next ((s.setFlag .err true).advance i.len))
    (hlen : i.len = len) : SetsErr i s len := by
  subst hlen
  refine Completes.of h (fun p hp => ?_) ⟨?_, fun k hk => ?_, by simp⟩
  · cases p <;> first | (simp [Part.same]; done) | (exact absurd hp (by decide))
  · simp only [State.advance_flags, State.setFlag_flags, withFlag_getLsbD]; rfl
  · have : k ≠ Flag.err.bit := fun e => hk (e ▸ List.mem_singleton.2 rfl)
    simp only [State.advance_flags, State.setFlag_flags, withFlag_getLsbD, if_neg this]

theorem Transfers.of {i : Instr} {s : State} {target : Word} (h : exec i s = .next (transfer target s)) :
    Transfers i s target := by
  rw [transfer_eq] at h
  unfold Transfers
  split
  · rename_i hlt
    rw [if_pos hlt] at h
    refine Completes.of h (fun p hp => ?_) rfl
    cases p <;> first | (simp [Part.same]; done) | (exact absurd hp (by decide))
  · rename_i hlt
    rw [if_neg hlt] at h
    exact .of h

theorem WithCell.of {i : Instr} {s : State} {r : Byte} {len : Nat} {P : RegIdx → Prop} (k : RegIdx → State)
    (h : exec i s = .next (withReg i r s k)) (hlen : i.len = len) (hk : ∀ c, exec i s = .next (k c) → P c) :
    WithCell i s r len P := by
  unfold WithCell
  split
  · rename_i hr; exact hk _ (by rw [h, withReg_of_lt _ _ _ _ hr])
  · rename_i hr; exact .of (by rw [h, withReg_of_ge _ _ _ _ hr]) hlen

theorem WithRead.of {tag : Tag} {i : Instr} {s : State} {r : Byte} {len : Nat} {P : RegIdx → Prop}
    (k : RegIdx → Word → State) (h : exec i s = .next (withReg i r s fun c => withBits tag c s (k c))) (hlen : i.len = len)
    (hk : ∀ c, exec i s = .next (k c (s.cell c).bits) → P c) : WithRead tag i s r len P := by
  refine WithCell.of _ h hlen fun c hc => ?_
  rw [withBits_eq] at hc
  split
  · rename_i hr; rw [if_pos hr] at hc; exact hk c hc
  · rename_i hr; rw [if_neg hr] at hc; exact .of hc

theorem WithReads.of {tag : Tag} {i : Instr} {s : State} {ra rb : Byte} {len : Nat} {P : RegIdx → RegIdx → Prop}
    (k : RegIdx → RegIdx → Word → Word → State)
    (h : exec i s = .next (withReg i ra s fun c => withReg i rb s fun d =>
      withBits tag c s fun x => withBits tag d s fun y => k c d x y))
    (hlen : i.len = len) (hk : ∀ c d, exec i s = .next (k c d (s.cell c).bits (s.cell d).bits) → P c d) :
    WithReads tag i s ra rb len P := by
  unfold WithReads
  by_cases h1 : ra.toNat < 64
  · rw [withReg_of_lt _ _ _ _ h1] at h
    by_cases h2 : rb.toNat < 64
    · rw [withReg_of_lt _ _ _ _ h2, withBits_eq, withBits_eq] at h
      rw [dif_pos ⟨h1, h2⟩]
      by_cases h3 : readable s tag ⟨ra.toNat, h1⟩ = true
      · rw [if_pos h3] at h
        by_cases h4 : readable s tag ⟨rb.toNat, h2⟩ = true
        · rw [if_pos ⟨h3, h4⟩]; rw [if_pos h4] at h; exact hk _ _ h
        · rw [if_neg (fun e => h4 e.2)]; rw [if_neg h4] at h; exact .of h
      · rw [if_neg (fun e => h3 e.1)]; rw [if_neg h3] at h; exact .of h
    · rw [withReg_of_ge _ _ _ _ h2] at h
      rw [dif_neg (fun e => h2 e.2)]; exact .of h hlen
  · rw [withReg_of_ge _ _ _ _ h1] at h
    rw [dif_neg (fun e => h1 e.1)]; exact .of h hlen

theorem WithOffset.of {i : Instr} {s : State} {dom kind : Byte} {off : Word} {r : Byte} {P : Int → RegIdx → Prop}
    (k : Option Domain → Int → RegIdx → State) (h : exec i s = .next (withEa i dom kind off r s k)) (hlen : i.len = 8)
    (hk : ∀ a c, exec i s = .next (k (Domain.ofNumber dom) a c) → P a c) : WithOffset i s kind off r P := by
  unfold WithOffset
  unfold withEa at h
  split at h
  · rename_i h0
    have hz : kind = 0 := BitVec.eq_of_toNat_eq h0
    rw [if_neg (by omega), if_pos hz]
    exact .of _ h hlen fun c hc => hk _ c hc
  · rename_i h1
    have hne : kind ≠ 0 := fun e => by simp [e] at h1
    rw [if_neg (by omega), if_neg hne]
    by_cases hr : r.toNat < 64
    · rw [withReg_of_lt _ _ _ _ hr] at h
      by_cases ho : (off.extractLsb' 0 8).toNat < 64
      · rw [withReg_of_lt _ _ _ _ ho, withInt_eq] at h
        rw [dif_pos ⟨hr, ho⟩]
        split
        · rename_i hrd; rw [if_pos hrd] at h; exact hk _ _ h
        · rename_i hrd; rw [if_neg hrd] at h; exact .of h
      · rw [withReg_of_ge _ _ _ _ ho] at h
        rw [dif_neg (fun e => ho e.2)]; exact .of h hlen
    · rw [withReg_of_ge _ _ _ _ hr] at h
      rw [dif_neg (fun e => hr e.1)]; exact .of h hlen
  · rename_i h0 h1
    have : 2 ≤ kind.toNat := by
      rcases Nat.lt_or_ge kind.toNat 2 with hlt | hge
      · have : kind.toNat = 0 ∨ kind.toNat = 1 := by omega
        rcases this with e | e
        · exact absurd e h0
        · exact absurd e h1
      · exact hge
    rw [if_pos this]; exact .of h hlen

/-! ### The display-list bytes as Safety.lean writes them out -/

/-- The digits the parser reads are those of R373, with their values. -/
theorem hexDigit_eq_some_iff (d : Byte) (v : Nat) : hexDigit d = some v ↔ IsHexDigit d v := by
  unfold hexDigit IsHexDigit
  simp only
  split
  · simp only [Option.some.injEq]; omega
  · split
    · simp only [Option.some.injEq]; omega
    · split
      · simp only [Option.some.injEq]; omega
      · simp only [reduceCtorEq, false_iff]; omega

theorem hexPair_eq_some_iff (h l b : Byte) : hexPair h l = some b ↔ IsHexPair h l b := by
  unfold hexPair IsHexPair
  have hb : ∀ v, IsHexDigit h v → v < 16 := fun v hv => by unfold IsHexDigit at hv; omega
  have lb : ∀ v, IsHexDigit l v → v < 16 := fun v hv => by unfold IsHexDigit at hv; omega
  constructor
  · intro e
    split at e
    · rename_i v w hv hw
      rw [hexDigit_eq_some_iff] at hv hw
      have := hb _ hv; have := lb _ hw
      refine ⟨v, w, hv, hw, ?_⟩
      rw [← Option.some.inj e, BitVec.toNat_ofNat]; omega
    · cases e
  · rintro ⟨v, w, hv, hw, e⟩
    rw [(hexDigit_eq_some_iff _ _).2 hv, (hexDigit_eq_some_iff _ _).2 hw]
    simp only [← e, BitVec.ofNat_toNat, BitVec.setWidth_eq]

/-- The counts the serialiser writes are those of the tags it writes. -/
theorem countPrims_eq_tagCount (cmds : List DlCommand) : countPrims cmds = tagCount 0x01 cmds :=
  List.countP_congr fun c _ => by cases c <;> simp [DlCommand.isPrim, recordTag]

theorem countColors_eq_tagCount (cmds : List DlCommand) : countColors cmds = tagCount 0x02 cmds :=
  List.countP_congr fun c _ => by cases c <;> simp [DlCommand.isColor, recordTag]

theorem countVertices_eq_tagCount (cmds : List DlCommand) : countVertices cmds = tagCount 0x03 cmds :=
  List.countP_congr fun c _ => by cases c <;> simp [DlCommand.isVertex, recordTag]

/-- The bytes the serialiser writes for a command are those of R377. -/
theorem commandBytes_eq (c : DlCommand) : commandBytes c = recordTag c :: recordPayload c := by
  cases c <;> rfl

end Sys2Proof.Machine
end

