-- ==== Sys2Proof/Laws/Encoding.lean ====
section
/-! SUPPORT. What the field decoders and encoders do, piece by piece. -/

namespace Sys2Proof

@[simp] theorem le32_length (w : Word) : (le32 w).length = 4 := rfl

/-- The four bytes of a word give the word back. -/
@[simp] theorem ofLe32_le32 (w : Word) :
    ofLe32 (w.extractLsb' 0 8) (w.extractLsb' 8 8) (w.extractLsb' 16 8) (w.extractLsb' 24 8) = w := by
  apply BitVec.eq_of_getLsbD_eq
  intro k hk
  simp only [ofLe32, BitVec.getLsbD_append, BitVec.getLsbD_extractLsb']
  by_cases h1 : k < 8
  · simp [h1]
  by_cases h2 : k < 16
  · simp [h1, show k - 8 < 8 by omega, show 8 + (k - 8) = k by omega]
  by_cases h3 : k < 24
  · simp [h1, show ¬ k - 8 < 8 by omega, show k - 8 - 8 < 8 by omega, show 16 + (k - 8 - 8) = k by omega]
  · simp [h1, show ¬ k - 8 < 8 by omega, show ¬ k - 8 - 8 < 8 by omega, show k - 8 - 8 - 8 < 8 by omega,
      show 24 + (k - 8 - 8 - 8) = k by omega]

/-- The word of four bytes has those bytes. -/
@[simp] theorem le32_ofLe32 (b0 b1 b2 b3 : Byte) : le32 (ofLe32 b0 b1 b2 b3) = [b0, b1, b2, b3] := by
  have part : ∀ (j : Nat) (b : Byte), (∀ k, k < 8 → (ofLe32 b0 b1 b2 b3).getLsbD (j + k) = b.getLsbD k) →
      (ofLe32 b0 b1 b2 b3).extractLsb' j 8 = b := by
    intro j b h
    apply BitVec.eq_of_getLsbD_eq
    intro k hk
    rw [BitVec.getLsbD_extractLsb', h k hk]; simp [hk]
  have bits : ∀ k, (ofLe32 b0 b1 b2 b3).getLsbD k =
      if k < 8 then b0.getLsbD k else if k - 8 < 8 then b1.getLsbD (k - 8)
      else if k - 8 - 8 < 8 then b2.getLsbD (k - 8 - 8) else b3.getLsbD (k - 8 - 8 - 8) := by
    intro k
    simp only [ofLe32, BitVec.getLsbD_append]
  have h0 := part 0 b0 fun k hk => by rw [bits, if_pos (by omega), Nat.zero_add]
  have h1 := part 8 b1 fun k hk => by
    rw [bits, if_neg (by omega), if_pos (by omega), show 8 + k - 8 = k by omega]
  have h2 := part 16 b2 fun k hk => by
    rw [bits, if_neg (by omega), if_neg (by omega), if_pos (by omega), show 16 + k - 8 - 8 = k by omega]
  have h3 := part 24 b3 fun k hk => by
    rw [bits, if_neg (by omega), if_neg (by omega), if_neg (by omega), show 24 + k - 8 - 8 - 8 = k by omega]
  simp [le32, h0, h1, h2, h3]

/-- Taking so many bytes: exactly when the sequence is that many bytes and the rest. -/
theorem takeExactly_cases (n : Nat) (bs s rest : Bytes) :
    takeExactly n bs = some (s, rest) ↔ s.length = n ∧ bs = s ++ rest := by
  induction n generalizing bs s with
  | zero =>
    simp only [takeExactly, Option.some.injEq, Prod.mk.injEq, List.length_eq_zero_iff]
    constructor
    · rintro ⟨rfl, rfl⟩; simp
    · rintro ⟨rfl, rfl⟩; simp
  | succ n ih =>
    cases bs with
    | nil =>
      simp only [takeExactly, reduceCtorEq, false_iff]
      rintro ⟨h, h'⟩
      cases s with
      | nil => simp at h
      | cons => simp at h'
    | cons b bs =>
      simp only [takeExactly, Option.map_eq_some_iff, Prod.exists, Prod.mk.injEq]
      constructor
      · rintro ⟨s', r, h, rfl, rfl⟩
        obtain ⟨h1, h2⟩ := (ih _ _).1 h
        simp [h1, h2]
      · rintro ⟨h1, h2⟩
        cases s with
        | nil => simp at h1
        | cons c s =>
          simp only [List.cons_append, List.cons.injEq] at h2
          obtain ⟨rfl, h2⟩ := h2
          exact ⟨s, rest, (ih _ _).2 ⟨by simpa using h1, h2⟩, rfl, rfl⟩

theorem stringFits_iff (s : Bytes) : stringFits s = true ↔ s.length ≤ 255 := decide_eq_true_iff

/-- The length byte of a string that fits names its length. -/
theorem lengthByte_toNat (s : Bytes) (h : stringFits s = true) : (lengthByte s).toNat = s.length := by
  rw [stringFits_iff] at h
  simp only [lengthByte, BitVec.toNat_ofNat]
  omega

/-- A string field that fits decodes to itself, whatever follows. -/
theorem decodeString_lengthByte (s rest : Bytes) (h : stringFits s = true) :
    decodeString (lengthByte s :: (s ++ rest)) = some (s, rest) :=
  (takeExactly_cases _ _ _ _).2 ⟨(lengthByte_toNat s h).symm, rfl⟩

/-- Everything the decoding of a string can do. -/
theorem decodeString_cases (bs s rest : Bytes) :
    decodeString bs = some (s, rest) ↔ stringFits s = true ∧ bs = lengthByte s :: (s ++ rest) := by
  constructor
  · cases bs with
    | nil => simp [decodeString]
    | cons n bs =>
      intro h
      obtain ⟨h1, rfl⟩ := (takeExactly_cases _ _ _ _).1 h
      have : n.toNat < 256 := n.isLt
      refine ⟨(stringFits_iff s).2 (by omega), ?_⟩
      rw [lengthByte, h1]; simp
  · rintro ⟨h, rfl⟩; exact decodeString_lengthByte s rest h

/-- Three words decode to themselves, whatever follows. -/
theorem decodeTriple_le32 (x y z : Word) (rest : Bytes) :
    decodeTriple (le32 x ++ le32 y ++ le32 z ++ rest) = some ((x, y, z), rest) := by
  simp [le32, decodeTriple]

/-- Everything the decoding of three words can do. -/
theorem decodeTriple_cases (bs rest : Bytes) (x y z : Word) :
    decodeTriple bs = some ((x, y, z), rest) ↔ bs = le32 x ++ le32 y ++ le32 z ++ rest := by
  constructor
  · intro h
    unfold decodeTriple at h
    split at h
    · cases h
      simp
    · cases h
  · rintro rfl; exact decodeTriple_le32 x y z rest

end Sys2Proof
end

