-- ==== Sys2Proof/Laws/DisplayList.lean ====
section
/-! SUPPORT. The map of sealed lists and the counts of a command sequence. -/

namespace Sys2Proof.Machine

@[simp] theorem nameLt_irrefl (n : Bytes) : nameLt n n = false := by
  induction n with
  | nil => rfl
  | cons a n ih => simp [nameLt, ih]

theorem nameLt_trans (a b c : Bytes) (h1 : nameLt a b = true) (h2 : nameLt b c = true) : nameLt a c = true := by
  induction a generalizing b c with
  | nil => cases b with
    | nil => simp [nameLt] at h1
    | cons => cases c with
      | nil => simp [nameLt] at h2
      | cons => rfl
  | cons x a ih => cases b with
    | nil => simp [nameLt] at h1
    | cons y b => cases c with
      | nil => simp [nameLt] at h2
      | cons z c =>
        simp only [nameLt, Bool.or_eq_true, decide_eq_true_eq, Bool.and_eq_true] at *
        rcases h1 with h1 | ⟨rfl, h1⟩ <;> rcases h2 with h2 | ⟨rfl, h2⟩
        · left; omega
        · left; exact h1
        · left; exact h2
        · exact .inr ⟨rfl, ih _ _ h1 h2⟩

theorem nameLt_total (a b : Bytes) (h : a ≠ b) : nameLt a b = true ∨ nameLt b a = true := by
  induction a generalizing b with
  | nil => cases b with
    | nil => exact absurd rfl h
    | cons => exact .inl rfl
  | cons x a ih => cases b with
    | nil => exact .inr rfl
    | cons y b =>
      simp only [nameLt, Bool.or_eq_true, decide_eq_true_eq, Bool.and_eq_true]
      by_cases hxy : x = y
      · subst hxy
        rcases ih b (fun e => h (by rw [e])) with h' | h' <;> simp [h']
      · have : x.toNat ≠ y.toNat := fun e => hxy (BitVec.eq_of_toNat_eq e)
        rcases Nat.lt_or_gt_of_ne this with h' | h'
        · exact .inl (.inl h')
        · exact .inr (.inl h')

/-- The list sealed under a name is found under it, and every other name finds what it found before. -/
theorem lookupList_insertList (l : List (Bytes × List DlCommand)) (n m : Bytes) (c : List DlCommand) :
    lookupList (insertList l n c) m = if m = n then some c else lookupList l m := by
  induction l with
  | nil =>
    simp only [insertList, lookupList, eq_comm (a := n)]
  | cons e l ih =>
    obtain ⟨k, d⟩ := e
    simp only [insertList]
    split
    · rename_i hk; subst hk
      simp only [lookupList, eq_comm (a := k)]
      split <;> rfl
    · rename_i hk
      split
      · simp only [lookupList, eq_comm (a := n)]
      · simp only [lookupList, ih]
        by_cases hm : k = m
        · subst hm; simp [hk]
        · simp [hm]

theorem mem_insertList (l : List (Bytes × List DlCommand)) (n : Bytes) (c : List DlCommand)
    (e : Bytes × List DlCommand) (h : e ∈ insertList l n c) : e = (n, c) ∨ e ∈ l := by
  induction l with
  | nil => simpa [insertList] using h
  | cons f l ih =>
    obtain ⟨k, d⟩ := f
    simp only [insertList] at h
    split at h
    · rcases List.mem_cons.1 h with h | h
      · exact .inl h
      · exact .inr (List.mem_cons_of_mem _ h)
    · split at h
      · exact List.mem_cons.1 h
      · rcases List.mem_cons.1 h with h | h
        · exact .inr (h ▸ List.mem_cons_self)
        · rcases ih h with h | h
          · exact .inl h
          · exact .inr (List.mem_cons_of_mem _ h)

theorem lookupList_none (l : List (Bytes × List DlCommand)) (n : Bytes) :
    lookupList l n = none ↔ n ∉ l.map (·.1) := by
  induction l with
  | nil => simp [lookupList]
  | cons e l ih =>
    obtain ⟨k, d⟩ := e
    by_cases h : k = n
    · simp [lookupList, h]
    · simp [lookupList, h, ih, eq_comm (a := n)]

theorem lookupList_mem (l : List (Bytes × List DlCommand)) (n : Bytes) (c : List DlCommand)
    (h : lookupList l n = some c) : (n, c) ∈ l := by
  induction l with
  | nil => simp [lookupList] at h
  | cons e l ih =>
    obtain ⟨k, d⟩ := e
    simp only [lookupList] at h
    split at h
    · rename_i hk; subst hk; cases h; exact List.mem_cons_self
    · exact List.mem_cons_of_mem _ (ih h)

/-- Sealing a list keeps the names strictly rising. -/
theorem namesRise_insertList (l : List (Bytes × List DlCommand)) (n : Bytes) (c : List DlCommand)
    (h : namesRise l = true) : namesRise (insertList l n c) = true := by
  induction l with
  | nil => rfl
  | cons e l ih =>
    obtain ⟨k, d⟩ := e
    simp only [insertList]
    split
    · rename_i hk; subst hk
      cases l with
      | nil => rfl
      | cons f l => simpa [namesRise] using h
    · rename_i hk
      split
      · rename_i hlt
        simp [namesRise, hlt, h]
      · rename_i hnlt
        have hkn : nameLt k n = true := by
          rcases nameLt_total k n hk with h' | h'
          · exact h'
          · exact absurd h' hnlt
        cases l with
        | nil => simp [insertList, namesRise, hkn]
        | cons f l =>
          obtain ⟨m, d'⟩ := f
          simp only [namesRise, Bool.and_eq_true] at h
          have ih := ih h.2
          simp only [insertList] at ih ⊢
          split <;> rename_i hm
          · rw [if_pos hm] at ih
            simpa [namesRise, hkn] using ih
          · rw [if_neg hm] at ih
            split <;> rename_i hlt
            · rw [if_pos hlt] at ih
              simp only [namesRise, Bool.and_eq_true]
              exact ⟨hkn, by simpa [namesRise] using ih⟩
            · rw [if_neg hlt] at ih
              simp only [namesRise, Bool.and_eq_true]
              exact ⟨h.1, ih⟩

/-! ### Counts -/

@[simp] theorem countPrims_append (l m : List DlCommand) : countPrims (l ++ m) = countPrims l + countPrims m := by
  simp [countPrims]

@[simp] theorem countColors_append (l m : List DlCommand) : countColors (l ++ m) = countColors l + countColors m := by
  simp [countColors]

@[simp] theorem countVertices_append (l m : List DlCommand) :
    countVertices (l ++ m) = countVertices l + countVertices m := by
  simp [countVertices]

/-- Every command is of one kind. -/
theorem length_eq_counts (cmds : List DlCommand) :
    cmds.length = countVertices cmds + countColors cmds + countPrims cmds := by
  induction cmds with
  | nil => rfl
  | cons c cmds ih =>
    simp only [countVertices, countColors, countPrims] at *
    cases c <;> simp only [List.length_cons, List.countP_cons, DlCommand.isPrim, DlCommand.isColor, DlCommand.isVertex,
      Bool.false_eq_true, if_true, if_false] <;> omega

/-- Everything an append to the open list can do. -/
theorem dlAppend_cases (dl dl' : DlManager) (count : List DlCommand → Nat) (c : DlCommand) :
    dlAppend dl count c = .ok dl' ↔
      ∃ n cmds, dl.building = some (n, cmds) ∧ count cmds < 255 ∧ dl' = ⟨dl.lists, some (n, cmds ++ [c])⟩ := by
  simp only [dlAppend, Config.dlMaxPerKind]
  cases h : dl.building with
  | none => simp
  | some b =>
    obtain ⟨n, cmds⟩ := b
    simp only [Option.some.injEq, Prod.mk.injEq]
    split
    · rename_i hc
      constructor
      · rintro h; cases h; exact ⟨n, cmds, ⟨rfl, rfl⟩, hc, rfl⟩
      · rintro ⟨_, _, ⟨rfl, rfl⟩, -, rfl⟩; rfl
    · rename_i hc
      constructor
      · intro h; cases h
      · rintro ⟨_, _, ⟨rfl, rfl⟩, hc', -⟩; exact absurd hc' hc

/-- A command decodes to itself, whatever follows. -/
theorem decodeCommand_bytes (c : DlCommand) (rest : Bytes) : decodeCommand (commandBytes c ++ rest) = some (c, rest) := by
  cases c with
  | prim t => rfl
  | color r g b => rfl
  | vertex x y z =>
    have h := decodeTriple_le32 x y z rest
    simp only [commandBytes, List.cons_append, decodeCommand]
    simp only [List.append_assoc] at h ⊢
    rw [h]; rfl

end Sys2Proof.Machine
end

