-- ==== Sys2Proof/Laws/Host.lean ====
section
/-! SUPPORT. The host's stop and the run: what `stop` leaves, and everything a run can do. -/

namespace Sys2Proof.Machine

/-! ### stop (60_exceptions.md R525) -/

theorem State.hostStop_of_running {s : State} (h : s.running = true) :
    s.hostStop = { s with running := false, stop := StopCode.external.code } := by simp [State.hostStop, h]

theorem State.hostStop_of_stopped {s : State} (h : s.running = false) : s.hostStop = s := by simp [State.hostStop, h]

@[simp] theorem State.hostStop_running (s : State) : s.hostStop.running = false := by
  unfold State.hostStop; split <;> simp_all

@[simp] theorem State.hostAct_stop (s : State) : s.hostAct .stop = s.hostStop := rfl

@[simp] theorem State.hostActs_nil (s : State) : s.hostActs [] = s := rfl

@[simp] theorem State.hostActs_cons (s : State) (op : HostOp) (ops : List HostOp) :
    s.hostActs (op :: ops) = (s.hostAct op).hostActs ops := rfl

@[simp] theorem State.hostActs_append (s : State) (a b : List HostOp) :
    s.hostActs (a ++ b) = (s.hostActs a).hostActs b := by simp [State.hostActs, List.foldl_append]

/-! ### run (30_encoding.md R145) -/

theorem runFrom_of_stopped {s : State} (host : List (List HostOp)) (last : Option StepReport) (h : s.running = false) :
    runFrom host last s = .returned last s := by cases host <;> simp [runFrom, h]

/-- Everything one turn of a run can do. -/
theorem runFrom_cons (ops : List HostOp) (host : List (List HostOp)) (last : Option StepReport) (s : State) :
    (s.running = false ∧ runFrom (ops :: host) last s = .returned last s)
      ∨ (s.running = true ∧ (∀ t, step s ≠ .next t) ∧ runFrom (ops :: host) last s = .outside s)
      ∨ (s.running = true ∧ ∃ t, step s = .next t ∧ t.running = false
          ∧ runFrom (ops :: host) last s = .returned (stepReport s t) t)
      ∨ (s.running = true ∧ ∃ t, step s = .next t ∧ t.running = true
          ∧ runFrom (ops :: host) last s = runFrom host (stepReport s t) (t.hostActs ops)) := by
  cases hr : s.running with
  | false => exact .inl ⟨rfl, runFrom_of_stopped _ _ hr⟩
  | true =>
    cases hs : step s with
    | next t => cases ht : t.running <;> simp [runFrom, hr, hs, ht]
    | fault f => simp [runFrom, hr, hs]
    | refused r => simp [runFrom, hr, hs]

/-- A run returns only with the CPU stopped. -/
theorem runFrom_returned {host : List (List HostOp)} {last r : Option StepReport} {s t : State}
    (h : runFrom host last s = .returned r t) : t.running = false := by
  induction host generalizing last s with
  | nil =>
    unfold runFrom at h
    split at h
    · cases h
    · cases h; simp_all
  | cons ops host ih =>
    rcases runFrom_cons ops host last s with ⟨hs, e⟩ | ⟨-, -, e⟩ | ⟨-, u, -, hu, e⟩ | ⟨-, u, -, -, e⟩ <;> rw [e] at h
    · cases h; exact hs
    · cases h
    · cases h; exact hu
    · exact ih h

/-- A run that is still going can be run on. -/
theorem runFrom_append (a b : List (List HostOp)) (last : Option StepReport) (s : State) :
    runFrom (a ++ b) last s =
      match runFrom a last s with
      | .going r t => runFrom b r t
      | .returned r t => .returned r t
      | .outside t => .outside t := by
  induction a generalizing last s with
  | nil =>
    cases hr : s.running with
    | false => simp [runFrom_of_stopped _ _ hr]
    | true => simp [runFrom, hr]
  | cons ops a ih =>
    cases hr : s.running with
    | false => simp [runFrom_of_stopped _ _ hr]
    | true =>
      cases hs : step s with
      | next t => cases ht : t.running <;> simp [runFrom, hr, hs, ht, ih]
      | fault f => simp [runFrom, hr, hs]
      | refused r => simp [runFrom, hr, hs]

end Sys2Proof.Machine
end

