-- ==== Sys2Proof/Laws/PerInstr.lean ====
section
/-! SUPPORT. Statements about every instruction as syntax, one lemma per constructor: the length of its encoding, and its
row of the opcode map. -/

/-- The encoding of an instruction has the length `len` counts (30_encoding.md R134). -/
def Sys2Proof.Laws.EncodeLength.Statement (i : Sys2Proof.Instr) : Prop := (Sys2Proof.encode i).length = i.len

/-- The format of an instruction (30_encoding.md R139). -/
def Sys2Proof.Laws.formatOf : Sys2Proof.Instr → Sys2Proof.Format
  | .hlt | .ret | .dlend => .n
  | .mov _ _ | .movf _ _ | .li _ _ | .addi _ _ | .subi _ _ | .muli _ _ | .divi _ _ | .andi _ _ | .ori _ _
  | .xori _ _ | .shli _ _ | .shri _ _ | .cmpi _ _ | .inp _ _ | .out _ _ => .ri
  | .add _ _ | .sub _ _ | .mul _ _ | .div _ _ | .and _ _ | .or _ _ | .xor _ _ | .shl _ _ | .shr _ _ | .fadd _ _
  | .fsub _ _ | .fmul _ _ | .fdiv _ _ | .fmod _ _ | .cmp _ _ => .rr
  | .not _ | .itof _ | .ftoi _ | .push _ | .pop _ | .rand _ | .time _ | .loadmodel _ => .r
  | .jmp _ | .jz _ | .jnz _ | .jg _ | .jl _ | .jge _ | .jle _ | .call _ => .a
  | .intr _ | .dlprimitive _ => .b
  | .loadi _ _ _ _ | .storei _ _ _ _ => .m
  | .dlstart _ | .dlcolor _ => .s
  | .dlvertex _ _ _ => .v
  | .dlcall _ _ _ _ => .sv
  | .storemodel _ _ => .rs

/-- The opcode of an instruction has a row of its format in the opcode map (30_encoding.md R139). -/
def Sys2Proof.Laws.OpcodeRow.Statement (i : Sys2Proof.Instr) : Prop :=
  ∃ row, Sys2Proof.opcodeMap i.opcode = some row ∧ row.format = Sys2Proof.Laws.formatOf i

open Sys2Proof

/-! ### EncodeLength -/

theorem Sys2Proof.Laws.EncodeLength.hlt : Statement .hlt := rfl
theorem Sys2Proof.Laws.EncodeLength.mov (r : Byte) (imm : Word) : Statement (.mov r imm) := rfl
theorem Sys2Proof.Laws.EncodeLength.movf (r : Byte) (imm : Word) : Statement (.movf r imm) := rfl
theorem Sys2Proof.Laws.EncodeLength.li (r : Byte) (imm : Word) : Statement (.li r imm) := rfl
theorem Sys2Proof.Laws.EncodeLength.add (ra : Byte) (rb : Byte) : Statement (.add ra rb) := rfl
theorem Sys2Proof.Laws.EncodeLength.sub (ra : Byte) (rb : Byte) : Statement (.sub ra rb) := rfl
theorem Sys2Proof.Laws.EncodeLength.mul (ra : Byte) (rb : Byte) : Statement (.mul ra rb) := rfl
theorem Sys2Proof.Laws.EncodeLength.div (ra : Byte) (rb : Byte) : Statement (.div ra rb) := rfl
theorem Sys2Proof.Laws.EncodeLength.and (ra : Byte) (rb : Byte) : Statement (.and ra rb) := rfl
theorem Sys2Proof.Laws.EncodeLength.or (ra : Byte) (rb : Byte) : Statement (.or ra rb) := rfl
theorem Sys2Proof.Laws.EncodeLength.xor (ra : Byte) (rb : Byte) : Statement (.xor ra rb) := rfl
theorem Sys2Proof.Laws.EncodeLength.not (r : Byte) : Statement (.not r) := rfl
theorem Sys2Proof.Laws.EncodeLength.shl (ra : Byte) (rb : Byte) : Statement (.shl ra rb) := rfl
theorem Sys2Proof.Laws.EncodeLength.shr (ra : Byte) (rb : Byte) : Statement (.shr ra rb) := rfl
theorem Sys2Proof.Laws.EncodeLength.addi (r : Byte) (imm : Word) : Statement (.addi r imm) := rfl
theorem Sys2Proof.Laws.EncodeLength.subi (r : Byte) (imm : Word) : Statement (.subi r imm) := rfl
theorem Sys2Proof.Laws.EncodeLength.muli (r : Byte) (imm : Word) : Statement (.muli r imm) := rfl
theorem Sys2Proof.Laws.EncodeLength.divi (r : Byte) (imm : Word) : Statement (.divi r imm) := rfl
theorem Sys2Proof.Laws.EncodeLength.andi (r : Byte) (imm : Word) : Statement (.andi r imm) := rfl
theorem Sys2Proof.Laws.EncodeLength.ori (r : Byte) (imm : Word) : Statement (.ori r imm) := rfl
theorem Sys2Proof.Laws.EncodeLength.xori (r : Byte) (imm : Word) : Statement (.xori r imm) := rfl
theorem Sys2Proof.Laws.EncodeLength.shli (r : Byte) (imm : Word) : Statement (.shli r imm) := rfl
theorem Sys2Proof.Laws.EncodeLength.shri (r : Byte) (imm : Word) : Statement (.shri r imm) := rfl
theorem Sys2Proof.Laws.EncodeLength.fadd (ra : Byte) (rb : Byte) : Statement (.fadd ra rb) := rfl
theorem Sys2Proof.Laws.EncodeLength.fsub (ra : Byte) (rb : Byte) : Statement (.fsub ra rb) := rfl
theorem Sys2Proof.Laws.EncodeLength.fmul (ra : Byte) (rb : Byte) : Statement (.fmul ra rb) := rfl
theorem Sys2Proof.Laws.EncodeLength.fdiv (ra : Byte) (rb : Byte) : Statement (.fdiv ra rb) := rfl
theorem Sys2Proof.Laws.EncodeLength.fmod (ra : Byte) (rb : Byte) : Statement (.fmod ra rb) := rfl
theorem Sys2Proof.Laws.EncodeLength.itof (r : Byte) : Statement (.itof r) := rfl
theorem Sys2Proof.Laws.EncodeLength.ftoi (r : Byte) : Statement (.ftoi r) := rfl
theorem Sys2Proof.Laws.EncodeLength.cmp (ra : Byte) (rb : Byte) : Statement (.cmp ra rb) := rfl
theorem Sys2Proof.Laws.EncodeLength.cmpi (r : Byte) (imm : Word) : Statement (.cmpi r imm) := rfl
theorem Sys2Proof.Laws.EncodeLength.jmp (addr : Word) : Statement (.jmp addr) := rfl
theorem Sys2Proof.Laws.EncodeLength.jz (addr : Word) : Statement (.jz addr) := rfl
theorem Sys2Proof.Laws.EncodeLength.jnz (addr : Word) : Statement (.jnz addr) := rfl
theorem Sys2Proof.Laws.EncodeLength.jg (addr : Word) : Statement (.jg addr) := rfl
theorem Sys2Proof.Laws.EncodeLength.jl (addr : Word) : Statement (.jl addr) := rfl
theorem Sys2Proof.Laws.EncodeLength.jge (addr : Word) : Statement (.jge addr) := rfl
theorem Sys2Proof.Laws.EncodeLength.jle (addr : Word) : Statement (.jle addr) := rfl
theorem Sys2Proof.Laws.EncodeLength.call (addr : Word) : Statement (.call addr) := rfl
theorem Sys2Proof.Laws.EncodeLength.ret : Statement .ret := rfl
theorem Sys2Proof.Laws.EncodeLength.push (r : Byte) : Statement (.push r) := rfl
theorem Sys2Proof.Laws.EncodeLength.pop (r : Byte) : Statement (.pop r) := rfl
theorem Sys2Proof.Laws.EncodeLength.inp (r : Byte) (imm : Word) : Statement (.inp r imm) := rfl
theorem Sys2Proof.Laws.EncodeLength.out (r : Byte) (imm : Word) : Statement (.out r imm) := rfl
theorem Sys2Proof.Laws.EncodeLength.rand (r : Byte) : Statement (.rand r) := rfl
theorem Sys2Proof.Laws.EncodeLength.time (r : Byte) : Statement (.time r) := rfl
theorem Sys2Proof.Laws.EncodeLength.intr (b : Byte) : Statement (.intr b) := rfl
theorem Sys2Proof.Laws.EncodeLength.loadi (dom : Byte) (kind : Byte) (off : Word) (r : Byte) : Statement (.loadi dom kind off r) := rfl
theorem Sys2Proof.Laws.EncodeLength.storei (dom : Byte) (kind : Byte) (off : Word) (r : Byte) : Statement (.storei dom kind off r) := rfl
theorem Sys2Proof.Laws.EncodeLength.dlstart (n : Bytes) : Statement (.dlstart n) := by
  simp [Statement, encode, Instr.operandBytes, Instr.len]; omega
theorem Sys2Proof.Laws.EncodeLength.dlprimitive (b : Byte) : Statement (.dlprimitive b) := rfl
theorem Sys2Proof.Laws.EncodeLength.dlcolor (n : Bytes) : Statement (.dlcolor n) := by
  simp [Statement, encode, Instr.operandBytes, Instr.len]; omega
theorem Sys2Proof.Laws.EncodeLength.dlvertex (fx : Word) (fy : Word) (fz : Word) : Statement (.dlvertex fx fy fz) := rfl
theorem Sys2Proof.Laws.EncodeLength.dlend : Statement .dlend := rfl
theorem Sys2Proof.Laws.EncodeLength.dlcall (n : Bytes) (fx : Word) (fy : Word) (fz : Word) : Statement (.dlcall n fx fy fz) := by
  simp [Statement, encode, Instr.operandBytes, Instr.len]; omega
theorem Sys2Proof.Laws.EncodeLength.storemodel (r : Byte) (n : Bytes) : Statement (.storemodel r n) := by
  simp [Statement, encode, Instr.operandBytes, Instr.len]; omega
theorem Sys2Proof.Laws.EncodeLength.loadmodel (r : Byte) : Statement (.loadmodel r) := rfl

/-! ### OpcodeRow -/

theorem Sys2Proof.Laws.OpcodeRow.hlt : Statement .hlt := ⟨_, rfl, rfl⟩
theorem Sys2Proof.Laws.OpcodeRow.mov (r : Byte) (imm : Word) : Statement (.mov r imm) := ⟨_, rfl, rfl⟩
theorem Sys2Proof.Laws.OpcodeRow.movf (r : Byte) (imm : Word) : Statement (.movf r imm) := ⟨_, rfl, rfl⟩
theorem Sys2Proof.Laws.OpcodeRow.li (r : Byte) (imm : Word) : Statement (.li r imm) := ⟨_, rfl, rfl⟩
theorem Sys2Proof.Laws.OpcodeRow.add (ra : Byte) (rb : Byte) : Statement (.add ra rb) := ⟨_, rfl, rfl⟩
theorem Sys2Proof.Laws.OpcodeRow.sub (ra : Byte) (rb : Byte) : Statement (.sub ra rb) := ⟨_, rfl, rfl⟩
theorem Sys2Proof.Laws.OpcodeRow.mul (ra : Byte) (rb : Byte) : Statement (.mul ra rb) := ⟨_, rfl, rfl⟩
theorem Sys2Proof.Laws.OpcodeRow.div (ra : Byte) (rb : Byte) : Statement (.div ra rb) := ⟨_, rfl, rfl⟩
theorem Sys2Proof.Laws.OpcodeRow.and (ra : Byte) (rb : Byte) : Statement (.and ra rb) := ⟨_, rfl, rfl⟩
theorem Sys2Proof.Laws.OpcodeRow.or (ra : Byte) (rb : Byte) : Statement (.or ra rb) := ⟨_, rfl, rfl⟩
theorem Sys2Proof.Laws.OpcodeRow.xor (ra : Byte) (rb : Byte) : Statement (.xor ra rb) := ⟨_, rfl, rfl⟩
theorem Sys2Proof.Laws.OpcodeRow.not (r : Byte) : Statement (.not r) := ⟨_, rfl, rfl⟩
theorem Sys2Proof.Laws.OpcodeRow.shl (ra : Byte) (rb : Byte) : Statement (.shl ra rb) := ⟨_, rfl, rfl⟩
theorem Sys2Proof.Laws.OpcodeRow.shr (ra : Byte) (rb : Byte) : Statement (.shr ra rb) := ⟨_, rfl, rfl⟩
theorem Sys2Proof.Laws.OpcodeRow.addi (r : Byte) (imm : Word) : Statement (.addi r imm) := ⟨_, rfl, rfl⟩
theorem Sys2Proof.Laws.OpcodeRow.subi (r : Byte) (imm : Word) : Statement (.subi r imm) := ⟨_, rfl, rfl⟩
theorem Sys2Proof.Laws.OpcodeRow.muli (r : Byte) (imm : Word) : Statement (.muli r imm) := ⟨_, rfl, rfl⟩
theorem Sys2Proof.Laws.OpcodeRow.divi (r : Byte) (imm : Word) : Statement (.divi r imm) := ⟨_, rfl, rfl⟩
theorem Sys2Proof.Laws.OpcodeRow.andi (r : Byte) (imm : Word) : Statement (.andi r imm) := ⟨_, rfl, rfl⟩
theorem Sys2Proof.Laws.OpcodeRow.ori (r : Byte) (imm : Word) : Statement (.ori r imm) := ⟨_, rfl, rfl⟩
theorem Sys2Proof.Laws.OpcodeRow.xori (r : Byte) (imm : Word) : Statement (.xori r imm) := ⟨_, rfl, rfl⟩
theorem Sys2Proof.Laws.OpcodeRow.shli (r : Byte) (imm : Word) : Statement (.shli r imm) := ⟨_, rfl, rfl⟩
theorem Sys2Proof.Laws.OpcodeRow.shri (r : Byte) (imm : Word) : Statement (.shri r imm) := ⟨_, rfl, rfl⟩
theorem Sys2Proof.Laws.OpcodeRow.fadd (ra : Byte) (rb : Byte) : Statement (.fadd ra rb) := ⟨_, rfl, rfl⟩
theorem Sys2Proof.Laws.OpcodeRow.fsub (ra : Byte) (rb : Byte) : Statement (.fsub ra rb) := ⟨_, rfl, rfl⟩
theorem Sys2Proof.Laws.OpcodeRow.fmul (ra : Byte) (rb : Byte) : Statement (.fmul ra rb) := ⟨_, rfl, rfl⟩
theorem Sys2Proof.Laws.OpcodeRow.fdiv (ra : Byte) (rb : Byte) : Statement (.fdiv ra rb) := ⟨_, rfl, rfl⟩
theorem Sys2Proof.Laws.OpcodeRow.fmod (ra : Byte) (rb : Byte) : Statement (.fmod ra rb) := ⟨_, rfl, rfl⟩
theorem Sys2Proof.Laws.OpcodeRow.itof (r : Byte) : Statement (.itof r) := ⟨_, rfl, rfl⟩
theorem Sys2Proof.Laws.OpcodeRow.ftoi (r : Byte) : Statement (.ftoi r) := ⟨_, rfl, rfl⟩
theorem Sys2Proof.Laws.OpcodeRow.cmp (ra : Byte) (rb : Byte) : Statement (.cmp ra rb) := ⟨_, rfl, rfl⟩
theorem Sys2Proof.Laws.OpcodeRow.cmpi (r : Byte) (imm : Word) : Statement (.cmpi r imm) := ⟨_, rfl, rfl⟩
theorem Sys2Proof.Laws.OpcodeRow.jmp (addr : Word) : Statement (.jmp addr) := ⟨_, rfl, rfl⟩
theorem Sys2Proof.Laws.OpcodeRow.jz (addr : Word) : Statement (.jz addr) := ⟨_, rfl, rfl⟩
theorem Sys2Proof.Laws.OpcodeRow.jnz (addr : Word) : Statement (.jnz addr) := ⟨_, rfl, rfl⟩
theorem Sys2Proof.Laws.OpcodeRow.jg (addr : Word) : Statement (.jg addr) := ⟨_, rfl, rfl⟩
theorem Sys2Proof.Laws.OpcodeRow.jl (addr : Word) : Statement (.jl addr) := ⟨_, rfl, rfl⟩
theorem Sys2Proof.Laws.OpcodeRow.jge (addr : Word) : Statement (.jge addr) := ⟨_, rfl, rfl⟩
theorem Sys2Proof.Laws.OpcodeRow.jle (addr : Word) : Statement (.jle addr) := ⟨_, rfl, rfl⟩
theorem Sys2Proof.Laws.OpcodeRow.call (addr : Word) : Statement (.call addr) := ⟨_, rfl, rfl⟩
theorem Sys2Proof.Laws.OpcodeRow.ret : Statement .ret := ⟨_, rfl, rfl⟩
theorem Sys2Proof.Laws.OpcodeRow.push (r : Byte) : Statement (.push r) := ⟨_, rfl, rfl⟩
theorem Sys2Proof.Laws.OpcodeRow.pop (r : Byte) : Statement (.pop r) := ⟨_, rfl, rfl⟩
theorem Sys2Proof.Laws.OpcodeRow.inp (r : Byte) (imm : Word) : Statement (.inp r imm) := ⟨_, rfl, rfl⟩
theorem Sys2Proof.Laws.OpcodeRow.out (r : Byte) (imm : Word) : Statement (.out r imm) := ⟨_, rfl, rfl⟩
theorem Sys2Proof.Laws.OpcodeRow.rand (r : Byte) : Statement (.rand r) := ⟨_, rfl, rfl⟩
theorem Sys2Proof.Laws.OpcodeRow.time (r : Byte) : Statement (.time r) := ⟨_, rfl, rfl⟩
theorem Sys2Proof.Laws.OpcodeRow.intr (b : Byte) : Statement (.intr b) := ⟨_, rfl, rfl⟩
theorem Sys2Proof.Laws.OpcodeRow.loadi (dom : Byte) (kind : Byte) (off : Word) (r : Byte) : Statement (.loadi dom kind off r) := ⟨_, rfl, rfl⟩
theorem Sys2Proof.Laws.OpcodeRow.storei (dom : Byte) (kind : Byte) (off : Word) (r : Byte) : Statement (.storei dom kind off r) := ⟨_, rfl, rfl⟩
theorem Sys2Proof.Laws.OpcodeRow.dlstart (n : Bytes) : Statement (.dlstart n) := ⟨_, rfl, rfl⟩
theorem Sys2Proof.Laws.OpcodeRow.dlprimitive (b : Byte) : Statement (.dlprimitive b) := ⟨_, rfl, rfl⟩
theorem Sys2Proof.Laws.OpcodeRow.dlcolor (n : Bytes) : Statement (.dlcolor n) := ⟨_, rfl, rfl⟩
theorem Sys2Proof.Laws.OpcodeRow.dlvertex (fx : Word) (fy : Word) (fz : Word) : Statement (.dlvertex fx fy fz) := ⟨_, rfl, rfl⟩
theorem Sys2Proof.Laws.OpcodeRow.dlend : Statement .dlend := ⟨_, rfl, rfl⟩
theorem Sys2Proof.Laws.OpcodeRow.dlcall (n : Bytes) (fx : Word) (fy : Word) (fz : Word) : Statement (.dlcall n fx fy fz) := ⟨_, rfl, rfl⟩
theorem Sys2Proof.Laws.OpcodeRow.storemodel (r : Byte) (n : Bytes) : Statement (.storemodel r n) := ⟨_, rfl, rfl⟩
theorem Sys2Proof.Laws.OpcodeRow.loadmodel (r : Byte) : Statement (.loadmodel r) := ⟨_, rfl, rfl⟩
end

