-- ==== Sys2Proof/Laws/Step.lean ====
section
/-! SUPPORT. What a step and a fetch can do. -/

namespace Sys2Proof.Machine

/-- Everything a step can do. -/
theorem step_cases (s : State) (o : Result) (h : step s = o) :
    (s.running = false ∧ o = .next s)
      ∨ (s.running = true ∧ ∃ c, fetch s = .stop c ∧ o = .next (s.halt c))
      ∨ (s.running = true ∧ fetch s = .outside ∧ o = .fault .fetchOutsideCode)
      ∨ (s.running = true ∧ ∃ i, fetch s = .instr i ∧ o = exec i s) := by
  subst h
  unfold step
  cases hr : s.running with
  | false => simp
  | true =>
    cases hf : fetch s with
    | stop c => simp
    | outside => simp
    | instr i => simp

/-- Everything a fetch can do: pc at or behind the program's end, a fetch beyond the Code domain, an illegal opcode, an
instruction cut short, or the instruction its bytes decode to, all of it inside the program. -/
theorem fetch_cases (s : State) :
    (fetch s = .stop .endOfProgram)
      ∨ (fetch s = .outside ∧ Config.sizeCode < s.programLength.toNat)
      ∨ (fetch s = .stop .illegalOpcode)
      ∨ ∃ i row len rest, fetch s = .instr i ∧ opcodeMap (s.mem.byte .code s.pc.toNat) = some row
          ∧ fetchLength row.format s = some len ∧ s.pc.toNat + len ≤ s.programLength.toNat
          ∧ s.pc.toNat + len ≤ Config.sizeCode ∧ decode (s.mem.span .code s.pc.toNat len) = .instr i rest := by
  unfold fetch
  by_cases h1 : s.programLength.toNat ≤ s.pc.toNat
  · simp only [if_pos h1]; exact .inl trivial
  by_cases h2 : Config.sizeCode ≤ s.pc.toNat
  · simp only [if_neg h1, if_pos h2]; exact .inr (.inl ⟨trivial, by omega⟩)
  simp only [if_neg h1, if_neg h2]
  cases hm : opcodeMap (s.mem.byte .code s.pc.toNat) with
  | none => exact .inr (.inr (.inl rfl))
  | some row =>
    simp only
    cases hl : fetchLength row.format s with
    | none => exact .inl rfl
    | some len =>
      simp only
      by_cases h3 : s.programLength.toNat < s.pc.toNat + len
      · simp only [if_pos h3]; exact .inl trivial
      by_cases h4 : Config.sizeCode < s.pc.toNat + len
      · simp only [if_neg h3, if_pos h4]; exact .inr (.inl ⟨trivial, by omega⟩)
      simp only [if_neg h3, if_neg h4]
      cases hd : decode (s.mem.span .code s.pc.toNat len) with
      | instr i rest =>
        exact .inr (.inr (.inr ⟨i, row, len, rest, rfl, rfl, hl, by omega, by omega, hd⟩))
      | illegalOpcode op => exact .inr (.inr (.inl rfl))
      | truncated => exact .inl rfl

end Sys2Proof.Machine
end

