-- ==== Sys2Proof/Tests/Slice0.lean ====
section
/-! SUPPORT. Our own tests: the well-formedness smoke, one written-out encoding per constructor, one or two single steps per
instruction, and a concrete input for every statement that has hypotheses. The expected results are those of
spec/95_test_vectors.md (the vector's name stands at each test), or hand calculation from the rule named. -/

namespace Sys2Proof.Tests.Slice0

open Sys2Proof Sys2Proof.Machine

/-! ### Helpers -/

/-- The state after the boot sequence with these bytes as the program (70_reset_and_hazards.md R553). -/
def boot (bytes : Bytes) : State :=
  { State.reset with
    mem := State.reset.mem.store .code 0 bytes
    programLength := BitVec.ofNat 32 bytes.length }

/-- The state after one step; the power-on state where the step answers none. -/
def after (s : State) : State :=
  match step s with
  | .next t => t
  | .fault _ => State.atPowerOn
  | .refused _ => State.atPowerOn

/-- A booted state with two integer registers set. -/
def ints (bytes : Bytes) (a b : Word) : State := ((boot bytes).writeInt 0 a).writeInt 1 b

/-- A booted state with two float registers set. -/
def floats (bytes : Bytes) (a b : Word) : State := ((boot bytes).writeFloat 0 a).writeFloat 1 b

/-- A name of ASCII "A". -/
def nameA : Bytes := [0x41]

/-- So many primitives. -/
def prims (n : Nat) : List DlCommand := List.replicate n (.prim 0)

/-! ### WellFormed refuses a term without an encoding (30_encoding.md R138) -/

theorem test_wf_dlstart : (Instr.dlstart (List.replicate 256 0)).wellFormed = false := by decide +kernel
theorem test_wf_dlcolor : (Instr.dlcolor (List.replicate 256 0)).wellFormed = false := by decide +kernel
theorem test_wf_dlcall : (Instr.dlcall (List.replicate 256 0) 0 0 0).wellFormed = false := by decide +kernel
theorem test_wf_storemodel : (Instr.storemodel 0 (List.replicate 256 0)).wellFormed = false := by decide +kernel
theorem test_wf_longest : (Instr.dlcall (List.replicate 255 0) 0 0 0).wellFormed = true := by decide +kernel

/-! ### Decoding: the bytes of one instruction per constructor, written out from 30_encoding.md R132, R133 and the opcode
map of R139 -/

theorem test_decode_hlt : decode [0x00] = .instr .hlt [] := by decide
theorem test_decode_mov : decode [0x01, 0x05, 0x78, 0x56, 0x34, 0x12] = .instr (.mov 0x05 0x12345678) [] := by decide
theorem test_decode_movf : decode [0x02, 0x05, 0x78, 0x56, 0x34, 0x12] = .instr (.movf 0x05 0x12345678) [] := by decide
theorem test_decode_li : decode [0x03, 0x05, 0x78, 0x56, 0x34, 0x12] = .instr (.li 0x05 0x12345678) [] := by decide
theorem test_decode_add : decode [0x10, 0x01, 0x22] = .instr (.add 0x01 0x22) [] := by decide
theorem test_decode_sub : decode [0x11, 0x01, 0x22] = .instr (.sub 0x01 0x22) [] := by decide
theorem test_decode_mul : decode [0x12, 0x01, 0x22] = .instr (.mul 0x01 0x22) [] := by decide
theorem test_decode_div : decode [0x13, 0x01, 0x22] = .instr (.div 0x01 0x22) [] := by decide
theorem test_decode_and : decode [0x14, 0x01, 0x22] = .instr (.and 0x01 0x22) [] := by decide
theorem test_decode_or : decode [0x15, 0x01, 0x22] = .instr (.or 0x01 0x22) [] := by decide
theorem test_decode_xor : decode [0x16, 0x01, 0x22] = .instr (.xor 0x01 0x22) [] := by decide
theorem test_decode_not : decode [0x17, 0x3F] = .instr (.not 0x3F) [] := by decide
theorem test_decode_shl : decode [0x18, 0x01, 0x22] = .instr (.shl 0x01 0x22) [] := by decide
theorem test_decode_shr : decode [0x19, 0x01, 0x22] = .instr (.shr 0x01 0x22) [] := by decide
theorem test_decode_addi : decode [0x20, 0x05, 0x78, 0x56, 0x34, 0x12] = .instr (.addi 0x05 0x12345678) [] := by decide
theorem test_decode_subi : decode [0x21, 0x05, 0x78, 0x56, 0x34, 0x12] = .instr (.subi 0x05 0x12345678) [] := by decide
theorem test_decode_muli : decode [0x22, 0x05, 0x78, 0x56, 0x34, 0x12] = .instr (.muli 0x05 0x12345678) [] := by decide
theorem test_decode_divi : decode [0x23, 0x05, 0x78, 0x56, 0x34, 0x12] = .instr (.divi 0x05 0x12345678) [] := by decide
theorem test_decode_andi : decode [0x24, 0x05, 0x78, 0x56, 0x34, 0x12] = .instr (.andi 0x05 0x12345678) [] := by decide
theorem test_decode_ori : decode [0x25, 0x05, 0x78, 0x56, 0x34, 0x12] = .instr (.ori 0x05 0x12345678) [] := by decide
theorem test_decode_xori : decode [0x26, 0x05, 0x78, 0x56, 0x34, 0x12] = .instr (.xori 0x05 0x12345678) [] := by decide
theorem test_decode_shli : decode [0x28, 0x05, 0x78, 0x56, 0x34, 0x12] = .instr (.shli 0x05 0x12345678) [] := by decide
theorem test_decode_shri : decode [0x29, 0x05, 0x78, 0x56, 0x34, 0x12] = .instr (.shri 0x05 0x12345678) [] := by decide
theorem test_decode_fadd : decode [0x30, 0x01, 0x22] = .instr (.fadd 0x01 0x22) [] := by decide
theorem test_decode_fsub : decode [0x31, 0x01, 0x22] = .instr (.fsub 0x01 0x22) [] := by decide
theorem test_decode_fmul : decode [0x32, 0x01, 0x22] = .instr (.fmul 0x01 0x22) [] := by decide
theorem test_decode_fdiv : decode [0x33, 0x01, 0x22] = .instr (.fdiv 0x01 0x22) [] := by decide
theorem test_decode_fmod : decode [0x34, 0x01, 0x22] = .instr (.fmod 0x01 0x22) [] := by decide
theorem test_decode_itof : decode [0x38, 0x3F] = .instr (.itof 0x3F) [] := by decide
theorem test_decode_ftoi : decode [0x39, 0x3F] = .instr (.ftoi 0x3F) [] := by decide
theorem test_decode_cmp : decode [0x40, 0x01, 0x22] = .instr (.cmp 0x01 0x22) [] := by decide
theorem test_decode_cmpi : decode [0x41, 0x05, 0x78, 0x56, 0x34, 0x12] = .instr (.cmpi 0x05 0x12345678) [] := by decide
theorem test_decode_jmp : decode [0x50, 0x1D, 0x2C, 0x3B, 0x4A] = .instr (.jmp 0x4A3B2C1D) [] := by decide
theorem test_decode_jz : decode [0x51, 0x1D, 0x2C, 0x3B, 0x4A] = .instr (.jz 0x4A3B2C1D) [] := by decide
theorem test_decode_jnz : decode [0x52, 0x1D, 0x2C, 0x3B, 0x4A] = .instr (.jnz 0x4A3B2C1D) [] := by decide
theorem test_decode_jg : decode [0x53, 0x1D, 0x2C, 0x3B, 0x4A] = .instr (.jg 0x4A3B2C1D) [] := by decide
theorem test_decode_jl : decode [0x54, 0x1D, 0x2C, 0x3B, 0x4A] = .instr (.jl 0x4A3B2C1D) [] := by decide
theorem test_decode_jge : decode [0x55, 0x1D, 0x2C, 0x3B, 0x4A] = .instr (.jge 0x4A3B2C1D) [] := by decide
theorem test_decode_jle : decode [0x56, 0x1D, 0x2C, 0x3B, 0x4A] = .instr (.jle 0x4A3B2C1D) [] := by decide
theorem test_decode_call : decode [0x58, 0x1D, 0x2C, 0x3B, 0x4A] = .instr (.call 0x4A3B2C1D) [] := by decide
theorem test_decode_ret : decode [0x59] = .instr .ret [] := by decide
theorem test_decode_push : decode [0x60, 0x3F] = .instr (.push 0x3F) [] := by decide
theorem test_decode_pop : decode [0x61, 0x3F] = .instr (.pop 0x3F) [] := by decide
theorem test_decode_inp : decode [0x68, 0x05, 0x78, 0x56, 0x34, 0x12] = .instr (.inp 0x05 0x12345678) [] := by decide
theorem test_decode_out : decode [0x69, 0x05, 0x78, 0x56, 0x34, 0x12] = .instr (.out 0x05 0x12345678) [] := by decide
theorem test_decode_rand : decode [0x70, 0x3F] = .instr (.rand 0x3F) [] := by decide
theorem test_decode_time : decode [0x71, 0x3F] = .instr (.time 0x3F) [] := by decide
theorem test_decode_intr : decode [0x72, 0x21] = .instr (.intr 0x21) [] := by decide
theorem test_decode_loadi : decode [0x80, 0x06, 0x01, 0x03, 0xFF, 0xEE, 0x80, 0x07] = .instr (.loadi 0x06 0x01 0x80EEFF03 0x07) [] := by decide
theorem test_decode_storei : decode [0x81, 0x06, 0x01, 0x03, 0xFF, 0xEE, 0x80, 0x07] = .instr (.storei 0x06 0x01 0x80EEFF03 0x07) [] := by decide
theorem test_decode_dlstart : decode [0x90, 0x02, 0x41, 0x42] = .instr (.dlstart [0x41, 0x42]) [] := by decide
theorem test_decode_dlprimitive : decode [0x91, 0x21] = .instr (.dlprimitive 0x21) [] := by decide
theorem test_decode_dlcolor : decode [0x92, 0x02, 0x41, 0x42] = .instr (.dlcolor [0x41, 0x42]) [] := by decide
theorem test_decode_dlvertex : decode [0x93, 0x00, 0x00, 0x80, 0x3F, 0x01, 0x02, 0x03, 0x04, 0x00, 0x00, 0x80, 0xBF] = .instr (.dlvertex 0x3F800000 0x04030201 0xBF800000) [] := by decide
theorem test_decode_dlend : decode [0x94] = .instr .dlend [] := by decide
theorem test_decode_dlcall : decode [0x95, 0x01, 0x5A, 0x00, 0x00, 0x80, 0x3F, 0x01, 0x02, 0x03, 0x04, 0x00, 0x00, 0x80, 0xBF] = .instr (.dlcall [0x5A] 0x3F800000 0x04030201 0xBF800000) [] := by decide
theorem test_decode_storemodel : decode [0x96, 0x20, 0x02, 0x43, 0x44] = .instr (.storemodel 0x20 [0x43, 0x44]) [] := by decide
theorem test_decode_loadmodel : decode [0x97, 0x3F] = .instr (.loadmodel 0x3F) [] := by decide

theorem test_decode_illegal : decode [0x27, 0x00] = .illegalOpcode 0x27 ∧ decode [0xFF] = .illegalOpcode 0xFF := by decide
theorem test_decode_truncated : decode [0x90, 0x03, 0x41, 0x42] = .truncated ∧ decode [0x01, 0x00, 0x0A] = .truncated := by
  decide
theorem test_decode_leaves_rest : decode [0x60, 0x00, 0xAA, 0xBB] = .instr (.push 0) [0xAA, 0xBB] := by decide
theorem test_encode_longest : (encode (.dlcall (List.replicate 255 0) 0 0 0)).length = maxInstrLength := by decide +kernel
theorem test_table_word : decodeTableWord 48 0x12345678_05_01 = some (.mov 0x05 0x12345678) := by decide
theorem test_fetch_word : after (State.reset.withFetchWord 48 0x12345678_05_01) =
    ((State.reset.withFetchWord 48 0x12345678_05_01).writeInt 5 0x12345678).advance 6 := by decide

/-! ### Single steps -/

/-- E1: MOV G31 0x80000000. -/
theorem test_mov :
    let t := after (boot [0x01, 0x3F, 0x00, 0x00, 0x00, 0x80])
    t.cell 63 = ⟨0x80000000, .integer, []⟩ ∧ t.pc = 6 := by decide

/-- P7: register byte 64 skips the instruction. -/
theorem test_mov_bad_register :
    let t := after (boot [0x01, 0x40, 0x05, 0x00, 0x00, 0x00])
    t.regs = State.reset.regs ∧ t.pc = 6 ∧ t.running = true ∧ t.log = [.skipped .badRegister 0 0x01] := by decide

/-- MV-8: the bits are kept. -/
theorem test_movf :
    let t := after (boot [0x02, 0x02, 0x01, 0x00, 0x00, 0x00])
    t.cell 2 = ⟨0x00000001, .float, []⟩ := by decide

/-- MV-9. -/
theorem test_li :
    let t := after (boot [0x03, 0x3F, 0x05, 0x00, 0x00, 0x00])
    t.cell 63 = ⟨5, .integer, []⟩ := by decide

/-- CV-6: a tie rounds to even. -/
theorem test_itof :
    let t := after ((boot [0x38, 0x02]).writeInt 2 16777219)
    t.cell 2 = ⟨0x4B800002, .float, []⟩ ∧ t.pc = 2 := by decide

/-- CV-9. -/
theorem test_itof_min :
    let t := after ((boot [0x38, 0x02]).writeInt 2 0x80000000)
    t.cell 2 = ⟨0xCF000000, .float, []⟩ := by decide

/-- CV-11: truncation toward zero. -/
theorem test_ftoi :
    let t := after ((boot [0x39, 0x02]).writeFloat 2 0xC039999A)
    t.cell 2 = ⟨0xFFFFFFFE, .integer, []⟩ ∧ t.pc = 2 := by decide

/-- CV-15. -/
theorem test_ftoi_edge :
    let t := after ((boot [0x39, 0x02]).writeFloat 2 0x4EFFFFFF)
    t.cell 2 = ⟨0x7FFFFF80, .integer, []⟩ := by decide

/-- IA-2: wraps to 0 and sets Z. -/
theorem test_add :
    let t := after (ints [0x10, 0x00, 0x01] 0xFFFFFFFF 1)
    t.cell 0 = ⟨0, .integer, []⟩ ∧ t.flags = 1 ∧ t.pc = 3 := by decide

/-- IA-49: only Z changes. -/
theorem test_add_flags :
    let t := after ({ ints [0x10, 0x00, 0x01] 0xFFFFFFFF 1 with flags := 0x3F0 })
    t.flags = 0x3F1 := by decide

/-- IA-6. -/
theorem test_sub :
    let t := after (ints [0x11, 0x00, 0x01] 0x80000000 1)
    t.cell 0 = ⟨0x7FFFFFFF, .integer, []⟩ ∧ t.flags = 0 := by decide

/-- IA-7: a source that is the destination. -/
theorem test_sub_same :
    let t := after ((boot [0x11, 0x03, 0x03]).writeInt 3 0x1234)
    t.cell 3 = ⟨0, .integer, []⟩ ∧ t.flags = 1 := by decide

/-- IA-9. -/
theorem test_mul :
    let t := after (ints [0x12, 0x00, 0x01] 46341 46341)
    t.cell 0 = ⟨0x80001219, .integer, []⟩ ∧ t.flags = 0 := by decide

/-- IA-13: truncates toward zero. -/
theorem test_div :
    let t := after (ints [0x13, 0x00, 0x01] 0xFFFFFFF9 2)
    t.cell 0 = ⟨0xFFFFFFFD, .integer, []⟩ ∧ t.flags = 0 := by decide

/-- IA-20: nothing is written. -/
theorem test_div_zero :
    let t := after ({ ints [0x13, 0x00, 0x01] 5 0 with flags := 0x041 })
    t.cell 0 = ⟨5, .integer, []⟩ ∧ t.flags = 0x041 ∧ t.pc = 3 ∧ t.log = [.divByZero 0] := by decide

/-- IA-22. -/
theorem test_and :
    let t := after (ints [0x14, 0x00, 0x01] 0xF0 0x0F)
    t.cell 0 = ⟨0, .integer, []⟩ ∧ t.flags = 1 := by decide

/-- Hand calculation from R226. -/
theorem test_or :
    let t := after (ints [0x15, 0x00, 0x01] 0xF0 0x0F)
    t.cell 0 = ⟨0xFF, .integer, []⟩ ∧ t.flags = 0 := by decide

/-- IA-24. -/
theorem test_xor :
    let t := after (ints [0x16, 0x00, 0x01] 0x55 0xAA)
    t.cell 0 = ⟨0xFF, .integer, []⟩ ∧ t.flags = 0 := by decide

/-- IA-37. -/
theorem test_not :
    let t := after ((boot [0x17, 0x00]).writeInt 0 0x7FFFFFFF)
    t.cell 0 = ⟨0x80000000, .integer, []⟩ ∧ t.flags = 0 ∧ t.pc = 2 := by decide

/-- IA-27: the count is taken modulo 32. -/
theorem test_shl :
    let t := after (ints [0x18, 0x00, 0x01] 3 33)
    t.cell 0 = ⟨6, .integer, []⟩ ∧ t.flags = 0 := by decide

/-- IA-30: copies of the sign come in. -/
theorem test_shr :
    let t := after (ints [0x19, 0x00, 0x01] 0xFFFFFFF8 1)
    t.cell 0 = ⟨0xFFFFFFFC, .integer, []⟩ ∧ t.flags = 0 := by decide

/-- IA-34. -/
theorem test_shr_count :
    let t := after (ints [0x19, 0x00, 0x01] 16 36)
    t.cell 0 = ⟨1, .integer, []⟩ ∧ t.flags = 0 := by decide

/-- IA-38. -/
theorem test_addi :
    let t := after ((boot [0x20, 0x00, 0xFF, 0xFF, 0xFF, 0xFF]).writeInt 0 1)
    t.cell 0 = ⟨0, .integer, []⟩ ∧ t.flags = 1 ∧ t.pc = 6 := by decide

/-- IA-39. -/
theorem test_subi :
    let t := after ((boot [0x21, 0x00, 0x01, 0x00, 0x00, 0x00]).writeInt 0 0x80000000)
    t.cell 0 = ⟨0x7FFFFFFF, .integer, []⟩ ∧ t.flags = 0 := by decide

/-- IA-40. -/
theorem test_muli :
    let t := after ((boot [0x22, 0x00, 0x00, 0x00, 0x00, 0x00]).writeInt 0 0x1234)
    t.cell 0 = ⟨0, .integer, []⟩ ∧ t.flags = 1 := by decide

/-- IA-42: -2^31 / -1. -/
theorem test_divi :
    let t := after ((boot [0x23, 0x00, 0xFF, 0xFF, 0xFF, 0xFF]).writeInt 0 0x80000000)
    t.cell 0 = ⟨0x80000000, .integer, []⟩ ∧ t.flags = 0 := by decide

/-- IA-43. -/
theorem test_divi_zero :
    let t := after ((boot [0x23, 0x00, 0x00, 0x00, 0x00, 0x00]).writeInt 0 9)
    t.cell 0 = ⟨9, .integer, []⟩ ∧ t.flags = 0 ∧ t.pc = 6 ∧ t.running = true := by decide

/-- IA-44. -/
theorem test_andi :
    let t := after ((boot [0x24, 0x00, 0xFF, 0x00, 0x00, 0x00]).writeInt 0 0x1234)
    t.cell 0 = ⟨0x34, .integer, []⟩ ∧ t.flags = 0 := by decide

/-- IA-45. -/
theorem test_ori :
    let t := after ((boot [0x25, 0x00, 0x00, 0x01, 0x00, 0x00]).writeInt 0 0x0F)
    t.cell 0 = ⟨0x10F, .integer, []⟩ ∧ t.flags = 0 := by decide

/-- IA-46. -/
theorem test_xori :
    let t := after ((boot [0x26, 0x00, 0xFF, 0xFF, 0xFF, 0xFF]).writeInt 0 0)
    t.cell 0 = ⟨0xFFFFFFFF, .integer, []⟩ ∧ t.flags = 0 := by decide

/-- IA-47. -/
theorem test_shli :
    let t := after ((boot [0x28, 0x00, 0x1F, 0x00, 0x00, 0x00]).writeInt 0 1)
    t.cell 0 = ⟨0x80000000, .integer, []⟩ ∧ t.flags = 0 := by decide

/-- IA-48. -/
theorem test_shri :
    let t := after ((boot [0x29, 0x00, 0x04, 0x00, 0x00, 0x00]).writeInt 0 0x100)
    t.cell 0 = ⟨0x10, .integer, []⟩ ∧ t.flags = 0 := by decide

/-- FA-4. -/
theorem test_fadd :
    let t := after (floats [0x30, 0x00, 0x01] 0x3DCCCCCD 0x3E4CCCCD)
    t.cell 0 = ⟨0x3E99999A, .float, []⟩ ∧ t.flags = 0 ∧ t.pc = 3 := by decide

/-- FA-7. -/
theorem test_fadd_overflow :
    let t := after (floats [0x30, 0x00, 0x01] 0x7F7FFFFF 0x7F7FFFFF)
    t.cell 0 = ⟨0x7F800000, .float, []⟩ ∧ t.flags = 0 := by decide

/-- FA-9. -/
theorem test_fsub :
    let t := after (floats [0x31, 0x00, 0x01] 0x3F800000 0x40000000)
    t.cell 0 = ⟨0xBF800000, .float, []⟩ ∧ t.flags = 0 := by decide

/-- FA-11: -0.0 less +0.0. -/
theorem test_fsub_zero :
    let t := after (floats [0x31, 0x00, 0x01] 0x80000000 0x00000000)
    t.cell 0 = ⟨0x80000000, .float, []⟩ ∧ t.flags = 0 := by decide

/-- FA-17: a subnormal, a tie to even. -/
theorem test_fmul :
    let t := after (floats [0x32, 0x00, 0x01] 0x00000003 0x3F000000)
    t.cell 0 = ⟨0x00000002, .float, []⟩ ∧ t.flags = 0 := by decide

/-- FA-14. -/
theorem test_fmul_zero :
    let t := after (floats [0x32, 0x00, 0x01] 0x80000000 0x40A00000)
    t.cell 0 = ⟨0x80000000, .float, []⟩ ∧ t.flags = 0 := by decide

/-- FA-20. -/
theorem test_fdiv :
    let t := after (floats [0x33, 0x00, 0x01] 0x3F800000 0x40400000)
    t.cell 0 = ⟨0x3EAAAAAB, .float, []⟩ ∧ t.flags = 0 := by decide

/-- FA-25: a divisor of -0.0 leaves the register. -/
theorem test_fdiv_zero :
    let t := after (floats [0x33, 0x00, 0x01] 0x40E00000 0x80000000)
    t.cell 0 = ⟨0x40E00000, .float, []⟩ ∧ t.flags = 0 ∧ t.log = [.divByZero 0] := by decide

/-- FA-28: the sign of the dividend. -/
theorem test_fmod :
    let t := after (floats [0x34, 0x00, 0x01] 0xC0B00000 0x40000000)
    t.cell 0 = ⟨0xBFC00000, .float, []⟩ ∧ t.flags = 0 := by decide

/-- FA-32. -/
theorem test_fmod_zero :
    let t := after (floats [0x34, 0x00, 0x01] 0x80000000 0x40400000)
    t.cell 0 = ⟨0x80000000, .float, []⟩ ∧ t.flags = 0 := by decide

/-- CP-8: GE and LE are kept. -/
theorem test_cmp :
    let t := after ({ boot [0x40, 0x00, 0x01] with flags := 0x1F0 })
    t.flags = 0x1C1 ∧ t.pc = 3 := by decide

/-- CP-2. -/
theorem test_cmp_signed :
    let t := after (ints [0x40, 0x00, 0x01] 0x80000000 0x7FFFFFFF)
    t.flags = 0x020 := by decide

/-- E3: 11 compared with 10. -/
theorem test_cmpi :
    let t := after ((boot [0x41, 0x00, 0x0A, 0x00, 0x00, 0x00]).writeInt 0 11)
    t.flags = 0x090 ∧ t.pc = 6 := by decide

/-- Hand calculation from R272: ERR is kept and the mask is cleared first. -/
theorem test_cmpi_err :
    let t := after ({ (boot [0x41, 0x00, 0x05, 0x00, 0x00, 0x00]).writeInt 0 3 with flags := 0x3F0 })
    t.flags = 0x320 := by decide

/-- CT-1. -/
theorem test_jmp :
    let t := after ({ boot [0x50, 0x0B, 0x00, 0x00, 0x00] with flags := 0, programLength := 16 })
    t.pc = 11 ∧ t.running = true := by decide

/-- CT-2: the target is the program's length. -/
theorem test_jmp_bad :
    let t := after ({ boot [0x50, 0x10, 0x00, 0x00, 0x00] with programLength := 16 })
    t.pc = 0 ∧ t.running = false ∧ t.stop = 0x04 ∧ t.log = [.halted .badTarget 0] := by decide

/-- CT-4. -/
theorem test_jz :
    let t := after ({ boot [0x51, 0x0B, 0x00, 0x00, 0x00] with flags := 1, programLength := 16 })
    t.pc = 11 ∧ t.running = true := by decide

/-- CT-6: an untaken jump does not check its target. -/
theorem test_jz_not_taken :
    let t := after ({ boot [0x51, 0xFF, 0xFF, 0xFF, 0xFF] with flags := 0, programLength := 16 })
    t.pc = 5 ∧ t.running = true := by decide

/-- Hand calculation from R293. -/
theorem test_jnz :
    let t := after ({ boot [0x52, 0x0B, 0x00, 0x00, 0x00] with flags := 0, programLength := 16 })
    t.pc = 11 ∧ t.running = true := by decide

/-- CT-9. -/
theorem test_jnz_not_taken :
    let t := after ({ boot [0x52, 0x0B, 0x00, 0x00, 0x00] with flags := 0x041, programLength := 16 })
    t.pc = 5 ∧ t.running = true := by decide

/-- CT-10. -/
theorem test_jg :
    let t := after ({ boot [0x53, 0x0B, 0x00, 0x00, 0x00] with flags := 0x010, programLength := 16 })
    t.pc = 11 ∧ t.running = true := by decide

/-- CT-11. -/
theorem test_jg_ge :
    let t := after ({ boot [0x53, 0x0B, 0x00, 0x00, 0x00] with flags := 0x080, programLength := 16 })
    t.pc = 5 ∧ t.running = true := by decide

/-- CT-12. -/
theorem test_jl :
    let t := after ({ boot [0x54, 0x0B, 0x00, 0x00, 0x00] with flags := 0x020, programLength := 16 })
    t.pc = 11 ∧ t.running = true := by decide

/-- CT-13. -/
theorem test_jge :
    let t := after ({ boot [0x55, 0x0B, 0x00, 0x00, 0x00] with flags := 0x041, programLength := 16 })
    t.pc = 11 ∧ t.running = true := by decide

/-- CT-14. -/
theorem test_jge_ge :
    let t := after ({ boot [0x55, 0x0B, 0x00, 0x00, 0x00] with flags := 0x080, programLength := 16 })
    t.pc = 5 ∧ t.running = true := by decide

/-- CT-16. -/
theorem test_jle :
    let t := after ({ boot [0x56, 0x0B, 0x00, 0x00, 0x00] with flags := 0x020, programLength := 16 })
    t.pc = 11 ∧ t.running = true := by decide

/-- CT-18. -/
theorem test_jle_le :
    let t := after ({ boot [0x56, 0x0B, 0x00, 0x00, 0x00] with flags := 0x100, programLength := 16 })
    t.pc = 5 ∧ t.running = true := by decide

/-- SR-1: CALL 5. -/
theorem test_call :
    let t := after (boot [0x58, 0x05, 0x00, 0x00, 0x00, 0x00])
    t.callStack = [5] ∧ t.pc = 5 := by decide

/-- SR-2: nothing is pushed. -/
theorem test_call_bad :
    let t := after (boot [0x58, 0x06, 0x00, 0x00, 0x00])
    t.callStack = [] ∧ t.stop = 0x04 ∧ t.pc = 0 := by decide

/-- SR-4, over a deeper stack. -/
theorem test_ret :
    let t := after ({ boot [0x59] with programLength := 16, callStack := [9, 5] })
    t.callStack = [9] ∧ t.pc = 5 := by decide

/-- SR-5: the stack is left. -/
theorem test_ret_bad :
    let t := after ({ boot [0x59] with programLength := 16, callStack := [3, 20] })
    t.callStack = [3, 20] ∧ t.stop = 0x04 ∧ t.pc = 0 := by decide

/-- ST-1. -/
theorem test_push :
    let t := after ((boot [0x60, 0x03]).writeInt 3 42)
    t.operandStack = [42] ∧ t.pc = 2 := by decide

/-- ST-4. -/
theorem test_push_full :
    let t := after ({ boot [0x60, 0x00] with operandStack := List.replicate 256 7 })
    t.operandStack.length = 256 ∧ t.stop = 0x10 ∧ t.pc = 0 := by decide +kernel

/-- ST-2. -/
theorem test_pop :
    let t := after ({ boot [0x61, 0x04] with operandStack := [7, 9] })
    t.cell 4 = ⟨9, .integer, []⟩ ∧ t.operandStack = [7] := by decide

/-- ST-3. -/
theorem test_pop_empty :
    let t := after ((boot [0x61, 0x04]).writeInt 4 6)
    t.cell 4 = ⟨6, .integer, []⟩ ∧ t.stop = 0x11 ∧ t.pc = 0 ∧ t.log = [.faulted .stackUnderflow 0] := by decide

/-- IO-1. -/
theorem test_in :
    let t := after ({ boot [0x68, 0x05, 0x10, 0x00, 0x00, 0x00] with mem := (boot [0x68, 0x05, 0x10, 0x00, 0x00, 0x00]).mem.store .io 0x10 [0x81] })
    t.cell 5 = ⟨0x81, .integer, []⟩ ∧ t.pc = 6 := by decide

/-- IO-3: port 256. -/
theorem test_in_range :
    let t := after ((boot [0x68, 0x00, 0x00, 0x01, 0x00, 0x00]).writeInt 0 0x55)
    t.cell 0 = ⟨0x55, .integer, []⟩ ∧ t.flags = 0x200 ∧ t.pc = 6 := by decide

/-- IO-4. -/
theorem test_out :
    let t := after ((boot [0x69, 0x00, 0x00, 0x00, 0x00, 0x00]).writeInt 0 0x1FF)
    t.mem.io = [(0, 0xFF)] ∧ t.pc = 6 := by decide

/-- IO-6. -/
theorem test_out_range :
    let t := after ((boot [0x69, 0x00, 0x00, 0x01, 0x00, 0x00]).writeInt 0 1)
    t.mem.io = [] ∧ t.flags = 0x200 := by decide

/-- MI-1: any value, tag Integer. -/
theorem test_rand :
    let t := after ((boot [0x70, 0x07]).writeFloat 7 1)
    (t.cell 7).tag = .integer ∧ t.randDraws = 1 ∧ t.pc = 2 := by decide

/-- MI-2: any value, tag Integer. -/
theorem test_time :
    let t := after ((boot [0x71, 0x07]).writeFloat 7 1)
    (t.cell 7).tag = .integer ∧ t.tickDraws = 1 ∧ t.pc = 2 := by decide

/-- MI-3. -/
theorem test_int :
    let t := after (boot [0x72, 0x21])
    t = { boot [0x72, 0x21] with pc := 2, log := [.unimplementedInterrupt 0x21] } := by decide

/-- MI-5, at address 0. -/
theorem test_hlt :
    let t := after (boot [0x00])
    t.running = false ∧ t.stop = 0x01 ∧ t.pc = 1 := by decide

/-- IM-6: the offset is read before the write. -/
theorem test_loadi :
    let t := after ({ (boot [0x80, 0x06, 0x01, 0x02, 0x00, 0x00, 0x00, 0x02]).writeInt 2 8 with
      mem := (boot [0x80, 0x06, 0x01, 0x02, 0x00, 0x00, 0x00, 0x02]).mem.store .scratch 8 [1, 0, 0, 0x80] })
    t.cell 2 = ⟨0x80000001, .integer, []⟩ ∧ t.flags = 0 ∧ t.pc = 8 := by decide

/-- IM-5: a negative offset is out of range. -/
theorem test_loadi_negative :
    let t := after ((boot [0x80, 0x06, 0x01, 0x02, 0x00, 0x00, 0x00, 0x01]).writeInt 2 0xFFFFFFFF)
    t.cell 1 = ⟨0, .integer, []⟩ ∧ t.flags = 0x200 ∧ t.pc = 8 := by decide

/-- IM-15: the high offset bytes are ignored. -/
theorem test_storei :
    let t := after (((boot [0x81, 0x06, 0x01, 0x05, 0xFF, 0xFF, 0xFF, 0x00]).writeInt 5 4).writeInt 0 0x01020007)
    t.mem.scratch = [(4, 0x07), (6, 0x02), (7, 0x01)] ∧ t.pc = 8 := by decide

/-- IM-10: the bounds are checked before the ROM drop. -/
theorem test_storei_rom :
    let t := after ((boot [0x81, 0x03, 0x00, 0xFD, 0xFF, 0x0F, 0x00, 0x00]).writeInt 0 1)
    t.mem.rom = [] ∧ t.flags = 0x200 := by decide

/-- P8, first step. -/
theorem test_dlstart :
    let t := after (boot [0x90, 0x01, 0x41])
    t.dl = ⟨[], some (nameA, [])⟩ ∧ t.pc = 3 := by decide

/-- DL-2: the open check is first. -/
theorem test_dlstart_open :
    let t := after ({ boot [0x90, 0x01, 0x41] with dl := ⟨[(nameA, [])], some (nameA, [])⟩ })
    t.stop = 0x13 ∧ t.pc = 0 := by decide

/-- Hand calculation from R391. -/
theorem test_dlprimitive :
    let t := after ({ boot [0x91, 0x03] with dl := ⟨[], some (nameA, prims 254)⟩ })
    t.dl.building = some (nameA, prims 254 ++ [.prim 3]) ∧ t.pc = 2 := by decide +kernel

/-- DL-17. -/
theorem test_dlprimitive_full :
    let t := after ({ boot [0x91, 0x00] with dl := ⟨[], some (nameA, prims 255)⟩ })
    t.stop = 0x17 ∧ t.dl = ⟨[], some (nameA, prims 255)⟩ ∧ t.pc = 0 := by decide +kernel

/-- DL-10: the prefix 0x. -/
theorem test_dlcolor :
    let t := after ({ boot [0x92, 0x08, 0x30, 0x78, 0x30, 0x30, 0x30, 0x30, 0x46, 0x46] with dl := ⟨[], some (nameA, [])⟩ })
    t.dl.building = some (nameA, [.color 0 0 255]) ∧ t.pc = 10 := by decide

/-- DL-8. -/
theorem test_dlcolor_bad :
    let t := after ({ boot [0x92, 0x04, 0x23, 0x46, 0x46, 0x46] with dl := ⟨[], some (nameA, [])⟩ })
    t.stop = 0x18 ∧ t.pc = 0 := by decide

/-- P5, second vertex. -/
theorem test_dlvertex :
    let t := after ({ boot [0x93, 0x00, 0x00, 0x00, 0x00, 0x00, 0x00, 0x80, 0x3F, 0x00, 0x00, 0x00, 0x00] with dl := ⟨[], some (nameA, [])⟩ })
    t.dl.building = some (nameA, [.vertex 0 0x3F800000 0]) ∧ t.pc = 13 := by decide

/-- P5: the list is sealed. -/
theorem test_dlend :
    let t := after ({ boot [0x94] with dl := ⟨[], some (nameA, [.prim 3])⟩ })
    t.dl = ⟨[(nameA, [.prim 3])], none⟩ ∧ t.pc = 1 := by decide

/-- DL-4. -/
theorem test_dlend_closed :
    let t := after (boot [0x94])
    t.stop = 0x14 ∧ t.pc = 0 := by decide

/-- VS-3: the empty list. -/
theorem test_dlcall :
    let t := after ({ boot [0x95, 0x00, 0x00, 0x00, 0x00, 0x00, 0x00, 0x00, 0x00, 0x00, 0x00, 0x00, 0x00, 0x00] with dl := ⟨[([], [])], none⟩ })
    t.mem.video = [(0, 0xD1)] ∧ t.vcur = 5 ∧ t.renderCalls = [⟨[], 0, 0, 0, some (0, 5)⟩] ∧ t.pc = 14 := by decide

/-- VS-4, one byte short for a record of 5 bytes. -/
theorem test_dlcall_no_fit :
    let t := after ({ boot [0x95, 0x00, 0x00, 0x00, 0x00, 0x00, 0x00, 0x00, 0x00, 0x00, 0x00, 0x00, 0x00, 0x00] with dl := ⟨[([], [])], none⟩, vcur := 262140 })
    t.mem.video = [] ∧ t.vcur = 262140 ∧ t.renderCalls = [] ∧ t.flags = 0x200 ∧ t.pc = 14 := by decide

/-- P5. -/
theorem test_storemodel :
    let t := after ((boot [0x96, 0x20, 0x04, 0x43, 0x55, 0x42, 0x45]).writeInt 32 9)
    t.cell 32 = ⟨0, .model, [0x43, 0x55, 0x42, 0x45]⟩ ∧ t.pc = 7 := by decide

/-- DL-18. -/
theorem test_storemodel_bad_register :
    let t := after (boot [0x96, 0x40, 0x01, 0x41])
    t.regs = State.reset.regs ∧ t.pc = 4 ∧ t.running = true := by decide

/-- VS-2, for SE-4 at the very end of Video (16 bytes). -/
theorem test_loadmodel :
    let t := after ({ (boot [0x97, 0x05]).writeModel 5 nameA with
      dl := ⟨[(nameA, [.color 1 2 3, .prim 0, .color 4 5 6])], none⟩, vcur := 262128 })
    t.mem.span .video 262128 16 = [0xD1, 0x01, 0x41, 0x00, 0x02, 0x01, 0x02, 0x01, 0x02, 0x03, 0x01, 0x00, 0x02, 0x04, 0x05, 0x06] ∧ t.vcur = 262144 ∧ t.renderCalls = [] ∧ t.pc = 2 := by decide

/-- DL-14. -/
theorem test_loadmodel_unknown :
    let t := after ((boot [0x97, 0x05]).writeModel 5 [0x5A])
    t.stop = 0x16 ∧ t.pc = 0 ∧ t.cell 5 = ⟨0, .model, [0x5A]⟩ := by decide

/-! ### The step itself -/

/-- P7: an illegal opcode byte halts. -/
theorem test_step_illegal : (after (boot [0xFF, 0x00])).stop = 0x03 ∧ (after (boot [0xFF, 0x00])).pc = 0 := by decide

/-- RS-6: with no program the step halts END_OF_PROGRAM; R131: so it does for an instruction cut short. -/
theorem test_step_end : (after State.reset).stop = 0x02 ∧ (after (boot [0x01, 0x00])).stop = 0x02 := by decide

/-- RS-2 and MI-6: a stopped CPU does nothing. -/
theorem test_step_stopped : after State.atPowerOn = State.atPowerOn := by decide

/-- The core is the machine of Step.lean. -/
theorem test_core_reset : Sys2Proof.core.reset = State.reset := by rfl

/-! ### Serialisers, host and assembler -/

/-- SE-2 and S3-4. -/
theorem test_serialize : serialize [0x43, 0x55, 0x42, 0x45] [.prim 3, .vertex 0x3F800000 0 0]
      = [0xD1, 0x04, 0x43, 0x55, 0x42, 0x45, 0x01, 0x00, 0x01, 0x01, 0x03, 0x03, 0x00, 0x00, 0x80, 0x3F, 0, 0, 0, 0, 0, 0, 0, 0]
    ∧ serializeAs3D [.prim 1, .prim 4] = [0x04, 0, 0, 0, 0, 0, 0, 0, 0, 0, 0, 0, 0, 0, 0, 0] := by decide

/-- DS-2 to DS-6 in short: trailing bytes, a wrong magic, a missing command, a wrong tag, a wrong count. -/
theorem test_deserialize : deserialize [0xD1, 0, 0, 0, 1, 1, 7, 0xAA] = some ([], [.prim 7], 7)
    ∧ deserialize [0xD0, 0, 0, 0, 0] = none ∧ deserialize [0xD1, 0, 0, 0, 1] = none
    ∧ deserialize [0xD1, 0, 0, 0, 1, 4, 0] = none ∧ deserialize [0xD1, 0, 1, 0, 0, 1, 0] = none := by decide

/-- 20_memory.md R83, R92: a host write to ROM in range is dropped, one out of range fails; a copy of overlapping spans. -/
theorem test_host_memory :
    (State.reset.hostWrite 3 0 9).toOption.map (fun s => s.mem.rom) = some []
    ∧ (State.reset.hostWrite 3 0x100000 9).toOption = none
    ∧ ((({ State.reset with mem := State.reset.mem.store .cache 0 [1, 2, 3] } : State).hostCopyBlock 5 0 5 1 3).toOption.map
        fun s => s.mem.span .cache 0 4) = some [1, 1, 2, 3] := by decide

/-- AS-32 and AS-33 in short: an alias with a forward label, and a label's first definition. -/
theorem test_assemble_labels :
    (assemble (ascii "JE X\nX: RET")).1 = [0x51, 0x05, 0x00, 0x00, 0x00, 0x59] := by decide +kernel

/-- AS-2, either operand order; AS-5, a malformed register is register 0 with a diagnostic. -/
theorem test_assemble_operands :
    (assemble (ascii "LI 5 R0")).1 = [0x03, 0x00, 0x05, 0x00, 0x00, 0x00]
    ∧ (assemble (ascii "ADD R32 R1")).1 = [0x10, 0x00, 0x01]
    ∧ (assemble (ascii "ADD R32 R1")).2.map (fun d => d.kind) = [.badRegisterToken] := by decide +kernel

/-- AS-13: a decimal literal. -/
theorem test_assemble_float : (assemble (ascii "MOVF R1 -2.75")).1 = [0x02, 0x01, 0x00, 0x00, 0x30, 0xC0] := by decide +kernel
/-! ### A concrete input for each statement with hypotheses: at each boundary of each clause -/

/-- The register clauses: the last index, and the first that skips. -/
theorem witness_registerIndex : (0x3F : Byte).toNat < 64 ∧ ¬ (0x40 : Byte).toNat < 64 := by decide

/-- The read clauses: a cell with the tag expected is readable under both policies. -/
theorem witness_readable : readable State.reset .integer 63 = true
    ∧ readable (State.reset.writeFloat 63 1) .float 63 = true := by decide

/-- The read clauses: a cell with another tag is unreadable under the Fault policy and readable under Reinterpret. -/
theorem witness_unreadable :
    (Config.tagPolicy = .fault → readable (State.reset.writeFloat 0 1) .integer 0 = false)
    ∧ (Config.tagPolicy = .reinterpret → readable (State.reset.writeFloat 0 1) .integer 0 = true) := by
  have tag : ((State.reset.writeFloat 0 1).cell 0).tag = .float := by decide
  constructor <;> intro h <;> simp only [readable, tag, h] <;> decide

theorem witness_DecodeOfEncode : (Instr.dlstart (List.replicate 255 0)).wellFormed = true := by decide +kernel

theorem witness_EncodeOfDecode : decode [0x60, 0x3F, 0xAA] = .instr (.push 0x3F) [0xAA] := by decide

theorem witness_IllegalOpcodesHalt :
    decode [0x04] = .illegalOpcode 0x04 ∧ decode [0x03] = .truncated ∧ decode [0x98] = .illegalOpcode 0x98
    ∧ decode [0x97] = .truncated := by decide

theorem witness_StepRunsDecoded :
    let s := boot [0x01, 0x3F, 0x78, 0x56, 0x34, 0x12]
    let i := Instr.mov 0x3F 0x12345678
    s.running = true ∧ i.wellFormed = true ∧ s.pc.toNat + i.len = s.programLength.toNat
    ∧ s.programLength.toNat ≤ Config.sizeCode ∧ s.mem.span .code s.pc.toNat i.len = encode i := by decide

theorem witness_StepStopsAtFetch_stopped : State.atPowerOn.running = false := by decide

theorem witness_StepStopsAtFetch_end :
    State.reset.running = true ∧ State.reset.programLength.toNat = State.reset.pc.toNat := by decide

theorem witness_IllegalOpcodesHalt_step :
    let s := boot [0xFF]
    s.running = true ∧ s.pc.toNat < s.programLength.toNat ∧ s.programLength.toNat ≤ Config.sizeCode
    ∧ decode [s.mem.byte .code s.pc.toNat] = .illegalOpcode (s.mem.byte .code s.pc.toNat) := by decide

theorem witness_StepStopsAtFetch_cut :
    let s := boot [0x90]
    let i := Instr.dlstart []
    s.running = true ∧ s.pc.toNat < s.programLength.toNat ∧ s.programLength.toNat ≤ Config.sizeCode
    ∧ i.wellFormed = true ∧ s.programLength.toNat < s.pc.toNat + i.len
    ∧ ∀ k, (h : k < (encode i).length) → s.pc.toNat + k < s.programLength.toNat →
        s.mem.byte .code (s.pc.toNat + k) = (encode i)[k] := by decide

/-- FTOI: a NaN, an infinity, the first value above the range, the last in it, the last below it and the first in it. -/
theorem witness_FtoiTruncates :
    f32IsNan 0x7FC00000 = true ∧ f32IsInf 0xFF800000 = true
    ∧ 2 ^ 31 - 1 < (f32Units 0x4F000000).tdiv (2 ^ 149) ∧ ¬ 2 ^ 31 - 1 < (f32Units 0x4EFFFFFF).tdiv (2 ^ 149)
    ∧ (f32Units 0xCF000001).tdiv (2 ^ 149) < -2 ^ 31 ∧ ¬ (f32Units 0xCF000000).tdiv (2 ^ 149) < -2 ^ 31 := by
  decide +kernel

theorem witness_ConversionRoundTrips :
    (0x01000000 : Word).toInt.natAbs = 2 ^ 24 ∧ (0xFF000000 : Word).toInt.natAbs = 2 ^ 24 ∧ f2i 0xC039999A = some 0xFFFFFFFE := by
  decide +kernel

/-- DIV and DIVI: a divisor of 0, and one that is not. -/
theorem witness_DivTruncates : ((ints [] 5 0).cell 1).bits = 0 ∧ ((ints [] 5 1).cell 1).bits ≠ 0 := by decide

/-- FDIV and FMOD: both zeros, and the smallest value that is neither. -/
theorem witness_FloatDivMod :
    ((floats [] 1 0x80000000).cell 1).bits = 0x80000000 ∧ ((floats [] 1 0).cell 1).bits = 0
    ∧ ((floats [] 1 1).cell 1).bits ≠ 0 ∧ ((floats [] 1 1).cell 1).bits ≠ 0x80000000 := by decide

/-- A tie between two patterns, and the two sides of the infinity bound. -/
theorem witness_RoundsToNearestEven :
    roundUnits (2 ^ 24 + 1) 1 < infinityPattern ∧ roundUnits 3 2 = 2
    ∧ ((2 ^ 24 + 1 : Int) - 1 * magnitudeUnits (roundUnits (2 ^ 24 + 1) 1)).natAbs
        = ((2 ^ 24 + 1 : Int) - 1 * magnitudeUnits (roundUnits (2 ^ 24 + 1) 1 + 1)).natAbs
    ∧ 1 * ((2 ^ 25 - 1) * 2 ^ 253) = 2 * ((2 ^ 25 - 1) * 2 ^ 252)
    ∧ roundUnits ((2 ^ 25 - 1) * 2 ^ 252) 1 = infinityPattern
    ∧ roundUnits ((2 ^ 25 - 1) * 2 ^ 252 - 1) 1 = infinityPattern - 1 := by decide +kernel

theorem witness_FmodExact :
    f32Magnitude 0xFF7FFFFF < infinityPattern ∧ f32Magnitude 0x00000001 < infinityPattern ∧ f32IsZero 0x00000001 = false := by
  decide +kernel

/-- The transfers: the last valid target, and the first bad one; a condition that holds, and one that does not. -/
theorem witness_JumpsTransfer :
    (15 : Word).toNat < ({ boot [] with programLength := 16 } : State).programLength.toNat
    ∧ ¬ (16 : Word).toNat < ({ boot [] with programLength := 16 } : State).programLength.toNat
    ∧ (1 : Word).getLsbD 0 = true ∧ (0 : Word).getLsbD 0 = false := by decide

/-- CALL: a bad target with a full stack too; a valid target with the stack full; and with one entry free. -/
theorem witness_CallPushesReturn :
    let s := boot [0x58, 0, 0, 0, 0]
    s.programLength.toNat ≤ (5 : Word).toNat ∧ ¬ s.programLength.toNat ≤ (4 : Word).toNat
    ∧ 256 ≤ (List.replicate 256 (0 : Word)).length ∧ ¬ 256 ≤ (List.replicate 255 (0 : Word)).length := by decide +kernel

theorem witness_RetPopsReturn :
    State.reset.callStack = [] ∧ ({ boot [0x59] with callStack := [9, 0] } : State).callStack = [9] ++ [0]
    ∧ (0 : Word).toNat < (boot [0x59]).programLength.toNat ∧ ¬ (1 : Word).toNat < (boot [0x59]).programLength.toNat := by
  decide

theorem witness_PushAppends :
    256 ≤ ({ State.reset with operandStack := List.replicate 256 0 } : State).operandStack.length
    ∧ ¬ 256 ≤ ({ State.reset with operandStack := List.replicate 255 0 } : State).operandStack.length := by decide +kernel

theorem witness_PopTakesLast :
    State.reset.operandStack = [] ∧ ({ State.reset with operandStack := [7, 9] } : State).operandStack = [7] ++ [9] := by
  decide

/-- IN and OUT: the last port, and the first out of range. -/
theorem witness_ports : (255 : Word).toNat < 256 ∧ ¬ (256 : Word).toNat < 256 := by decide

theorem witness_TimeDraws : 0 ≤ 1 := by decide

/-- LOADI and STOREI: the kinds at their boundary, the last domain number and the first that is none, the last span in
range, the first that is not, a negative offset, and ROM. -/
theorem witness_offsets :
    (0 : Byte).toNat < 2 ∧ (1 : Byte) ≠ 0 ∧ ¬ 2 ≤ (1 : Byte).toNat ∧ 2 ≤ (2 : Byte).toNat
    ∧ Domain.ofNumber 6 = some .scratch ∧ Domain.ofNumber 7 = none ∧ Domain.ofNumber 3 = some .rom
    ∧ ((0 : Int) ≤ 252 ∧ (252 : Int) + 4 ≤ Domain.io.size) ∧ ¬ ((253 : Int) + 4 ≤ Domain.io.size)
    ∧ ¬ ((0 : Int) ≤ (0xFFFFFFFF : Word).toInt) := by decide

theorem witness_DomainTable : 7 ≤ (7 : Byte).toNat := by decide

/-- A write that ends at its domain's end, one byte beyond it, and one to ROM. -/
theorem witness_WriteThenRead :
    ((0 : Int) ≤ 254 ∧ (254 : Int) + ([1, 2] : Bytes).length ≤ Domain.io.size)
    ∧ ¬ ((255 : Int) + ([1, 2] : Bytes).length ≤ Domain.io.size)
    ∧ ((0 : Int) ≤ 1048574 ∧ (1048574 : Int) + ([1, 2] : Bytes).length ≤ Domain.rom.size) := by decide

theorem witness_DlstartOpens :
    (⟨[(nameA, [])], some (nameA, [])⟩ : DlManager).building ≠ none
    ∧ nameA ∈ (⟨[(nameA, [])], none⟩ : DlManager).lists.map (·.1)
    ∧ nameA ∉ (⟨[([], [])], none⟩ : DlManager).lists.map (·.1) := by decide

theorem witness_DlprimitiveDlvertexAppend :
    let p : Instr × Bytes × Nat × DlCommand × (DlCommand → Bool) :=
      (.dlprimitive 3, [0x91, 3], 2, .prim 3, DlCommand.isPrim)
    ((∃ b, p = (.dlprimitive b, [0x91, b], 2, .prim b, DlCommand.isPrim))
      ∨ ∃ x y z, p = (.dlvertex x y z, 0x93 :: (le32 x ++ le32 y ++ le32 z), 13, .vertex x y z, DlCommand.isVertex))
    ∧ 255 ≤ (prims 255).countP p.2.2.2.2 ∧ ¬ 255 ≤ (prims 254).countP p.2.2.2.2 :=
  ⟨.inl ⟨3, rfl⟩, by decide +kernel, by decide +kernel⟩

/-- The same of DLVERTEX. -/
theorem witness_DlprimitiveDlvertexAppend_vertex :
    let p : Instr × Bytes × Nat × DlCommand × (DlCommand → Bool) :=
      (.dlvertex 1 2 3, 0x93 :: (le32 1 ++ le32 2 ++ le32 3), 13, .vertex 1 2 3, DlCommand.isVertex)
    ((∃ b, p = (.dlprimitive b, [0x91, b], 2, .prim b, DlCommand.isPrim))
      ∨ ∃ x y z, p = (.dlvertex x y z, 0x93 :: (le32 x ++ le32 y ++ le32 z), 13, .vertex x y z, DlCommand.isVertex))
    ∧ 255 ≤ (List.replicate 255 (DlCommand.vertex 0 0 0)).countP p.2.2.2.2
    ∧ ¬ 255 ≤ (List.replicate 254 (DlCommand.vertex 0 0 0)).countP p.2.2.2.2 :=
  ⟨.inr ⟨1, 2, 3, rfl⟩, by decide +kernel, by decide +kernel⟩

theorem witness_DlcolorAppends :
    parseColor [0x23, 0x46, 0x46, 0x38, 0x30, 0x30, 0x30] = some (255, 128, 0) ∧ parseColor [0x23, 0x46, 0x46, 0x46] = none
    ∧ 255 ≤ (List.replicate 255 (DlCommand.color 0 0 0)).countP DlCommand.isColor
    ∧ ¬ 255 ≤ (List.replicate 254 (DlCommand.color 0 0 0)).countP DlCommand.isColor := by decide +kernel

/-- A colour text with each prefix and one with none. -/
theorem witness_ColorTextSyntax :
    parseColor [0x30, 0x30, 0x66, 0x66, 0x30, 0x30] = some (0, 255, 0)
    ∧ parseColor [0x23, 0x30, 0x30, 0x66, 0x66, 0x30, 0x30] = some (0, 255, 0)
    ∧ parseColor [0x30, 0x78, 0x30, 0x30, 0x66, 0x66, 0x30, 0x30] = some (0, 255, 0)
    ∧ parseColor [0x30, 0x58, 0x30, 0x30, 0x66, 0x66, 0x30, 0x30] = some (0, 255, 0)
    ∧ parseColor [0x23, 0x23, 0x30, 0x30, 0x66, 0x66, 0x30, 0x30] = none := by decide

/-- The first and the last digit of each range, and the bytes beside the ranges. -/
theorem witness_ColorTextSyntax_digits :
    (IsHexDigit 0x30 0 ∧ IsHexDigit 0x39 9 ∧ IsHexDigit 0x41 10 ∧ IsHexDigit 0x46 15 ∧ IsHexDigit 0x61 10
      ∧ IsHexDigit 0x66 15)
    ∧ ∀ d ∈ ([0x2F, 0x3A, 0x40, 0x47, 0x60, 0x67] : List Byte), ∀ v, ¬ IsHexDigit d v := by
  unfold IsHexDigit
  refine ⟨by decide, fun d hd v => ?_⟩
  simp only [List.mem_cons, List.not_mem_nil, or_false] at hd
  rcases hd with rfl | rfl | rfl | rfl | rfl | rfl <;> simp <;> omega

theorem witness_DlendSeals :
    State.reset.dl.building = none
    ∧ ({ State.reset with dl := ⟨[], some (nameA, [.prim 3])⟩ } : State).dl.building = some (nameA, [.prim 3]) := by decide

/-- DLCALL and LOADMODEL: an unsealed name, a record that ends at Video's end, and one that ends one byte beyond it. -/
theorem witness_records :
    lookupList State.reset.dl.lists nameA = none ∧ lookupList [(nameA, [])] nameA = some []
    ∧ (262138 : Word).toNat + (serialize nameA []).length ≤ 262144
    ∧ ¬ (262139 : Word).toNat + (serialize nameA []).length ≤ 262144 := by decide

theorem witness_LoadmodelStores :
    ((State.reset.writeModel 5 nameA).cell 5).tag = .model ∧ (State.reset.cell 5).tag ≠ .model := by decide

theorem witness_RecordRoundTrip : ListOk (List.replicate 255 0x41) (prims 255) := by
  unfold ListOk; decide +kernel

/-- A record with a command of each kind, written out from R377. -/
theorem witness_RecordRoundTrip_bytes :
    let cmds : List DlCommand := [.vertex 0x3F800000 0 0x04030201, .prim 3, .color 255 128 0, .prim 4]
    tagCount 0x03 cmds = 1 ∧ tagCount 0x02 cmds = 1 ∧ tagCount 0x01 cmds = 2
    ∧ serialize [0x43, 0x55] cmds = [0xD1, 2, 0x43, 0x55, 1, 1, 2,
        0x03, 0x00, 0x00, 0x80, 0x3F, 0x00, 0x00, 0x00, 0x00, 0x01, 0x02, 0x03, 0x04,
        0x01, 3, 0x02, 255, 128, 0, 0x01, 4] := by decide

/-- A running state with the invariant, whose step answers a next state. -/
theorem witness_invariant : (boot [0x00]).Inv where
  cells i := by
    have h : (boot [0x00]).cell i = ⟨0, .integer, []⟩ := by simp [boot, State.cell, State.reset, RegCell.reset]
    rw [h]; simp [CellOk]
  flags k _ := by simp [boot, State.reset]
  gflags := rfl
  pc := by decide
  stop := ⟨.none, rfl, by decide⟩
  programLength := by decide
  callDepth := by decide
  returns := by simp [boot, State.reset]
  stackDepth := by decide
  vcur := by decide
  mem := by decide
  names := rfl
  sealed n cmds h := by simp [boot, State.reset] at h
  building n cmds h := by simp [boot, State.reset] at h

theorem witness_StepPreservesInvariant : ∃ t, step (boot [0x00]) = .next t := ⟨_, rfl⟩

theorem witness_HostOpsPreserveInvariant :
    (HostOp.start (List.replicate 255 0)).wellFormed = true
    ∧ ∃ t, (boot [0x00]).hostApply (.start (List.replicate 255 0)) = .ok t := ⟨by decide +kernel, _, rfl⟩

theorem witness_BadRegisterSkipsWhole :
    (∃ r ∈ registerBytes (.mov 0x40 0), 64 ≤ r.toNat) ∧ (¬ ∃ r ∈ registerBytes (.mov 0x3F 0), 64 ≤ r.toNat)
    ∧ (∃ r ∈ registerBytes (.loadi 6 1 0x40 0), 64 ≤ r.toNat) ∧ (∃ r ∈ registerBytes (.storei 6 1 0 0x40), 64 ≤ r.toNat)
    ∧ (¬ ∃ r ∈ registerBytes (.loadi 6 0 0x40 0), 64 ≤ r.toNat)
    ∧ ¬ ∃ r ∈ registerBytes (.storei 6 1 0xFFFFFF3F 0x3F), 64 ≤ r.toNat := by decide

theorem witness_StopsArePrecise :
    let s := boot [0xFF]
    s.running = true ∧ step s = .next (after s) ∧ (after s).running = false ∧ (after s).stop ≠ 0x01 :=
  ⟨by decide, rfl, by decide, by decide⟩

/-- A run of `JMP 0` that the host stops after its second step, and that is still going when it does not. -/
theorem witness_StopsArePrecise_run :
    let s := boot [0x50, 0x00, 0x00, 0x00, 0x00]
    s.running = true ∧ step s = .next (after s) ∧ (after s).running = true
    ∧ s.hostRun [[], [.writeInt 4 0 7, .stop], []] = .returned (some .ok) (s.hostAct (.writeInt 4 0 7)).hostStop
    ∧ s.hostRun [[], []] = .going (some .ok) s
    ∧ (boot [0x00]).hostRun [[], []] = .returned (some (.halted 0x01)) (after (boot [0x00])) :=
  ⟨by decide, rfl, by decide, by decide, by decide, by decide⟩

theorem witness_StickyAndUnwrittenBits :
    let s : State := { boot [] with flags := 0x200 }
    s.flags.getLsbD 9 = true ∧ ∃ t, exec (.cmpi 0 0) s = .next t := ⟨by decide, _, rfl⟩

theorem witness_RomNeverChanges :
    ∃ t, step (boot [0x81, 0x03, 0x00, 0x00, 0x00, 0x00, 0x00, 0x00]) = .next t := ⟨_, rfl⟩

theorem witness_OnlyStoresWriteMemory :
    (∃ t, exec (.push 0) State.reset = .next t) ∧ (∀ dom kind off r, Instr.push 0 ≠ .storei dom kind off r)
    ∧ (∀ r imm, Instr.push 0 ≠ .out r imm) ∧ (∀ n x y z, Instr.push 0 ≠ .dlcall n x y z)
    ∧ (∀ r, Instr.push 0 ≠ .loadmodel r) := by
  refine ⟨⟨_, rfl⟩, ?_, ?_, ?_, ?_⟩ <;> intros <;> simp

theorem witness_AssemblerSizesAgree : knownInstr [ascii "RET"] ≠ none := by
  have h : (knownInstr [ascii "RET"]).isSome = true := by decide
  intro e; rw [e] at h; cases h

theorem witness_LabelAddresses :
    let before : List SourceLine := [⟨1, [], [ascii "RET"]⟩]
    let l : SourceLine := ⟨2, [ascii "X", ascii "X"], []⟩
    labelNameOk (ascii "X") = true ∧ ascii "X" ∈ l.labels ∧ (∀ k ∈ before, ascii "X" ∉ k.labels)
    ∧ findLabel (pass1 0 [] (before ++ [l])).1 (ascii "X") = some 1 := by decide

/-- The cases of the float results: a NaN, an infinity, a zero, a sum that is exactly 0 and one that is not. -/
theorem witness_floatResults :
    f32IsNan 0x7FC00000 = true ∧ f32IsInf 0xFF800000 = true ∧ f32IsZero 0x80000000 = true
    ∧ f32Units 0x00000001 + f32Units 0x80000001 = 0 ∧ f32Units 0x3F800000 + f32Units 0xBF000000 ≠ 0 := by decide +kernel

end Sys2Proof.Tests.Slice0
end

section
/-! Rounding to nearest (00_scope.md R11, obligation O18). A value in units of 2^-149 lies between two consecutive magnitude
patterns, and which of them rounding chooses is decided by their midpoint. `lt_nearestPattern_iff` says this for every
pattern at once; that nothing is nearer, the even tie and the threshold of infinity are all read off it. -/

namespace Sys2Proof.Machine

/-! ### The two fields of a pattern put together -/

theorem f32Negative_f32OfMagnitude (negative : Bool) {m : Nat} (hm : m < 2 ^ 31) :
    f32Negative (f32OfMagnitude negative m) = negative := by
  have hbit : m.testBit 31 = false := Nat.testBit_lt_two_pow hm
  rw [f32Negative, f32OfMagnitude, BitVec.getLsbD_ofNat]
  cases negative
  · simp [hbit]
  · rw [if_pos rfl, Nat.testBit_two_pow_add_eq, hbit]
    rfl

theorem f32Magnitude_f32OfMagnitude (negative : Bool) {m : Nat} (hm : m < 2 ^ 31) :
    f32Magnitude (f32OfMagnitude negative m) = m := by
  cases negative <;> simp [f32Magnitude, f32OfMagnitude] <;> omega

/-! ### The value of a magnitude pattern -/

/-- A pattern `k * 2 ^ 23 + m` is the significand `m` at spacing 2^k. The carry `m = 2 ^ 24` is included: it is the first
pattern of the next binade. -/
theorem magnitudeUnits_of_significand {k m : Nat} (hlow : k = 0 ∨ 2 ^ 23 ≤ m) (hm : m ≤ 2 ^ 24) :
    magnitudeUnits (k * 2 ^ 23 + m) = m * 2 ^ k := by
  unfold magnitudeUnits
  obtain hsub | hnormal | rfl : m < 2 ^ 23 ∨ (2 ^ 23 ≤ m ∧ m < 2 ^ 24) ∨ m = 2 ^ 24 := by omega
  · obtain rfl : k = 0 := by omega
    rw [if_pos (by omega)]
    simp
  · have hexp : (k * 2 ^ 23 + m) / 2 ^ 23 = k + 1 := by omega
    have hfrac : 2 ^ 23 + (k * 2 ^ 23 + m) % 2 ^ 23 = m := by omega
    rw [hexp, hfrac, if_neg (by omega), Nat.add_sub_cancel]
  · have hexp : (k * 2 ^ 23 + 2 ^ 24) / 2 ^ 23 = k + 1 + 1 := by omega
    have hfrac : (k * 2 ^ 23 + 2 ^ 24) % 2 ^ 23 = 0 := by omega
    rw [hexp, hfrac, if_neg (by omega), Nat.add_sub_cancel]
    ring

/-- Every pattern has a significand in the range of `magnitudeUnits_of_significand`. -/
theorem exists_significand (p : Nat) :
    ∃ k m, p = k * 2 ^ 23 + m ∧ (k = 0 ∨ 2 ^ 23 ≤ m) ∧ m < 2 ^ 24 :=
  ⟨p / 2 ^ 23 - 1, p - (p / 2 ^ 23 - 1) * 2 ^ 23, by omega, by omega, by omega⟩

theorem magnitudeUnits_strictMono : StrictMono magnitudeUnits := by
  refine strictMono_nat_of_lt_succ fun p => ?_
  obtain ⟨k, m, rfl, hlow, hm⟩ := exists_significand p
  rw [Nat.add_assoc, magnitudeUnits_of_significand hlow (by omega), magnitudeUnits_of_significand (by omega) (by omega)]
  exact Nat.mul_lt_mul_of_pos_right (by omega) (by positivity)

theorem scaled_magnitudeUnits_strictMono {den : Nat} (hden : 0 < den) :
    StrictMono fun p => den * magnitudeUnits p :=
  magnitudeUnits_strictMono.const_mul hden

/-! ### The rounded quotient -/

theorem divNearestEven_mem (n d : Nat) : n / d ≤ divNearestEven n d ∧ divNearestEven n d ≤ n / d + 1 := by
  unfold divNearestEven
  dsimp only
  split_ifs <;> omega

/-- The quotient is rounded up exactly past the midpoint of its two neighbours, and at it when the lower one is odd. -/
theorem div_lt_divNearestEven_iff (n d : Nat) :
    n / d < divNearestEven n d ↔
      d * (2 * (n / d) + 1) < 2 * n ∨ (d * (2 * (n / d) + 1) = 2 * n ∧ n / d % 2 = 1) := by
  have hsplit : d * (n / d) + n % d = n := Nat.div_add_mod n d
  have hmid : d * (2 * (n / d) + 1) = 2 * (d * (n / d)) + d := by ring
  rw [hmid]
  unfold divNearestEven
  dsimp only
  split_ifs <;> omega

/-! ### The nearest pattern -/

/-- The exponent `roundUnits` gives the spacing of the patterns around `num / den`. -/
def spacingLog (num den : Nat) : Nat := Nat.log2 (num / den) - 23

/-- The pattern `roundUnits` chooses when the magnitudes go on past the largest finite one. -/
def nearestPattern (num den : Nat) : Nat :=
  spacingLog num den * 2 ^ 23 + divNearestEven num (den * 2 ^ spacingLog num den)

/-- The pattern below the value: the significand is truncated. -/
def floorPattern (num den : Nat) : Nat := spacingLog num den * 2 ^ 23 + num / (den * 2 ^ spacingLog num den)

theorem roundUnits_eq_min (num den : Nat) : roundUnits num den = min (nearestPattern num den) infinityPattern := by
  have hif : roundUnits num den
      = if nearestPattern num den < infinityPattern then nearestPattern num den else infinityPattern := by
    unfold roundUnits nearestPattern spacingLog
    rfl
  rw [hif]
  split <;> omega

/-- The spacing is the one at which the truncated significand has 24 bits, or fewer where the spacing is the least. -/
theorem truncated_significand_bounds (num den : Nat) :
    (spacingLog num den = 0 ∨ 2 ^ 23 ≤ num / (den * 2 ^ spacingLog num den))
      ∧ num / (den * 2 ^ spacingLog num den) < 2 ^ 24 := by
  rw [← Nat.div_div_eq_div_mul]
  unfold spacingLog
  generalize num / den = a
  have hupper : a < 2 ^ (a.log2 + 1) := Nat.lt_log2_self
  constructor
  · by_cases hk : a.log2 - 23 = 0
    · exact .inl hk
    · have hlower : 2 ^ a.log2 ≤ a := Nat.log2_self_le (by rintro rfl; simp at hk)
      refine .inr ((Nat.le_div_iff_mul_le (by positivity)).2 ?_)
      rwa [← pow_add, show 23 + (a.log2 - 23) = a.log2 by omega]
  · rw [Nat.div_lt_iff_lt_mul (by positivity), ← pow_add]
    exact hupper.trans_le (Nat.pow_le_pow_right (by omega) (by omega))

theorem magnitudeUnits_floorPattern (num den : Nat) :
    magnitudeUnits (floorPattern num den) = num / (den * 2 ^ spacingLog num den) * 2 ^ spacingLog num den := by
  obtain ⟨hlow, hm⟩ := truncated_significand_bounds num den
  exact magnitudeUnits_of_significand hlow hm.le

theorem magnitudeUnits_floorPattern_succ (num den : Nat) :
    magnitudeUnits (floorPattern num den + 1)
      = (num / (den * 2 ^ spacingLog num den) + 1) * 2 ^ spacingLog num den := by
  obtain ⟨hlow, hm⟩ := truncated_significand_bounds num den
  rw [floorPattern, Nat.add_assoc]
  exact magnitudeUnits_of_significand (hlow.imp_right Nat.le_succ_of_le) hm

/-- The value lies between the pattern below it and the next one. -/
theorem floorPattern_bracket (num : Nat) {den : Nat} (hden : 0 < den) :
    den * magnitudeUnits (floorPattern num den) ≤ num
      ∧ num < den * magnitudeUnits (floorPattern num den + 1) := by
  rw [magnitudeUnits_floorPattern, magnitudeUnits_floorPattern_succ]
  constructor
  · calc _ = den * 2 ^ spacingLog num den * (num / (den * 2 ^ spacingLog num den)) := by ring
      _ ≤ num := Nat.mul_div_le _ _
  · calc num < den * 2 ^ spacingLog num den * (num / (den * 2 ^ spacingLog num den) + 1) :=
        Nat.lt_mul_div_succ _ (by positivity)
      _ = _ := by ring

theorem nearestPattern_mem (num den : Nat) :
    floorPattern num den ≤ nearestPattern num den ∧ nearestPattern num den ≤ floorPattern num den + 1 := by
  obtain ⟨hle, hge⟩ := divNearestEven_mem num (den * 2 ^ spacingLog num den)
  unfold floorPattern nearestPattern
  omega

/-- `num / den` is rounded past the pattern `x`: it lies above the midpoint of `x` and the next pattern, or on it and `x`
is odd. -/
def PastMidpoint (num den x : Nat) : Prop :=
  den * (magnitudeUnits x + magnitudeUnits (x + 1)) < 2 * num
    ∨ (den * (magnitudeUnits x + magnitudeUnits (x + 1)) = 2 * num ∧ x % 2 = 1)

theorem floorPattern_lt_nearestPattern_iff (num den : Nat) :
    floorPattern num den < nearestPattern num den ↔ PastMidpoint num den (floorPattern num den) := by
  have hround := div_lt_divNearestEven_iff num (den * 2 ^ spacingLog num den)
  unfold PastMidpoint
  rw [magnitudeUnits_floorPattern, magnitudeUnits_floorPattern_succ]
  unfold floorPattern nearestPattern
  generalize spacingLog num den = k at hround ⊢
  generalize num / (den * 2 ^ k) = f at hround ⊢
  have hmid : den * (f * 2 ^ k + (f + 1) * 2 ^ k) = den * 2 ^ k * (2 * f + 1) := by ring
  have hparity : (k * 2 ^ 23 + f) % 2 = f % 2 := by omega
  rw [hmid, hparity, ← hround, Nat.add_lt_add_iff_left]

/-- The nearest pattern is above exactly the patterns past whose midpoint the value lies. -/
theorem lt_nearestPattern_iff (num : Nat) {den : Nat} (hden : 0 < den) (x : Nat) :
    x < nearestPattern num den ↔ PastMidpoint num den x := by
  obtain ⟨hfloor, hceil⟩ := floorPattern_bracket num hden
  obtain ⟨hge, hle⟩ := nearestPattern_mem num den
  have hscale := scaled_magnitudeUnits_strictMono hden
  have hx : den * magnitudeUnits x < den * magnitudeUnits (x + 1) := hscale x.lt_succ_self
  obtain hbelow | rfl | habove := Nat.lt_trichotomy x (floorPattern num den)
  · have hnext : den * magnitudeUnits (x + 1) ≤ den * magnitudeUnits (floorPattern num den) := hscale.monotone hbelow
    exact iff_of_true (by omega) (.inl (by rw [Nat.mul_add]; omega))
  · exact floorPattern_lt_nearestPattern_iff num den
  · have hnext : den * magnitudeUnits (floorPattern num den + 1) ≤ den * magnitudeUnits x := hscale.monotone habove
    refine iff_of_false (by omega) ?_
    unfold PastMidpoint
    rw [Nat.mul_add]
    omega

/-! ### Nearest, ties to even, and infinity -/

theorem unitsApart_eq_natAbs (num den q : Nat) :
    unitsApart num den q = ((num : Int) - (den * magnitudeUnits q : Nat)).natAbs := by
  rw [unitsApart, Nat.cast_mul]

/-- A pattern below the nearest one is no nearer, and as near only if the nearest one is even: the value lies past the
midpoint under the nearest one. -/
theorem nearestPattern_nearest_of_lt {num den q : Nat} (hden : 0 < den) (hq : q < nearestPattern num den) :
    unitsApart num den (nearestPattern num den) ≤ unitsApart num den q
      ∧ (unitsApart num den (nearestPattern num den) = unitsApart num den q → nearestPattern num den % 2 = 0) := by
  obtain ⟨x, hx⟩ := Nat.exists_eq_succ_of_ne_zero (Nat.ne_zero_of_lt hq)
  have hmid : PastMidpoint num den x := (lt_nearestPattern_iff num hden x).1 (by omega)
  rw [hx, Nat.succ_eq_add_one] at hq ⊢
  have hscale := scaled_magnitudeUnits_strictMono hden
  have hqx : den * magnitudeUnits q ≤ den * magnitudeUnits x := hscale.monotone (by omega)
  have hstep : den * magnitudeUnits x < den * magnitudeUnits (x + 1) := hscale x.lt_succ_self
  rw [PastMidpoint, Nat.mul_add] at hmid
  rw [unitsApart_eq_natAbs, unitsApart_eq_natAbs]
  omega

/-- A pattern above the nearest one is no nearer, and as near only if the nearest one is even: the value does not lie past
the midpoint over the nearest one. -/
theorem nearestPattern_nearest_of_gt {num den q : Nat} (hden : 0 < den) (hq : nearestPattern num den < q) :
    unitsApart num den (nearestPattern num den) ≤ unitsApart num den q
      ∧ (unitsApart num den (nearestPattern num den) = unitsApart num den q → nearestPattern num den % 2 = 0) := by
  have hmid : ¬ PastMidpoint num den (nearestPattern num den) :=
    mt (lt_nearestPattern_iff num hden _).2 (lt_irrefl _)
  generalize nearestPattern num den = p at hq hmid ⊢
  have hscale := scaled_magnitudeUnits_strictMono hden
  have hpq : den * magnitudeUnits (p + 1) ≤ den * magnitudeUnits q := hscale.monotone hq
  have hstep : den * magnitudeUnits p < den * magnitudeUnits (p + 1) := hscale p.lt_succ_self
  rw [PastMidpoint, Nat.mul_add] at hmid
  rw [unitsApart_eq_natAbs, unitsApart_eq_natAbs]
  omega

theorem nearestPattern_nearest {num den : Nat} (hden : 0 < den) (q : Nat) :
    unitsApart num den (nearestPattern num den) ≤ unitsApart num den q
      ∧ (unitsApart num den (nearestPattern num den) = unitsApart num den q →
          q = nearestPattern num den ∨ nearestPattern num den % 2 = 0) := by
  obtain hlt | rfl | hgt := Nat.lt_trichotomy q (nearestPattern num den)
  · exact (nearestPattern_nearest_of_lt hden hlt).imp_right fun heven h => .inr (heven h)
  · exact ⟨le_rfl, fun _ => .inl rfl⟩
  · exact (nearestPattern_nearest_of_gt hden hgt).imp_right fun heven h => .inr (heven h)

/-- The midpoint of the largest finite magnitude, which is odd, and of infinity's pattern read as a magnitude. -/
theorem pastMidpoint_largest_iff (num den : Nat) :
    PastMidpoint num den (infinityPattern - 1) ↔ den * ((2 ^ 25 - 1) * 2 ^ 253) ≤ 2 * num := by
  have hsum : magnitudeUnits (infinityPattern - 1) + magnitudeUnits (infinityPattern - 1 + 1)
      = (2 ^ 25 - 1) * 2 ^ 253 := by decide +kernel
  have hodd : (infinityPattern - 1) % 2 = 1 := by decide
  rw [PastMidpoint, hsum, Nat.le_iff_lt_or_eq]
  simp only [hodd, and_true]

theorem infinityPattern_le_nearestPattern_iff (num : Nat) {den : Nat} (hden : 0 < den) :
    infinityPattern ≤ nearestPattern num den ↔ den * ((2 ^ 25 - 1) * 2 ^ 253) ≤ 2 * num := by
  rw [← pastMidpoint_largest_iff, ← lt_nearestPattern_iff num hden]
  have hpos : 0 < infinityPattern := by decide
  omega

theorem roundUnits_le_infinityPattern (num den : Nat) : roundUnits num den ≤ infinityPattern := by
  rw [roundUnits_eq_min]
  exact min_le_right _ _

/-- Settles O18: the nearest pattern is nearest with ties to even, and it is replaced by infinity exactly from the midpoint
above the largest finite magnitude on. -/
theorem roundsToNearestEven : Obligations.RoundsToNearestEven := by
  intro negative num den hden
  have hle := roundUnits_le_infinityPattern num den
  have hlt : roundUnits num den < 2 ^ 31 := hle.trans_lt (by decide)
  unfold Rounds f32OfRatio
  rw [f32Negative_f32OfMagnitude negative hlt, f32Magnitude_f32OfMagnitude negative hlt]
  refine ⟨rfl, hle, fun hfinite q _ => ?_, ?_⟩
  · have hnearest : roundUnits num den = nearestPattern num den := by rw [roundUnits_eq_min] at hfinite ⊢; omega
    rw [hnearest]
    exact nearestPattern_nearest hden q
  · rw [roundUnits_eq_min, min_eq_right_iff]
    exact infinityPattern_le_nearestPattern_iff num hden

end Sys2Proof.Machine
end

section
/-! What every instruction can do (family 10_state.md, obligations O46, O53, O55). `exec_effect` says once, with the guards,
which next states an instruction can answer; the rules that hold of all of them follow by cases. `operandForm` says once how
each instruction gets the register operands that `registerBytes` lists. -/

namespace Sys2Proof.Machine

/-! ### The next states of an instruction -/

/-- What an instruction asks of the display-list manager (47_display_list.md section 3). -/
def dlOperation : Instr → DlManager → Option (Except StopCode DlManager)
  | .dlstart n, dl => some (dlStart dl n)
  | .dlprimitive b, dl => some (dlAddPrimitive dl b)
  | .dlcolor c, dl => some (dlAddColor dl c)
  | .dlvertex x y z, dl => some (dlAddVertex dl x y z)
  | .dlend, dl => some (dlEnd dl)
  | _, _ => none

/-- The state after a record that fits has been stored in Video (47_display_list.md R381). -/
def State.storeRecord (s : State) (record : Bytes) : State :=
  { s with
    mem := s.mem.store .video s.vcur.toNat record
    vcur := s.vcur + BitVec.ofNat 32 record.length }

theorem storeToVideo_of_fits {n : Bytes} {cmds : List DlCommand} {s : State}
    (hfit : s.vcur.toNat + (serialize n cmds).length ≤ Config.sizeVideo) :
    storeToVideo n cmds s = (some (s.vcur.toNat, (serialize n cmds).length), s.storeRecord (serialize n cmds)) :=
  if_pos hfit

theorem storeToVideo_of_not_fits {n : Bytes} {cmds : List DlCommand} {s : State}
    (hfull : ¬ s.vcur.toNat + (serialize n cmds).length ≤ Config.sizeVideo) :
    storeToVideo n cmds s = (none, s.setFlag .err true) :=
  if_neg hfull

/-- The next states an instruction can answer from `s`; `exec_effect` holds this to `exec`. -/
inductive Effect (s : State) : Instr → State → Prop where
  | skip (i : Instr) (why : SkipReason) : Effect s i (s.skip why i)
  | raise (i : Instr) {c : StopCode} (hc : c ≠ .none) : Effect s i (s.raise c)
  | halt (i : Instr) {c : StopCode} (hc : c ≠ .none) : Effect s i (s.halt c)
  | hlt : Effect s .hlt ((s.advance Instr.hlt.len).halt .halt)
  | pass (i : Instr) : Effect s i (s.advance i.len)
  | logged (i : Instr) (e : LogEntry) : Effect s i ((s.addLog e).advance i.len)
  | setErr (i : Instr) : Effect s i ((s.setFlag .err true).advance i.len)
  | writeInt (i : Instr) (c : RegIdx) (v : Word) : Effect s i ((s.writeInt c v).advance i.len)
  | writeFloat (i : Instr) (c : RegIdx) (f : Word) : Effect s i ((s.writeFloat c f).advance i.len)
  | storemodel (r : Byte) (n : Bytes) (c : RegIdx) :
      Effect s (.storemodel r n) ((s.writeModel c n).advance (Instr.storemodel r n).len)
  | intResult (i : Instr) (c : RegIdx) (v : Word) :
      Effect s i ((({ s with flags := flagsOfResult s.flags v } : State).writeInt c v).advance i.len)
  | cmp (ra rb : Byte) (a b : Word) :
      Effect s (.cmp ra rb) (({ s with flags := flagsOfCmp s.flags a b } : State).advance (Instr.cmp ra rb).len)
  | cmpi (r : Byte) (imm a : Word) :
      Effect s (.cmpi r imm) (({ s with flags := flagsOfCmpi s.flags a imm } : State).advance (Instr.cmpi r imm).len)
  | jump (i : Instr) {t : Word} (ht : t.toNat < s.programLength.toNat) : Effect s i (s.jump t)
  | call {t : Word} (ht : t.toNat < s.programLength.toNat) (hdepth : s.callStack.length < Config.callDepth) :
      Effect s (.call t)
        (({ s with callStack := s.callStack ++ [s.pc + BitVec.ofNat 32 (Instr.call t).len] } : State).jump t)
  | ret {t : Word} {cs : List Word} (ht : t.toNat < s.programLength.toNat) (hcs : s.callStack = cs ++ [t]) :
      Effect s .ret (({ s with callStack := cs } : State).jump t)
  | push (r : Byte) (v : Word) (hdepth : s.operandStack.length < Config.stackDepth) :
      Effect s (.push r) (({ s with operandStack := s.operandStack ++ [v] } : State).advance (Instr.push r).len)
  | pop (r : Byte) (c : RegIdx) {v : Word} {os : List Word} (hos : s.operandStack = os ++ [v]) :
      Effect s (.pop r) ((({ s with operandStack := os } : State).writeInt c v).advance (Instr.pop r).len)
  | rand (r : Byte) (c : RegIdx) :
      Effect s (.rand r) ((s.drawRand.2.writeInt c s.drawRand.1).advance (Instr.rand r).len)
  | time (r : Byte) (c : RegIdx) :
      Effect s (.time r) ((s.drawTick.2.writeInt c (BitVec.ofNat 32 s.drawTick.1)).advance (Instr.time r).len)
  | out (r : Byte) (imm : Word) (v : Byte) {m : Memory} (hm : s.mem.write .io imm.toNat [v] = some m) :
      Effect s (.out r imm) (({ s with mem := m } : State).advance (Instr.out r imm).len)
  | storei (dom kind : Byte) (off : Word) (r : Byte) {d : Domain} (a : Int) (v : Word) {m : Memory}
      (hd : Domain.ofNumber dom = some d) (hm : s.mem.write d a (le32 v) = some m) :
      Effect s (.storei dom kind off r) (({ s with mem := m } : State).advance (Instr.storei dom kind off r).len)
  | dlCommit (i : Instr) {dl : DlManager} (hdl : dlOperation i s.dl = some (.ok dl)) :
      Effect s i (({ s with dl := dl } : State).advance i.len)
  | dlFail (i : Instr) {c : StopCode} (hdl : dlOperation i s.dl = some (.error c)) : Effect s i (s.raise c)
  | dlcall (n : Bytes) (x y z : Word) {cmds : List DlCommand} (hn : lookupList s.dl.lists n = some cmds)
      (hfit : s.vcur.toNat + (serialize n cmds).length ≤ Config.sizeVideo) :
      Effect s (.dlcall n x y z)
        (((s.storeRecord (serialize n cmds)).emit
          ⟨n, x, y, z, some (s.vcur.toNat, (serialize n cmds).length)⟩).advance (Instr.dlcall n x y z).len)
  | loadmodel (r : Byte) {n : Bytes} {cmds : List DlCommand} (hn : lookupList s.dl.lists n = some cmds)
      (hfit : s.vcur.toNat + (serialize n cmds).length ≤ Config.sizeVideo) :
      Effect s (.loadmodel r) ((s.storeRecord (serialize n cmds)).advance (Instr.loadmodel r).len)

section
variable {i : Instr} {s : State}

theorem Effect.intRegReg (op : Word → Word → Option Word) (ra rb : Byte) : Effect s i (intRegReg i op ra rb s) :=
  intRegReg_cases (.skip _ _) (.raise _ nofun) (.logged _ _) fun c v => .intResult _ c v

theorem Effect.intRegImm (op : Word → Word → Option Word) (r : Byte) (imm : Word) :
    Effect s i (intRegImm i op r imm s) :=
  intRegImm_cases (.skip _ _) (.raise _ nofun) (.logged _ _) fun c v => .intResult _ c v

theorem Effect.floatRegReg (op : Config.FloatOp) (f : Word → Word → Option Word) (ra rb : Byte) :
    Effect s i (floatRegReg i op f ra rb s) :=
  floatRegReg_cases (.skip _ _) (.raise _ nofun) fun c v => .writeFloat _ c v

theorem Effect.floatDivide (op : Config.FloatOp) (f : Word → Word → Option Word) (ra rb : Byte) :
    Effect s i (floatDivide i op f ra rb s) :=
  floatDivide_cases (.skip _ _) (.raise _ nofun) (.logged _ _) fun c v => .writeFloat _ c v

theorem Effect.jumpIf (taken : Bool) (t : Word) : Effect s i (jumpIf taken i t s) :=
  jumpIf_cases (fun ht => .jump _ ht) (.halt _ nofun) (.pass _)

/-- A register operand: a bad index skips, and the rest is the cell's. -/
theorem Effect.withReg {r : Byte} {k : RegIdx → State} (hk : ∀ c, Effect s i (k c)) : Effect s i (withReg i r s k) :=
  withReg_cases (fun _ => .skip _ _) fun _ => hk _

/-- A typed read: a tag mismatch faults, and the rest is the value's. -/
theorem Effect.withBits {tag : Tag} {c : RegIdx} {k : Word → State} (hk : ∀ v, Effect s i (k v)) :
    Effect s i (withBits tag c s k) :=
  withBits_cases (.raise _ nofun) (hk _)

theorem Effect.withEa {dom kind : Byte} {off : Word} {r : Byte} {k : Option Domain → Int → RegIdx → State}
    (hk : ∀ a c, Effect s i (k (Domain.ofNumber dom) a c)) : Effect s i (withEa i dom kind off r s k) :=
  withEa_cases (.skip _ _) (.skip _ _) (.raise _ nofun) hk

theorem Effect.commitDl {res : Except StopCode DlManager} (h : dlOperation i s.dl = some res) :
    Effect s i (commitDl i res s) :=
  commitDl_cases (fun _ hres => .dlCommit _ (hres ▸ h)) fun _ hres => .dlFail _ (hres ▸ h)

end

theorem validTarget_iff (s : State) (t : Word) : validTarget s t = true ↔ t.toNat < s.programLength.toNat :=
  decide_eq_true_iff

theorem execCall_effect (t : Word) (s : State) : ∃ u, exec (.call t) s = .next u ∧ Effect s (.call t) u := by
  refine ⟨_, rfl, ?_⟩
  split
  · rename_i ht
    split
    · rename_i cs hcs
      obtain ⟨hdepth, rfl⟩ := (pushBounded_cases ..).1 hcs
      exact .call ((validTarget_iff ..).1 ht) hdepth
    · exact .raise _ nofun
  · exact .halt _ nofun

theorem execRet_effect (s : State) : ∃ u, exec .ret s = .next u ∧ Effect s .ret u := by
  refine ⟨_, rfl, ?_⟩
  split
  · exact .halt _ nofun
  · rename_i t cs hpop
    split
    · rename_i ht
      exact .ret ((validTarget_iff ..).1 ht) ((popLast_cases ..).1 hpop)
    · exact .halt _ nofun

theorem execPush_effect (r : Byte) (s : State) : ∃ u, exec (.push r) s = .next u ∧ Effect s (.push r) u := by
  refine ⟨_, rfl, .withReg fun c => .withBits fun v => ?_⟩
  split
  · rename_i os hos
    obtain ⟨hdepth, rfl⟩ := (pushBounded_cases ..).1 hos
    exact .push r v hdepth
  · exact .raise _ nofun

theorem execPop_effect (r : Byte) (s : State) : ∃ u, exec (.pop r) s = .next u ∧ Effect s (.pop r) u := by
  refine ⟨_, rfl, .withReg fun c => ?_⟩
  split
  · rename_i v os hpop
    exact .pop r c ((popLast_cases ..).1 hpop)
  · exact .raise _ nofun

theorem execInp_effect (r : Byte) (imm : Word) (s : State) :
    ∃ u, exec (.inp r imm) s = .next u ∧ Effect s (.inp r imm) u := by
  refine ⟨_, rfl, .withReg fun c => ?_⟩
  split
  · exact .writeInt _ c _
  · exact .setErr _

theorem execOut_effect (r : Byte) (imm : Word) (s : State) :
    ∃ u, exec (.out r imm) s = .next u ∧ Effect s (.out r imm) u := by
  refine ⟨_, rfl, .withReg fun c => .withBits fun v => ?_⟩
  split
  · exact .out r imm _ ‹_›
  · exact .setErr _

theorem execLoadi_effect (dom kind : Byte) (off : Word) (r : Byte) (s : State) :
    ∃ u, exec (.loadi dom kind off r) s = .next u ∧ Effect s (.loadi dom kind off r) u := by
  refine ⟨_, rfl, .withEa fun a c => ?_⟩
  split
  · exact .writeInt _ c _
  · exact .setErr _

theorem execStorei_effect (dom kind : Byte) (off : Word) (r : Byte) (s : State) :
    ∃ u, exec (.storei dom kind off r) s = .next u ∧ Effect s (.storei dom kind off r) u := by
  refine ⟨_, rfl, .withEa fun a c => .withBits fun v => ?_⟩
  split
  · rename_i m hm
    obtain ⟨d, hd, hm⟩ := Option.bind_eq_some_iff.1 hm
    exact .storei dom kind off r a v hd hm
  · exact .setErr _

theorem execDlcall_effect (n : Bytes) (x y z : Word) (s : State) :
    ∃ u, exec (.dlcall n x y z) s = .next u ∧ Effect s (.dlcall n x y z) u := by
  refine ⟨_, rfl, ?_⟩
  split
  · exact .raise _ nofun
  · rename_i cmds hn
    by_cases hfit : s.vcur.toNat + (serialize n cmds).length ≤ Config.sizeVideo
    · rw [storeToVideo_of_fits hfit]
      exact .dlcall n x y z hn hfit
    · rw [storeToVideo_of_not_fits hfit]
      exact .setErr _

theorem execLoadmodel_effect (r : Byte) (s : State) :
    ∃ u, exec (.loadmodel r) s = .next u ∧ Effect s (.loadmodel r) u := by
  refine ⟨_, rfl, .withReg fun c => ?_⟩
  split
  · exact .raise _ nofun
  · exact .logged _ _
  · split
    · exact .raise _ nofun
    · rename_i n _ _ cmds hn
      by_cases hfit : s.vcur.toNat + (serialize n cmds).length ≤ Config.sizeVideo
      · rw [storeToVideo_of_fits hfit]
        exact .loadmodel r hn hfit
      · rw [storeToVideo_of_not_fits hfit]
        exact .setErr _

/-- Every instruction answers a next state, and everything it can be. -/
theorem exec_effect (i : Instr) (s : State) : ∃ t, exec i s = .next t ∧ Effect s i t := by
  cases i with
  | hlt => exact ⟨_, rfl, .hlt⟩
  | mov | li => exact ⟨_, rfl, .withReg fun c => .writeInt _ c _⟩
  | movf => exact ⟨_, rfl, .withReg fun c => .writeFloat _ c _⟩
  | add | sub | mul | div | and | or | xor | shl | shr => exact ⟨_, rfl, .intRegReg _ _ _⟩
  | not => exact ⟨_, rfl, .withReg fun c => .withBits fun v => .intResult _ c _⟩
  | addi | subi | muli | divi | andi | ori | xori | shli | shri => exact ⟨_, rfl, .intRegImm _ _ _⟩
  | fadd | fsub | fmul => exact ⟨_, rfl, .floatRegReg _ _ _ _⟩
  | fdiv | fmod => exact ⟨_, rfl, .floatDivide _ _ _ _⟩
  | itof => exact ⟨_, rfl, .withReg fun c => .withBits fun v => .writeFloat _ c _⟩
  | ftoi => exact ⟨_, rfl, .withReg fun c => .withBits fun v => .writeInt _ c _⟩
  | cmp => exact ⟨_, rfl, .withReg fun _ => .withReg fun _ => .withBits fun a => .withBits fun b => .cmp _ _ a b⟩
  | cmpi => exact ⟨_, rfl, .withReg fun _ => .withBits fun a => .cmpi _ _ a⟩
  | jmp t => exact ⟨_, rfl, .jumpIf true t⟩
  | jz | jnz | jg | jl | jge | jle => exact ⟨_, rfl, .jumpIf _ _⟩
  | call t => exact execCall_effect t s
  | ret => exact execRet_effect s
  | push r => exact execPush_effect r s
  | pop r => exact execPop_effect r s
  | inp r imm => exact execInp_effect r imm s
  | out r imm => exact execOut_effect r imm s
  | rand => exact ⟨_, rfl, .withReg fun c => .rand _ c⟩
  | time => exact ⟨_, rfl, .withReg fun c => .time _ c⟩
  | intr => exact ⟨_, rfl, .logged _ _⟩
  | loadi dom kind off r => exact execLoadi_effect dom kind off r s
  | storei dom kind off r => exact execStorei_effect dom kind off r s
  | dlstart | dlprimitive | dlcolor | dlvertex | dlend => exact ⟨_, rfl, .commitDl rfl⟩
  | dlcall n x y z => exact execDlcall_effect n x y z s
  | storemodel => exact ⟨_, rfl, .withReg fun c => .storemodel _ _ c⟩
  | loadmodel r => exact execLoadmodel_effect r s

theorem effect_of_exec {i : Instr} {s t : State} (h : exec i s = .next t) : Effect s i t := by
  obtain ⟨u, hu, heffect⟩ := exec_effect i s
  cases hu.symm.trans h
  exact heffect

/-! ### What no instruction writes (10_state.md R40 to R44) -/

/-- FLAGS moves from `w` to `w'` as every instruction moves it: ERR is not cleared, and C, V, N and bits 10 to 31 stay. -/
def FlagsSticky (w w' : Word) : Prop :=
  (w.getLsbD 9 = true → w'.getLsbD 9 = true)
    ∧ ∀ k, k = 1 ∨ k = 2 ∨ k = 3 ∨ 10 ≤ k → w'.getLsbD k = w.getLsbD k

theorem FlagsSticky.refl (w : Word) : FlagsSticky w w := ⟨id, fun _ _ => rfl⟩

/-- Writes that leave bits 1 to 3 and every bit from 9 on. -/
theorem FlagsSticky.of_bits {w w' : Word} (h : ∀ k, k = 1 ∨ k = 2 ∨ k = 3 ∨ 9 ≤ k → w'.getLsbD k = w.getLsbD k) :
    FlagsSticky w w' :=
  ⟨fun herr => (h 9 (by omega)).trans herr, fun k hk => h k (by omega)⟩

theorem flagsSticky_setErr (w : Word) : FlagsSticky w (withFlag w .err true) := by
  refine ⟨fun _ => by simp [Flag.bit], fun k hk => ?_⟩
  have hother : k ≠ Flag.err.bit := show k ≠ 9 by omega
  rw [withFlag_getLsbD, if_neg hother]

theorem flagsSticky_flagsOfResult (w v : Word) : FlagsSticky w (flagsOfResult w v) :=
  .of_bits fun k hk => by rw [flagsOfResult_getLsbD, if_neg (by omega)]

theorem flagsSticky_flagsOfCmp (w a b : Word) : FlagsSticky w (flagsOfCmp w a b) :=
  .of_bits fun k hk => by
    rw [flagsOfCmp_getLsbD, if_neg (by omega), if_neg (by omega), if_neg (by omega), if_neg (by omega)]

theorem flagsSticky_flagsOfCmpi (w a b : Word) : FlagsSticky w (flagsOfCmpi w a b) :=
  .of_bits fun k hk => by
    rw [flagsOfCmpi_getLsbD, if_neg (by omega), if_neg (by omega), if_neg (by omega), if_neg (by omega),
      if_neg (by omega), if_neg (by omega)]

/-- Only the integer ALU, the compares and an access out of range write FLAGS. -/
theorem Effect.flagsSticky {s t : State} {i : Instr} (h : Effect s i t) : FlagsSticky s.flags t.flags := by
  cases h with
  | intResult => exact flagsSticky_flagsOfResult _ _
  | cmp => exact flagsSticky_flagsOfCmp _ _ _
  | cmpi => exact flagsSticky_flagsOfCmpi _ _ _
  | setErr => exact flagsSticky_setErr _
  | _ => exact .refl _

theorem Effect.gflags_eq {s t : State} {i : Instr} (h : Effect s i t) : t.gflags = s.gflags := by cases h <;> rfl

theorem Effect.programLength_eq {s t : State} {i : Instr} (h : Effect s i t) : t.programLength = s.programLength := by
  cases h <;> rfl

/-- Settles O55: it holds of each next state an instruction can answer. -/
theorem stickyAndUnwrittenBits : Obligations.StickyAndUnwrittenBits := by
  intro i s t h
  have heffect := effect_of_exec h
  obtain ⟨herr, hstuck⟩ := heffect.flagsSticky
  exact ⟨herr, hstuck, heffect.gflags_eq, heffect.programLength_eq⟩

/-! ### A bad register index (10_state.md R32) -/

/-- How an instruction gets the register operands that `registerBytes` lists. -/
inductive OperandForm (i : Instr) (s : State) : Prop where
  | none (hregs : registerBytes i = [])
  | one (r : Byte) (k : RegIdx → State) (hregs : registerBytes i = [r]) (hexec : exec i s = .next (withReg i r s k))
  | two (ra rb : Byte) (k : RegIdx → RegIdx → State) (hregs : registerBytes i = [ra, rb])
      (hexec : exec i s = .next (withReg i ra s fun c => withReg i rb s (k c)))
  | offset (dom kind : Byte) (off : Word) (r : Byte) (k : Option Domain → Int → RegIdx → State)
      (hregs : registerBytes i = if kind = 1 then [off.extractLsb' 0 8, r] else [r])
      (hexec : exec i s = .next (withEa i dom kind off r s k))

theorem operandForm (i : Instr) (s : State) : OperandForm i s := by
  cases i with
  | hlt | jmp | jz | jnz | jg | jl | jge | jle | call | ret | intr | dlstart | dlprimitive | dlcolor | dlvertex | dlend
  | dlcall => exact .none rfl
  | mov | movf | li | not | addi | subi | muli | divi | andi | ori | xori | shli | shri | itof | ftoi | cmpi | push | pop
  | inp | out | rand | time | storemodel | loadmodel => exact .one _ _ rfl rfl
  | add | sub | mul | div | and | or | xor | shl | shr | fadd | fsub | fmul | fdiv | fmod | cmp =>
    exact .two _ _ _ rfl rfl
  | loadi | storei => exact .offset _ _ _ _ _ rfl rfl

/-- The second register byte is looked at only behind the first, and a bad one of either skips alike. -/
theorem withReg_withReg_of_bad (i : Instr) {ra rb : Byte} (s : State) (k : RegIdx → RegIdx → State)
    (h : 64 ≤ ra.toNat ∨ 64 ≤ rb.toNat) :
    withReg i ra s (fun c => withReg i rb s (k c)) = s.skip .badRegister i :=
  withReg_cases (P := (· = s.skip .badRegister i)) (fun _ => rfl) fun _ => withReg_of_ge _ _ _ _ (by omega)

/-- The kind byte is checked before the registers, so a bad register may be met by either reason to skip. -/
theorem withEa_of_bad (i : Instr) (dom : Byte) {kind : Byte} {off : Word} {r : Byte} (s : State)
    (k : Option Domain → Int → RegIdx → State)
    (h : ∃ b ∈ if kind = 1 then [off.extractLsb' 0 8, r] else [r], 64 ≤ b.toNat) :
    ∃ why, withEa i dom kind off r s k = s.skip why i := by
  unfold withEa
  split
  · rename_i hkind
    have hzero : kind = 0 := BitVec.eq_of_toNat_eq hkind
    subst hzero
    have hr : 64 ≤ r.toNat := by simpa using h
    exact ⟨.badRegister, withReg_of_ge _ _ _ _ (by omega)⟩
  · rename_i hkind
    have hone : kind = 1 := BitVec.eq_of_toNat_eq hkind
    subst hone
    have hbad : 64 ≤ (off.extractLsb' 0 8).toNat ∨ 64 ≤ r.toNat := by simpa using h
    exact ⟨.badRegister, withReg_withReg_of_bad i s _ hbad.symm⟩
  · exact ⟨.badOffsetKind, rfl⟩

theorem exec_of_badRegister (i : Instr) (s : State) (h : ∃ r ∈ registerBytes i, 64 ≤ r.toNat) :
    ∃ why, exec i s = .next (s.skip why i) := by
  cases operandForm i s with
  | none hregs => simp [hregs] at h
  | one r k hregs hexec =>
    have hr : 64 ≤ r.toNat := by simpa [hregs] using h
    exact ⟨.badRegister, by rw [hexec, withReg_of_ge _ _ _ _ (by omega)]⟩
  | two ra rb k hregs hexec =>
    have hbad : 64 ≤ ra.toNat ∨ 64 ≤ rb.toNat := by simpa [hregs] using h
    exact ⟨.badRegister, by rw [hexec, withReg_withReg_of_bad i s k hbad]⟩
  | offset dom kind off r k hregs hexec =>
    obtain ⟨why, hskip⟩ := withEa_of_bad i dom s k (hregs ▸ h)
    exact ⟨why, by rw [hexec, hskip]⟩

/-- Settles O53: the instruction is skipped, and a skip changes pc and the log alone. -/
theorem badRegisterSkipsWhole : Obligations.BadRegisterSkipsWhole := by
  intro i s h
  obtain ⟨why, hexec⟩ := exec_of_badRegister i s h
  obtain ⟨t, hnext, hframe, hpc, hlog⟩ := Skips.of hexec rfl
  exact ⟨t, hnext, hframe, hpc, _, hlog⟩

/-! ### The state after reset (10_state.md R56) -/

theorem State.reset_eq_ports : State.reset = State.atPowerOn.memReset.cpuReset := rfl

/-- The power-on state lists no byte of any domain, and an unlisted byte reads as 0 (70_reset_and_hazards.md R552). -/
theorem State.reset_byte (d : Domain) (a : Nat) : State.reset.mem.byte d a = 0 := by cases d <;> rfl

/-- Settles O46: what the CPU reset port sets is read off its laws, and the rest is as at power-on. -/
theorem resetValues : Obligations.ResetValues := by
  refine ⟨State.reset_eq_ports, fun i => ?_, rfl, rfl, rfl, rfl, rfl, rfl, rfl, rfl, rfl, rfl, State.reset_byte, rfl, rfl⟩
  rw [State.reset_eq_ports, State.cpuReset_cell]

end Sys2Proof.Machine
end

section
/-! The memory domains (family 20_memory.md, obligations O35, O36, O48, O56, O57). `Writes` names the domains each
instruction may change, and `Effect.byte_eq` holds every next state to it; that ROM never changes and that only stores
write are read off `Writes`. -/

namespace Sys2Proof.Machine

/-! ### The checked write (20_memory.md R82, R85) -/

theorem Memory.write_byte_other {m m' : Memory} {d : Domain} {a : Int} {vs : Bytes} (h : m.write d a vs = some m')
    {e : Domain} {x : Nat} (hout : ¬ (d ≠ .rom ∧ e = d ∧ a.toNat ≤ x ∧ x < a.toNat + vs.length)) :
    m'.byte e x = m.byte e x := by
  obtain ⟨-, -, rfl⟩ := (Memory.write_cases ..).1 h
  split
  · rfl
  · rename_i hrom
    exact m.store_byte_other _ _ _ _ _ fun hin => hout ⟨hrom, hin⟩

theorem Memory.span_store (m : Memory) (d : Domain) (a : Nat) (vs : Bytes) :
    (m.store d a vs).span d a vs.length = vs :=
  List.ext_getElem (Memory.span_length ..) fun k _ hk => by rw [Memory.span_getElem, Memory.store_byte_at _ _ _ _ _ hk]

theorem Memory.read_of_write {m m' : Memory} {d : Domain} {a : Int} {vs : Bytes} (h : m.write d a vs = some m')
    (hrom : d ≠ .rom) : m'.read d a vs.length = some vs := by
  obtain ⟨hlow, hhigh, rfl⟩ := (Memory.write_cases ..).1 h
  rw [if_neg hrom, Memory.read_cases, if_pos ⟨hlow, hhigh⟩, Memory.span_store]

/-- Settles O36: a write in range succeeds, and the two laws of a successful write say what it did. -/
theorem writeThenRead : Obligations.WriteThenRead := by
  intro m d a vs
  split
  · rename_i hin
    have hwrite := (Memory.write_cases m _ d a vs).2 ⟨hin.1, hin.2, rfl⟩
    exact ⟨_, hwrite, fun hrom _ _ => Memory.write_byte_other hwrite fun hout => hout.1 hrom,
      fun hrom => ⟨Memory.read_of_write hwrite hrom, fun _ _ hout => Memory.write_byte_other hwrite fun h => hout h.2⟩⟩
  · exact (Memory.write_none ..).2 ‹_›

/-! ### Which instruction writes which domain (20_memory.md R80, R90, R91) -/

/-- The instruction may change bytes of the domain; `Effect.byte_eq` holds this to what instructions do. -/
inductive Writes : Instr → Domain → Prop where
  | storei {dom : Byte} {d : Domain} (kind : Byte) (off : Word) (r : Byte) (hd : Domain.ofNumber dom = some d)
      (hrom : d ≠ .rom) : Writes (.storei dom kind off r) d
  | out (r : Byte) (imm : Word) : Writes (.out r imm) .io
  | dlcall (n : Bytes) (x y z : Word) : Writes (.dlcall n x y z) .video
  | loadmodel (r : Byte) : Writes (.loadmodel r) .video

theorem not_writes_rom (i : Instr) : ¬ Writes i .rom
  | .storei _ _ _ _ hrom => hrom rfl

theorem State.storeRecord_byte_other (s : State) (record : Bytes) {d : Domain} (hd : d ≠ .video) (a : Nat) :
    (s.storeRecord record).mem.byte d a = s.mem.byte d a :=
  s.mem.store_byte_other _ _ _ _ _ fun hin => hd hin.1

/-- An instruction leaves the domains it does not write. -/
theorem Effect.byte_eq {s t : State} {i : Instr} (h : Effect s i t) {d : Domain} (hno : ¬ Writes i d) (a : Nat) :
    t.mem.byte d a = s.mem.byte d a := by
  cases h with
  | out r imm v hm => exact Memory.write_byte_other hm fun hin => hno (hin.2.1 ▸ .out r imm)
  | storei dom kind off r _ v hdom hm =>
    exact Memory.write_byte_other hm fun ⟨hrom, he, _⟩ => hno (he ▸ .storei kind off r hdom hrom)
  | dlcall n x y z => exact s.storeRecord_byte_other _ (by rintro rfl; exact hno (.dlcall n x y z)) a
  | loadmodel r => exact s.storeRecord_byte_other _ (by rintro rfl; exact hno (.loadmodel r)) a
  | _ => rfl

/-- Settles O57: of the instructions that write, only STOREI reaches the domains other than IO and Video. -/
theorem onlyStoresWriteMemory : Obligations.OnlyStoresWriteMemory := by
  intro i s t h hstorei
  have heffect := effect_of_exec h
  refine ⟨fun d hd => heffect.byte_eq fun hw => ?_, fun hout => heffect.byte_eq fun hw => ?_,
    fun hdlcall hloadmodel => heffect.byte_eq fun hw => ?_⟩
  · cases hw with
    | storei => exact hstorei _ _ _ _ rfl
    | out | dlcall | loadmodel => simp at hd
  · cases hw with
    | storei => exact hstorei _ _ _ _ rfl
    | out => exact hout _ _ rfl
  · cases hw with
    | storei => exact hstorei _ _ _ _ rfl
    | dlcall => exact hdlcall _ _ _ _ rfl
    | loadmodel => exact hloadmodel _ rfl

/-- Settles O56: a step that runs an instruction leaves ROM, which none writes, and a stop leaves all memory. -/
theorem romNeverChanges : Obligations.RomNeverChanges := by
  intro s t h a
  obtain ⟨-, hnext⟩ | ⟨-, c, -, hnext⟩ | ⟨-, -, hnext⟩ | ⟨-, i, -, hnext⟩ := step_cases s _ h
  · cases hnext; rfl
  · cases hnext; rfl
  · cases hnext
  · exact (effect_of_exec hnext.symm).byte_eq (not_writes_rom i) a

/-! ### The domain numbers (20_memory.md R80) and the memory reset port (R93) -/

theorem Domain.ofNumber_of_ge {d : Byte} (h : 7 ≤ d.toNat) : Domain.ofNumber d = none := by
  unfold Domain.ofNumber
  obtain ⟨k, hk⟩ := Nat.exists_eq_add_of_le' h
  rw [hk]
  rfl

/-- Settles O35: the seven rows are evaluated. -/
theorem domainTable : Obligations.DomainTable := ⟨rfl, fun _ => Domain.ofNumber_of_ge⟩

/-- The reset lists no byte outside ROM, and an unlisted byte reads as 0. -/
theorem State.memReset_byte (s : State) (d : Domain) (a : Nat) :
    s.memReset.mem.byte d a = if d = .rom then s.mem.byte .rom a else 0x00 := by
  cases d <;> rfl

theorem State.memReset_frame (s : State) : SameBut [.memory, .operandStack, .programLength] s s.memReset := by
  intro p hp
  cases p with
  | memory | operandStack | programLength => simp at hp
  | regs => exact s.memReset_cell
  | _ => rfl

/-- Settles O48: the frame and the bytes of the port, with its two laws on the stack and the program. -/
theorem memResetPort : Obligations.MemResetPort :=
  fun s => ⟨s.memReset_frame, s.memReset_byte, s.memReset_operandStack, s.memReset_programLength⟩

end Sys2Proof.Machine
end

section
/-! The decoder and the encoder (30_encoding.md R132 to R144, obligations O1, O2). `Builder.Makes` says which operand
bytes make which instruction; decoding the fields is held to it in both directions, so that the round trip and its
converse are the two directions of one equivalence, `decode_eq_instr_iff`. -/

namespace Sys2Proof

/-- A row of the opcode map makes an instruction of operand bytes (R132, R138). -/
inductive Builder.Makes : Builder → Bytes → Instr → Prop where
  | n (i : Instr) : Makes (.n i) [] i
  | ri (mk : Byte → Word → Instr) (r : Byte) (imm : Word) : Makes (.ri mk) (r :: le32 imm) (mk r imm)
  | rr (mk : Byte → Byte → Instr) (ra rb : Byte) : Makes (.rr mk) [ra, rb] (mk ra rb)
  | r (mk : Byte → Instr) (r : Byte) : Makes (.r mk) [r] (mk r)
  | a (mk : Word → Instr) (addr : Word) : Makes (.a mk) (le32 addr) (mk addr)
  | b (mk : Byte → Instr) (b : Byte) : Makes (.b mk) [b] (mk b)
  | m (mk : Byte → Byte → Word → Byte → Instr) (dom kind : Byte) (off : Word) (r : Byte) :
      Makes (.m mk) (dom :: kind :: (le32 off ++ [r])) (mk dom kind off r)
  | s (mk : Bytes → Instr) (s : Bytes) (hfits : stringFits s = true) : Makes (.s mk) (lengthByte s :: s) (mk s)
  | v (mk : Word → Word → Word → Instr) (x y z : Word) : Makes (.v mk) (le32 x ++ le32 y ++ le32 z) (mk x y z)
  | sv (mk : Bytes → Word → Word → Word → Instr) (s : Bytes) (x y z : Word) (hfits : stringFits s = true) :
      Makes (.sv mk) (lengthByte s :: (s ++ (le32 x ++ le32 y ++ le32 z))) (mk s x y z)
  | rs (mk : Byte → Bytes → Instr) (r : Byte) (s : Bytes) (hfits : stringFits s = true) :
      Makes (.rs mk) (r :: lengthByte s :: s) (mk r s)

theorem decodeFields_of_makes {row : Builder} {fields : Bytes} {i : Instr} (h : row.Makes fields i) (rest : Bytes) :
    decodeFields row (fields ++ rest) = some (i, rest) := by
  cases h with
  | n | rr | r | b => rfl
  | ri | a | m => simp [decodeFields, le32]
  | s _ s hfits | rs _ _ s hfits => simp [decodeFields, decodeString_lengthByte s rest hfits]
  | v => simp only [decodeFields, decodeTriple_le32, Option.map_some]
  | sv _ s x y z hfits =>
    rw [List.cons_append, List.append_assoc]
    simp only [decodeFields, decodeString_lengthByte _ _ hfits, Option.bind_some, decodeTriple_le32, Option.map_some]

theorem makes_of_decodeFields {row : Builder} {bs rest : Bytes} {i : Instr} (h : decodeFields row bs = some (i, rest)) :
    ∃ fields, row.Makes fields i ∧ bs = fields ++ rest := by
  unfold decodeFields at h
  split at h
  case h_1 i => cases h; exact ⟨_, .n i, rfl⟩
  case h_2 mk r b0 b1 b2 b3 _ => cases h; exact ⟨_, .ri mk r (ofLe32 b0 b1 b2 b3), by simp⟩
  case h_3 mk ra rb _ => cases h; exact ⟨_, .rr mk ra rb, rfl⟩
  case h_4 mk r _ => cases h; exact ⟨_, .r mk r, rfl⟩
  case h_5 mk b0 b1 b2 b3 _ => cases h; exact ⟨_, .a mk (ofLe32 b0 b1 b2 b3), by simp⟩
  case h_6 mk b _ => cases h; exact ⟨_, .b mk b, rfl⟩
  case h_7 mk dom kind o0 o1 o2 o3 r _ =>
    cases h; exact ⟨_, .m mk dom kind (ofLe32 o0 o1 o2 o3) r, by simp⟩
  case h_8 mk =>
    obtain ⟨⟨s, _⟩, hstring, hmade⟩ := Option.map_eq_some_iff.1 h
    obtain ⟨hfits, rfl⟩ := (decodeString_cases ..).1 hstring
    cases hmade; exact ⟨_, .s mk s hfits, rfl⟩
  case h_9 mk =>
    obtain ⟨⟨⟨x, y, z⟩, _⟩, htriple, hmade⟩ := Option.map_eq_some_iff.1 h
    obtain rfl := (decodeTriple_cases ..).1 htriple
    cases hmade; exact ⟨_, .v mk x y z, rfl⟩
  case h_10 mk =>
    obtain ⟨⟨s, _⟩, hstring, hbind⟩ := Option.bind_eq_some_iff.1 h
    obtain ⟨⟨⟨x, y, z⟩, _⟩, htriple, hmade⟩ := Option.map_eq_some_iff.1 hbind
    obtain ⟨hfits, rfl⟩ := (decodeString_cases ..).1 hstring
    obtain rfl := (decodeTriple_cases ..).1 htriple
    cases hmade; exact ⟨_, .sv mk s x y z hfits, by simp⟩
  case h_11 mk r _ =>
    obtain ⟨⟨s, _⟩, hstring, hmade⟩ := Option.map_eq_some_iff.1 h
    obtain ⟨hfits, rfl⟩ := (decodeString_cases ..).1 hstring
    cases hmade; exact ⟨_, .rs mk r s hfits, rfl⟩
  case h_12 => cases h

/-! ### The opcode map read both ways (R139) -/

theorem exists_makes_operandBytes {i : Instr} (h : i.wellFormed = true) :
    ∃ row, opcodeMap i.opcode = some row ∧ row.format = Laws.formatOf i ∧ row.Makes i.operandBytes i := by
  cases i with
  | hlt | ret | dlend => exact ⟨_, rfl, rfl, .n _⟩
  | mov | movf | li | addi | subi | muli | divi | andi | ori | xori | shli | shri | cmpi | inp | out =>
    exact ⟨_, rfl, rfl, .ri ..⟩
  | add | sub | mul | div | and | or | xor | shl | shr | fadd | fsub | fmul | fdiv | fmod | cmp =>
    exact ⟨_, rfl, rfl, .rr ..⟩
  | not | itof | ftoi | push | pop | rand | time | loadmodel => exact ⟨_, rfl, rfl, .r ..⟩
  | jmp | jz | jnz | jg | jl | jge | jle | call => exact ⟨_, rfl, rfl, .a ..⟩
  | intr | dlprimitive => exact ⟨_, rfl, rfl, .b ..⟩
  | loadi | storei => exact ⟨_, rfl, rfl, .m ..⟩
  | dlstart | dlcolor => exact ⟨_, rfl, rfl, .s _ _ h⟩
  | dlvertex => exact ⟨_, rfl, rfl, .v ..⟩
  | dlcall => exact ⟨_, rfl, rfl, .sv _ _ _ _ _ h⟩
  | storemodel => exact ⟨_, rfl, rfl, .rs _ _ _ h⟩

/-- No row makes an instruction of another opcode, or of operand bytes that are not its own. -/
theorem encode_of_makes {op : Byte} {row : Builder} {fields : Bytes} {i : Instr} (hrow : opcodeMap op = some row)
    (h : row.Makes fields i) : i.wellFormed = true ∧ encode i = op :: fields := by
  unfold opcodeMap at hrow
  split at hrow
  case h_59 => cases hrow
  all_goals
    rename_i hop
    obtain ⟨-, rfl⟩ := BitVec.toNat_eq_nat.1 hop
    cases hrow
    cases h
    exact ⟨by simp only [Instr.wellFormed, *], rfl⟩

theorem decode_cons_eq_instr_iff (op : Byte) (bs : Bytes) (i : Instr) (rest : Bytes) :
    decode (op :: bs) = .instr i rest ↔ ∃ row, opcodeMap op = some row ∧ decodeFields row bs = some (i, rest) := by
  rw [decode]
  cases hrow : opcodeMap op with
  | none => simp
  | some row => cases hfields : decodeFields row bs <;> simp [hfields, Prod.ext_iff]

/-- A byte sequence decodes to an instruction exactly when it begins with the encoding of a well-formed one. -/
theorem decode_eq_instr_iff (bs : Bytes) (i : Instr) (rest : Bytes) :
    decode bs = .instr i rest ↔ i.wellFormed = true ∧ bs = encode i ++ rest := by
  constructor
  · intro h
    cases bs with
    | nil => cases h
    | cons op bs =>
      obtain ⟨row, hrow, hfields⟩ := (decode_cons_eq_instr_iff ..).1 h
      obtain ⟨fields, hmakes, rfl⟩ := makes_of_decodeFields hfields
      obtain ⟨hwf, hencode⟩ := encode_of_makes hrow hmakes
      exact ⟨hwf, by rw [hencode, List.cons_append]⟩
  · rintro ⟨hwf, rfl⟩
    obtain ⟨row, hrow, -, hmakes⟩ := exists_makes_operandBytes hwf
    exact (decode_cons_eq_instr_iff ..).2 ⟨row, hrow, decodeFields_of_makes hmakes rest⟩

/-- Settles O1: what begins with the encoding of a well-formed instruction decodes to it. -/
theorem decodeOfEncode : Obligations.DecodeOfEncode :=
  fun i hwf rest => (decode_eq_instr_iff _ i rest).2 ⟨hwf, rfl⟩

/-- Settles O2: what decodes begins with the encoding of a well-formed instruction. -/
theorem encodeOfDecode : Obligations.EncodeOfDecode := fun bs i rest h =>
  have ⟨hwf, hbytes⟩ := (decode_eq_instr_iff bs i rest).1 h
  ⟨hwf, hbytes.symm⟩

/-! ### The illegal opcodes (R140) -/

theorem decode_eq_illegalOpcode_iff (op : Byte) (rest : Bytes) :
    decode (op :: rest) = .illegalOpcode op ↔ opcodeMap op = none := by
  rw [decode]
  cases opcodeMap op with
  | none => simp
  | some row => cases hfields : decodeFields row rest <;> simp [hfields]

/-- The first and the last byte of each range of R140. -/
def illegalRanges : List (Nat × Nat) :=
  [(0x04, 0x0F), (0x1A, 0x1F), (0x27, 0x27), (0x2A, 0x2F), (0x35, 0x37), (0x3A, 0x3F), (0x42, 0x4F), (0x57, 0x57),
    (0x5A, 0x5F), (0x62, 0x67), (0x6A, 0x6F), (0x73, 0x7F), (0x82, 0x8F), (0x98, 0xFF)]

/-- The 256 opcode bytes are evaluated. -/
theorem opcodeMap_eq_none_iff (op : Byte) :
    opcodeMap op = none ↔ ∃ p ∈ illegalRanges, p.1 ≤ op.toNat ∧ op.toNat ≤ p.2 := by
  rw [← Option.isNone_iff_eq_none]
  revert op
  decide

end Sys2Proof
end

section
/-! The fetch of a step (30_encoding.md R130, R131, R134, R143, obligations O3, O5, O6). `CodeHolds` says that the program
holds an instruction at pc, as far as the program reaches. `fetch_of_codeHolds` then says what the fetch finds: the
instruction, or the program's end where the instruction extends past it. -/

namespace Sys2Proof

/-! ### The length of an encoding (R134) -/

theorem encode_length (i : Instr) : (encode i).length = i.len := by
  cases i with
  | dlstart | dlcolor | dlcall | storemodel =>
    simp only [encode, Instr.operandBytes, Instr.len, List.length_cons, List.length_append, le32_length]
    omega
  | _ => rfl

theorem encode_length_pos (i : Instr) : 0 < (encode i).length := Nat.succ_pos _

end Sys2Proof

namespace Sys2Proof.Machine

/-- The bytes of an instruction stand at pc, as far as the program reaches. -/
def CodeHolds (s : State) (i : Instr) : Prop :=
  ∀ k, (h : k < (encode i).length) → s.pc.toNat + k < s.programLength.toNat →
    s.mem.byte .code (s.pc.toNat + k) = (encode i)[k]

theorem codeHolds_of_span {s : State} {i : Instr} (h : s.mem.span .code s.pc.toNat i.len = encode i) : CodeHolds s i := by
  intro k hk _
  simp only [← h, Memory.span_getElem]

theorem span_of_codeHolds {s : State} {i : Instr} (h : CodeHolds s i) (hin : s.pc.toNat + i.len ≤ s.programLength.toNat) :
    s.mem.span .code s.pc.toNat i.len = encode i := by
  refine List.ext_getElem (by rw [Memory.span_length, encode_length]) fun k _ hk => ?_
  have hlen := encode_length i
  rw [Memory.span_getElem, h k hk (by omega)]

/-- The length of a string format is known once its length byte is in the program; before that the instruction already
extends past the program's end. -/
theorem stringLength_of_codeHolds {s : State} {i : Instr} (h : CodeHolds s i) {f : Format} {at_ base : Nat} {n : Bytes}
    (hfetch : fetchLength f s = if s.programLength.toNat ≤ s.pc.toNat + at_ then none
      else some (base + (s.mem.byte .code (s.pc.toNat + at_)).toNat))
    (hfits : stringFits n = true) (hbyte : (encode i)[at_]? = some (lengthByte n)) (hlen : i.len = base + n.length) :
    fetchLength f s = some i.len ∨ fetchLength f s = none ∧ s.programLength.toNat < s.pc.toNat + i.len := by
  obtain ⟨hat, hbyte⟩ := List.getElem?_eq_some_iff.1 hbyte
  by_cases hcut : s.programLength.toNat ≤ s.pc.toNat + at_
  · have hlength := encode_length i
    exact .inr ⟨by rw [hfetch, if_pos hcut], by omega⟩
  · have hread := h at_ hat (by omega)
    exact .inl (by rw [hfetch, if_neg hcut, hread, hbyte, lengthByte_toNat n hfits, hlen])

theorem fetchLength_of_codeHolds {s : State} {i : Instr} (h : CodeHolds s i) (hwf : i.wellFormed = true) :
    fetchLength (Laws.formatOf i) s = some i.len
      ∨ fetchLength (Laws.formatOf i) s = none ∧ s.programLength.toNat < s.pc.toNat + i.len := by
  cases i with
  | dlstart n | dlcolor n | dlcall n | storemodel _ n => exact stringLength_of_codeHolds h rfl (n := n) hwf rfl rfl
  | _ => exact .inl rfl

/-! ### What the fetch finds -/

theorem fetch_of_end {s : State} (h : s.programLength.toNat ≤ s.pc.toNat) : fetch s = .stop .endOfProgram := by
  simp only [fetch, if_pos h]

theorem fetch_of_illegal {s : State} (hin : s.pc.toNat < s.programLength.toNat)
    (hsize : s.programLength.toNat ≤ Config.sizeCode) (hop : opcodeMap (s.mem.byte .code s.pc.toNat) = none) :
    fetch s = .stop .illegalOpcode := by
  simp only [fetch, if_neg (Nat.not_le.2 hin), if_neg (Nat.not_le.2 (hin.trans_le hsize)), hop]

/-- The fetch of a legal opcode goes on to the instruction's length (R134). -/
theorem fetch_of_row {s : State} {row : Builder} (hin : s.pc.toNat < s.programLength.toNat)
    (hsize : s.programLength.toNat ≤ Config.sizeCode) (hop : opcodeMap (s.mem.byte .code s.pc.toNat) = some row) :
    (fetchLength row.format s = none → fetch s = .stop .endOfProgram)
      ∧ ∀ len, fetchLength row.format s = some len →
        (s.programLength.toNat < s.pc.toNat + len → fetch s = .stop .endOfProgram)
        ∧ ∀ i rest, s.pc.toNat + len ≤ s.programLength.toNat → decode (s.mem.span .code s.pc.toNat len) = .instr i rest →
          fetch s = .instr i := by
  simp only [fetch, if_neg (Nat.not_le.2 hin), if_neg (Nat.not_le.2 (hin.trans_le hsize)), hop]
  refine ⟨fun hnone => by simp only [hnone], fun len hlen => ⟨fun hcut => ?_, fun i rest hfull hdecode => ?_⟩⟩
  · simp only [hlen, if_pos hcut]
  · simp only [hlen, if_neg (Nat.not_lt.2 hfull), if_neg (Nat.not_lt.2 (hfull.trans hsize)), hdecode]

theorem fetch_of_codeHolds {s : State} {i : Instr} (hin : s.pc.toNat < s.programLength.toNat)
    (hsize : s.programLength.toNat ≤ Config.sizeCode) (hwf : i.wellFormed = true) (h : CodeHolds s i) :
    fetch s = if s.pc.toNat + i.len ≤ s.programLength.toNat then .instr i else .stop .endOfProgram := by
  obtain ⟨row, hrow, hformat, -⟩ := exists_makes_operandBytes hwf
  have hop : s.mem.byte .code s.pc.toNat = i.opcode := h 0 (encode_length_pos i) hin
  obtain ⟨hnone, hsome⟩ := fetch_of_row hin hsize (hop ▸ hrow)
  rw [hformat] at hnone hsome
  obtain hlen | ⟨hcut, hpast⟩ := fetchLength_of_codeHolds h hwf
  · obtain ⟨hpast, hfull⟩ := hsome _ hlen
    split
    · rename_i hle
      have hdecode : decode (s.mem.span .code s.pc.toNat i.len) = .instr i [] :=
        (decode_eq_instr_iff ..).2 ⟨hwf, by rw [span_of_codeHolds h hle, List.append_nil]⟩
      exact hfull i [] hle hdecode
    · exact hpast (by omega)
  · rw [if_neg (by omega), hnone hcut]

/-! ### What the step does with it -/

theorem step_of_stopped {s : State} (h : s.running = false) : step s = .next s := by
  simp [step, h]

theorem step_of_fetch_instr {s : State} {i : Instr} (hrun : s.running = true) (h : fetch s = .instr i) :
    step s = exec i s := by
  simp [step, hrun, h]

theorem StepHalts.of {s : State} {c : StopCode} (hrun : s.running = true) (h : fetch s = .stop c) : StepHalts s c := by
  refine ⟨s.halt c, by simp [step, hrun, h], fun p hp => ?_, rfl, rfl, rfl⟩
  cases p with
  | running | stop | log => simp at hp
  | regs => exact fun _ => rfl
  | memory => exact fun _ _ => rfl
  | _ => rfl

/-- Settles O6: the fetch finds the program's end in both cases where the CPU runs. -/
theorem stepStopsAtFetch : Obligations.StepStopsAtFetch := by
  refine fun s => ⟨step_of_stopped, fun hrun hend => .of hrun (fetch_of_end hend), ?_⟩
  intro hrun hin hsize i hwf hpast hbytes
  have hholds : CodeHolds s i := hbytes
  exact .of hrun (by rw [fetch_of_codeHolds hin hsize hwf hholds, if_neg (by omega)])

/-- Settles O3: an opcode byte is illegal when the opcode map has no row for it, and the fetch stops there. -/
theorem illegalOpcodesHalt : Obligations.IllegalOpcodesHalt := by
  refine ⟨fun op rest => (decode_eq_illegalOpcode_iff op rest).trans (opcodeMap_eq_none_iff op), ?_⟩
  intro s hrun hin hsize hillegal
  exact .of hrun (fetch_of_illegal hin hsize ((decode_eq_illegalOpcode_iff ..).1 hillegal))

/-- Settles O5: the fetch finds the instruction, whole. -/
theorem stepRunsDecoded : Obligations.StepRunsDecoded := by
  intro s i hrun hwf hfull hsize hspan
  have hpos : 0 < i.len := encode_length i ▸ encode_length_pos i
  have hfetch := fetch_of_codeHolds (by omega) hsize hwf (codeHolds_of_span hspan)
  exact step_of_fetch_instr hrun (by rw [hfetch, if_pos hfull])

end Sys2Proof.Machine
end

section
/-! Move and conversion (family 40_move_convert.md, obligations O4, O7, O8, O9, O10). The instructions write one
register cell and pass pc. The round trips rest on one fact: a magnitude that some pattern has exactly is converted without
rounding. Every magnitude up to 2^24 is one of these, and so is every truncated binary32 value. -/

namespace Sys2Proof.Machine

/-- Settles O4: the bytes are the encodings of the instructions, which decode to them. -/
theorem sampleBytesDecode : Obligations.SampleBytesDecode :=
  ⟨decodeOfEncode (.mov 0 10) rfl [], decodeOfEncode (.add 0 1) rfl [], decodeOfEncode (.jmp 11) rfl [],
    decodeOfEncode (.loadi 6 0 16 2) rfl [], decodeOfEncode (.storemodel 10 [0x43, 0x55, 0x42, 0x45]) rfl []⟩

/-! ### One cell written, and pc passed -/

theorem State.setCell_advance_frame (s : State) (c : RegIdx) (v : RegCell) (n : Nat) :
    SameBut [.regs, .pc] s ((s.setCell c v).advance n) := by
  intro p hp
  cases p with
  | regs | pc => simp at hp
  | memory => exact fun _ _ => rfl
  | _ => rfl

theorem State.setCell_advance_writesCell (s : State) (c : RegIdx) (v : RegCell) (n : Nat) :
    WritesCell c v s ((s.setCell c v).advance n) := by
  constructor
  · rw [State.advance_cell, State.setCell_cell, if_pos rfl]
  · intro j hj
    rw [State.advance_cell, State.setCell_cell, if_neg hj]

theorem Completes.of_setCell {i : Instr} {s : State} {c : RegIdx} {v : RegCell} {n : Nat}
    (h : exec i s = .next ((s.setCell c v).advance n)) :
    Completes i s [.regs, .pc] fun t => WritesCell c v s t ∧ t.pc = s.pc + BitVec.ofNat 32 n :=
  .of h (s.setCell_advance_frame c v n) ⟨s.setCell_advance_writesCell c v n, rfl⟩

/-- Settles O7: each of the three writes the cell, with its tag, once the register index is good. -/
theorem moveLoadsImmediate : Obligations.MoveLoadsImmediate := by
  intro p hp s r imm
  simp only [List.mem_cons, List.not_mem_nil, or_false] at hp
  obtain rfl | rfl | rfl := hp
  · exact ⟨rfl, .of (fun c => (s.writeInt c imm).advance 6) rfl rfl fun _ => .of_setCell⟩
  · exact ⟨rfl, .of (fun c => (s.writeFloat c imm).advance 6) rfl rfl fun _ => .of_setCell⟩
  · exact ⟨rfl, .of (fun c => (s.writeInt c imm).advance 6) rfl rfl fun _ => .of_setCell⟩

/-! ### The two conversions -/

theorem i2f_rounds (v : Word) : Rounds (i2f v) (decide (v.toInt < 0)) (v.toInt.natAbs * 2 ^ 149) 1 :=
  roundsToNearestEven _ _ _ Nat.one_pos

/-- Settles O8: the cell holds `i2f` of its integer, which is the nearest binary32. -/
theorem itofConverts : Obligations.ItofConverts := by
  refine fun s r => ⟨rfl, .of (fun c v => (s.writeFloat c (i2f v)).advance 2) rfl rfl fun c hc => ?_⟩
  obtain ⟨t, hexec, hframe, hcell, hpc⟩ := Completes.of_setCell hc
  exact .of hexec hframe ⟨⟨i2f (s.cell c).bits, i2f_rounds _, hcell⟩, hpc⟩

/-- The value of a pattern truncated toward zero (R206 `trunc`). -/
def f32Trunc (f : Word) : Int := (f32Units f).tdiv (2 ^ 149)

/-- FTOI has no result for a NaN, an infinity and a truncated value that is no `i32`. -/
theorem f2i_eq_ite (f : Word) :
    f2i f = if f32IsNan f ∨ f32IsInf f ∨ f32Trunc f < -2 ^ 31 ∨ 2 ^ 31 - 1 < f32Trunc f then none
      else some (BitVec.ofInt 32 (f32Trunc f)) := by
  have hunits : ((unitsPerOne : Nat) : Int) = 2 ^ 149 := Nat.cast_pow 2 149
  unfold f2i
  rw [hunits, ← f32Trunc]
  by_cases hspecial : f32IsNan f ∨ f32IsInf f
  · rw [if_pos (by simpa using hspecial), if_pos (by tauto)]
  · rw [if_neg (by simpa using hspecial)]
    exact if_congr (by tauto) rfl rfl

theorem f2i_getD (f d : Word) :
    (f2i f).getD d = if f32IsNan f ∨ f32IsInf f ∨ f32Trunc f < -2 ^ 31 ∨ 2 ^ 31 - 1 < f32Trunc f then d
      else BitVec.ofInt 32 (f32Trunc f) := by
  rw [f2i_eq_ite]
  split <;> rfl

theorem f2i_eq_some_iff (f v : Word) :
    f2i f = some v ↔ f32Magnitude f < infinityPattern ∧ v.toInt = f32Trunc f := by
  have hfinite : f32Magnitude f < infinityPattern ↔ ¬ (f32IsNan f ∨ f32IsInf f) := by
    simp only [f32IsNan, f32IsInf, decide_eq_true_eq]
    omega
  have hlow := BitVec.le_toInt v
  have hhigh := BitVec.toInt_lt (x := v)
  rw [f2i_eq_ite, hfinite]
  split
  · rename_i hnone
    refine iff_of_false (by simp) fun ⟨hspecial, hv⟩ => ?_
    have hrange : f32Trunc f < -2 ^ 31 ∨ 2 ^ 31 - 1 < f32Trunc f := by tauto
    omega
  · rename_i hsome
    have hv : (BitVec.ofInt 32 (f32Trunc f)).toInt = f32Trunc f := by
      rw [BitVec.toInt_ofInt, Int.bmod_eq_of_le] <;> omega
    rw [Option.some.injEq, ← BitVec.toInt_inj, hv, eq_comm]
    exact (and_iff_right (by tauto)).symm

/-- Settles O9: the cell holds the result of `f2i`, or FTOI_INVALID where there is none. -/
theorem ftoiTruncates : Obligations.FtoiTruncates := by
  refine fun s r => ⟨rfl, .of (fun c f => (s.writeInt c ((f2i f).getD Config.ftoiInvalid)).advance 2) rfl rfl
    fun c hc => ?_⟩
  rw [f2i_getD] at hc
  exact .of_setCell hc

/-! ### Exact conversions (R207) -/

/-- The whole number is the value of a finite magnitude pattern. -/
def ExactInF32 (n : Nat) : Prop := ∃ p < infinityPattern, magnitudeUnits p = n * 2 ^ 149

theorem roundUnits_magnitudeUnits {p : Nat} (hp : p < infinityPattern) : roundUnits (magnitudeUnits p) 1 = p := by
  obtain ⟨hnearest, -⟩ := nearestPattern_nearest (num := magnitudeUnits p) Nat.one_pos p
  simp only [unitsApart_eq_natAbs, Nat.one_mul, sub_self, Int.natAbs_zero] at hnearest
  have hp' : nearestPattern (magnitudeUnits p) 1 = p := magnitudeUnits_strictMono.injective (by omega)
  rw [roundUnits_eq_min, hp', min_eq_left hp.le]

theorem f32Units_f32OfMagnitude (negative : Bool) {p : Nat} (hp : p < infinityPattern) :
    f32Units (f32OfMagnitude negative p) = if negative then -(magnitudeUnits p : Int) else magnitudeUnits p := by
  have hlt : p < 2 ^ 31 := hp.trans (by decide)
  rw [f32Units, f32Negative_f32OfMagnitude negative hlt, f32Magnitude_f32OfMagnitude negative hlt]

/-- An exact integer is converted without rounding. -/
theorem i2f_of_exact {v : Word} (h : ExactInF32 v.toInt.natAbs) :
    f32Magnitude (i2f v) < infinityPattern ∧ f32Units (i2f v) = v.toInt * 2 ^ 149 := by
  obtain ⟨p, hp, hunits⟩ := h
  have hpattern : i2f v = f32OfMagnitude (decide (v.toInt < 0)) p := by
    rw [i2f, f32OfRatio, unitsPerOne, ← hunits, roundUnits_magnitudeUnits hp]
  rw [hpattern, f32Units_f32OfMagnitude _ hp, f32Magnitude_f32OfMagnitude _ (hp.trans (by decide)), hunits]
  refine ⟨hp, ?_⟩
  simp only [decide_eq_true_eq]
  split <;> omega

/-- Shifting left until bit 23 is reached gives a significand, the carry 2^24 included. -/
theorem shifted_significand_bounds {n : Nat} (hpos : 0 < n) (hn : n ≤ 2 ^ 24) :
    2 ^ 23 ≤ n * 2 ^ (23 - n.log2) ∧ n * 2 ^ (23 - n.log2) ≤ 2 ^ 24 := by
  constructor
  · calc 2 ^ 23 ≤ 2 ^ (n.log2 + (23 - n.log2)) := Nat.pow_le_pow_right (by omega) (by omega)
      _ = 2 ^ n.log2 * 2 ^ (23 - n.log2) := pow_add ..
      _ ≤ n * 2 ^ (23 - n.log2) := Nat.mul_le_mul_right _ (Nat.log2_self_le hpos.ne')
  · obtain hshort | hcarry := Nat.lt_or_ge n.log2 24
    · calc n * 2 ^ (23 - n.log2) ≤ 2 ^ (n.log2 + 1) * 2 ^ (23 - n.log2) :=
            Nat.mul_le_mul_right _ Nat.lt_log2_self.le
        _ = 2 ^ (n.log2 + 1 + (23 - n.log2)) := (pow_add ..).symm
        _ = 2 ^ 24 := by rw [show n.log2 + 1 + (23 - n.log2) = 24 by omega]
    · rwa [show 23 - n.log2 = 0 by omega, pow_zero, mul_one]

theorem exactInF32_of_le {n : Nat} (hn : n ≤ 2 ^ 24) : ExactInF32 n := by
  obtain rfl | hpos := Nat.eq_zero_or_pos n
  · exact ⟨0, by decide, by simp [magnitudeUnits]⟩
  · obtain ⟨hlow, hhigh⟩ := shifted_significand_bounds hpos hn
    refine ⟨(149 - (23 - n.log2)) * 2 ^ 23 + n * 2 ^ (23 - n.log2), by unfold infinityPattern; omega, ?_⟩
    rw [magnitudeUnits_of_significand (.inr hlow) hhigh, mul_assoc, ← pow_add,
      show 23 - n.log2 + (149 - (23 - n.log2)) = 149 by omega]

/-- A value with a fraction is truncated to fewer than 24 bits, and one without is kept. -/
theorem exactInF32_trunc {p : Nat} (hp : p < infinityPattern) : ExactInF32 (magnitudeUnits p / 2 ^ 149) := by
  obtain ⟨k, m, rfl, hlow, hm⟩ := exists_significand p
  have hunits := magnitudeUnits_of_significand hlow hm.le
  obtain hfraction | hwhole := Nat.lt_or_ge k 149
  · refine exactInF32_of_le ((Nat.div_le_of_le_mul ?_).trans hm.le)
    rw [hunits, mul_comm]
    exact Nat.mul_le_mul_right m (Nat.pow_le_pow_right (by omega) hfraction.le)
  · refine ⟨_, hp, (Nat.div_mul_cancel ?_).symm⟩
    rw [hunits]
    exact (pow_dvd_pow 2 hwhole).mul_left m

theorem natAbs_f32Trunc (f : Word) : (f32Trunc f).natAbs = magnitudeUnits (f32Magnitude f) / 2 ^ 149 := by
  rw [f32Trunc, Int.natAbs_tdiv, f32Units]
  split
  · rw [Int.natAbs_neg]; rfl
  · rfl

/-- Settles O10: the conversions of the round trips that stay in range are exact, and 2147483647 is evaluated. -/
theorem conversionRoundTrips : Obligations.ConversionRoundTrips := by
  refine ⟨fun v hv => ?_, by decide, fun f v h => ?_⟩
  · obtain ⟨hfinite, hunits⟩ := i2f_of_exact (exactInF32_of_le hv)
    have htrunc : f32Trunc (i2f v) = v.toInt := by
      rw [f32Trunc, hunits, Int.mul_tdiv_cancel _ (by decide)]
    exact (f2i_eq_some_iff _ _).2 ⟨hfinite, htrunc.symm⟩
  · obtain ⟨hfinite, htrunc⟩ := (f2i_eq_some_iff _ _).1 h
    have hexact : ExactInF32 v.toInt.natAbs := by rw [htrunc, natAbs_f32Trunc]; exact exactInF32_trunc hfinite
    rw [(i2f_of_exact hexact).2, htrunc, f32Trunc]

end Sys2Proof.Machine
end

section
/-! Integer ALU (family 41_integer_alu.md, obligations O11 to O15). Every instruction of the family reads its operands and
commits the answer of one operation, so there are two kinds of fact: what each operation answers, as arithmetic on the
operands, and what the commit of an answer changes. -/

namespace Sys2Proof.Machine

/-! ### What the operations answer (R221 to R230) -/

theorem aluAdd_eq (a b : Word) : aluAdd a b = some (BitVec.ofInt 32 (a.toInt + b.toInt)) :=
  congrArg some (BitVec.eq_of_toInt_eq (by rw [BitVec.toInt_add, BitVec.toInt_ofInt]))

theorem aluSub_eq (a b : Word) : aluSub a b = some (BitVec.ofInt 32 (a.toInt - b.toInt)) :=
  congrArg some (BitVec.eq_of_toInt_eq (by rw [BitVec.toInt_sub, BitVec.toInt_ofInt]))

theorem aluMul_eq (a b : Word) : aluMul a b = some (BitVec.ofInt 32 (a.toInt * b.toInt)) :=
  congrArg some (BitVec.eq_of_toInt_eq (by rw [BitVec.toInt_mul, BitVec.toInt_ofInt]))

theorem aluShl_eq (a b : Word) : aluShl a b = some (BitVec.ofNat 32 (a.toNat * 2 ^ (b.toNat % 32))) :=
  congrArg some (BitVec.eq_of_toNat_eq (by rw [BitVec.toNat_shiftLeft, BitVec.toNat_ofNat, Nat.shiftLeft_eq, shiftCount]))

/-- A shift right that copies the sign divides and rounds down (R230). -/
theorem aluShr_eq (a b : Word) : aluShr a b = some (BitVec.ofInt 32 (a.toInt / 2 ^ (b.toNat % 32))) := by
  rw [aluShr, shiftCount, BitVec.sshiftRight, Int.shiftRight_eq_div_pow, Nat.cast_pow, Nat.cast_ofNat]

/-- A word and its complement add up to -1 (R228). -/
theorem aluNot_eq (a : Word) : aluNot a = some (BitVec.ofInt 32 (-a.toInt - 1)) := by
  have hone : BitVec.ofInt 32 (-1) = -1#32 := by decide
  rw [aluNot, BitVec.not_eq_neg_add, BitVec.sub_eq_add_neg, Int.sub_eq_add_neg, BitVec.ofInt_add, BitVec.ofInt_neg,
    BitVec.ofInt_toInt, hone]

/-- -2^31 / -1, the one quotient that is no `i32`, needs no case of its own: its low 32 bits are those of -2^31 (R224). -/
theorem aluDiv_of_ne_zero (a : Word) {b : Word} (hb : b ≠ 0) :
    aluDiv a b = some (BitVec.ofInt 32 (a.toInt.tdiv b.toInt)) := by
  rw [aluDiv, if_neg hb]
  split
  · rename_i hoverflow
    obtain ⟨rfl, rfl⟩ := hoverflow
    decide
  · rfl

/-! ### What a commit changes (R220) -/

theorem flagsOfResult_writesZ {s t : State} {v : Word} (h : t.flags = flagsOfResult s.flags v) :
    WritesZ (decide (v = 0)) s t := by
  refine ⟨by rw [h, flagsOfResult_getLsbD, if_pos rfl], fun k hk => ?_⟩
  have hother : k ≠ 0 := by simpa using hk
  rw [h, flagsOfResult_getLsbD, if_neg hother]

theorem commitInt_some_frame (i : Instr) (c : RegIdx) (v : Word) (s : State) :
    SameBut [.regs, .flags, .pc] s (commitInt i c (some v) s) := by
  intro p hp
  cases p with
  | regs | flags | pc => simp at hp
  | memory => exact fun _ _ => rfl
  | _ => rfl

theorem commitInt_some_writesCell (i : Instr) (c : RegIdx) (v : Word) (s : State) :
    WritesCell c ⟨v, .integer, []⟩ s (commitInt i c (some v) s) :=
  State.setCell_advance_writesCell { s with flags := flagsOfResult s.flags v } c _ i.len

theorem commitInt_none_frame (i : Instr) (c : RegIdx) (s : State) : SameBut [.pc, .log] s (commitInt i c none s) := by
  intro p hp
  cases p with
  | pc | log => simp at hp
  | regs => exact fun _ => rfl
  | memory => exact fun _ _ => rfl
  | _ => rfl

section
variable {i : Instr} {s : State} {c : RegIdx} {len : Nat}

theorem Completes.of_commitInt {v : Word} (h : exec i s = .next (commitInt i c (some v) s)) (hlen : i.len = len) :
    Completes i s [.regs, .flags, .pc] fun t =>
      WritesCell c ⟨v, .integer, []⟩ s t ∧ WritesZ (decide (v = 0)) s t ∧ t.pc = s.pc + BitVec.ofNat 32 len := by
  subst hlen
  exact .of h (commitInt_some_frame i c v s) ⟨commitInt_some_writesCell i c v s, flagsOfResult_writesZ rfl, rfl⟩

theorem Completes.of_commitInt_none (h : exec i s = .next (commitInt i c none s)) (hlen : i.len = len) :
    Completes i s [.pc, .log] fun t => t.pc = s.pc + BitVec.ofNat 32 len ∧ t.log = s.log ++ [.divByZero s.pc] := by
  subst hlen
  exact .of h (commitInt_none_frame i c s) ⟨rfl, rfl⟩

/-- The commit of a division: a zero divisor is logged, and any other divisor gives the truncated quotient. -/
theorem completes_of_commitInt_aluDiv {a b : Word} (h : exec i s = .next (commitInt i c (aluDiv a b) s))
    (hlen : i.len = len) :
    if b = 0 then
      Completes i s [.pc, .log] fun t => t.pc = s.pc + BitVec.ofNat 32 len ∧ t.log = s.log ++ [.divByZero s.pc]
    else
      Completes i s [.regs, .flags, .pc] fun t =>
        let v : Word := BitVec.ofInt 32 (a.toInt.tdiv b.toInt)
        WritesCell c ⟨v, .integer, []⟩ s t ∧ WritesZ (decide (v = 0)) s t ∧ t.pc = s.pc + BitVec.ofNat 32 len := by
  split
  · rename_i hzero
    rw [aluDiv, if_pos hzero] at h
    exact .of_commitInt_none h hlen
  · rename_i hb
    rw [aluDiv_of_ne_zero a hb] at h
    exact .of_commitInt h hlen

/-! ### The two general forms, for an operation that always answers -/

variable {op : Word → Word → Option Word} {f : Word → Word → Word}

theorem WithReads.of_intRegReg {ra rb : Byte} (hop : ∀ a b, op a b = some (f a b))
    (h : exec i s = .next (intRegReg i op ra rb s)) (hlen : i.len = 3) :
    WithReads .integer i s ra rb 3 fun a b =>
      Completes i s [.regs, .flags, .pc] fun t =>
        let v := f (s.cell a).bits (s.cell b).bits
        WritesCell a ⟨v, .integer, []⟩ s t ∧ WritesZ (decide (v = 0)) s t ∧ t.pc = s.pc + 3 := by
  refine .of (fun c _ a b => commitInt i c (op a b) s) h hlen fun c d hc => ?_
  rw [hop] at hc
  exact .of_commitInt hc hlen

theorem WithRead.of_intRegImm {r : Byte} {imm : Word} (hop : ∀ a b, op a b = some (f a b))
    (h : exec i s = .next (intRegImm i op r imm s)) (hlen : i.len = 6) :
    WithRead .integer i s r 6 fun c =>
      Completes i s [.regs, .flags, .pc] fun t =>
        let v := f (s.cell c).bits imm
        WritesCell c ⟨v, .integer, []⟩ s t ∧ WritesZ (decide (v = 0)) s t ∧ t.pc = s.pc + 6 := by
  refine .of (fun c a => commitInt i c (op a imm) s) h hlen fun c hc => ?_
  rw [hop] at hc
  exact .of_commitInt hc hlen

end

/-! ### The instructions -/

/-- Settles O11: each of the eight is the register form of its operation. -/
theorem integerRegisterForms : Obligations.IntegerRegisterForms := by
  intro p hp s ra rb
  simp only [List.mem_cons, List.not_mem_nil, or_false] at hp
  obtain rfl | rfl | rfl | rfl | rfl | rfl | rfl | rfl := hp
  · exact ⟨rfl, .of_intRegReg aluAdd_eq rfl rfl⟩
  · exact ⟨rfl, .of_intRegReg aluSub_eq rfl rfl⟩
  · exact ⟨rfl, .of_intRegReg aluMul_eq rfl rfl⟩
  · exact ⟨rfl, .of_intRegReg (op := aluAnd) (fun _ _ => rfl) rfl rfl⟩
  · exact ⟨rfl, .of_intRegReg (op := aluOr) (fun _ _ => rfl) rfl rfl⟩
  · exact ⟨rfl, .of_intRegReg (op := aluXor) (fun _ _ => rfl) rfl rfl⟩
  · exact ⟨rfl, .of_intRegReg aluShl_eq rfl rfl⟩
  · exact ⟨rfl, .of_intRegReg aluShr_eq rfl rfl⟩

/-- Settles O12: each of the eight is the immediate form of its operation. -/
theorem integerImmediateForms : Obligations.IntegerImmediateForms := by
  intro p hp s r imm
  simp only [List.mem_cons, List.not_mem_nil, or_false] at hp
  obtain rfl | rfl | rfl | rfl | rfl | rfl | rfl | rfl := hp
  · exact ⟨rfl, .of_intRegImm aluAdd_eq rfl rfl⟩
  · exact ⟨rfl, .of_intRegImm aluSub_eq rfl rfl⟩
  · exact ⟨rfl, .of_intRegImm aluMul_eq rfl rfl⟩
  · exact ⟨rfl, .of_intRegImm (op := aluAnd) (fun _ _ => rfl) rfl rfl⟩
  · exact ⟨rfl, .of_intRegImm (op := aluOr) (fun _ _ => rfl) rfl rfl⟩
  · exact ⟨rfl, .of_intRegImm (op := aluXor) (fun _ _ => rfl) rfl rfl⟩
  · exact ⟨rfl, .of_intRegImm aluShl_eq rfl rfl⟩
  · exact ⟨rfl, .of_intRegImm aluShr_eq rfl rfl⟩

/-- Settles O13: the commit of the complement. -/
theorem notComplements : Obligations.NotComplements := by
  refine fun s r => ⟨rfl, .of (fun c a => commitInt (.not r) c (aluNot a) s) rfl rfl fun c hc => ?_⟩
  rw [aluNot_eq] at hc
  exact .of_commitInt hc rfl

/-- Settles O14: the commit of the division of two cells. -/
theorem divTruncates : Obligations.DivTruncates := fun s ra rb =>
  ⟨rfl, .of (fun c _ a b => commitInt (.div ra rb) c (aluDiv a b) s) rfl rfl fun _ _ hc =>
    completes_of_commitInt_aluDiv hc rfl⟩

/-- Settles O15: the commit of the division of a cell by the immediate. -/
theorem diviTruncates : Obligations.DiviTruncates := fun s r imm =>
  ⟨rfl, .of (fun c a => commitInt (.divi r imm) c (aluDiv a imm) s) rfl rfl fun _ hc =>
    completes_of_commitInt_aluDiv hc rfl⟩

end Sys2Proof.Machine
end

section
/-! Float ALU (family 42_float_alu.md, obligations O16, O17, O19). Each operation rounds an exact value, behind checks for
special operands that its `_eq_ite` lemma puts in the order of Safety.lean. The remainder needs no rounding: it is a multiple
of the smaller spacing of its operands and no larger than either, so it has at most 24 significant bits. -/

namespace Sys2Proof.Machine

/-! ### The classes and values of patterns -/

theorem f32Magnitude_lt_infinityPattern_iff (a : Word) :
    f32Magnitude a < infinityPattern ↔ f32IsNan a = false ∧ f32IsInf a = false := by
  simp only [f32IsNan, f32IsInf, decide_eq_false_iff_not]
  omega

theorem f32IsZero_iff (a : Word) : f32IsZero a = true ↔ a = 0x00000000 ∨ a = 0x80000000 := by
  rw [f32IsZero, decide_eq_true_iff, f32Magnitude]
  bv_omega

theorem f32IsZero_of_f32IsInf {a : Word} (h : f32IsInf a = true) : f32IsZero a = false := by
  have hinf : f32Magnitude a = infinityPattern := of_decide_eq_true h
  exact decide_eq_false (by rw [hinf]; decide)

theorem natAbs_f32Units (a : Word) : (f32Units a).natAbs = magnitudeUnits (f32Magnitude a) := by
  unfold f32Units
  split
  · rw [Int.natAbs_neg, Int.natAbs_natCast]
  · rw [Int.natAbs_natCast]

theorem natAbs_f32Units_pos {a : Word} (h : f32IsZero a = false) : 0 < (f32Units a).natAbs := by
  have hpos : 0 < f32Magnitude a := Nat.pos_of_ne_zero (of_decide_eq_false h)
  rw [natAbs_f32Units]
  exact (Nat.zero_le _).trans_lt (magnitudeUnits_strictMono hpos)

theorem f32IsInf_f32OfMagnitude (negative : Bool) : f32IsInf (f32OfMagnitude negative infinityPattern) = true :=
  decide_eq_true (f32Magnitude_f32OfMagnitude negative (by decide))

theorem f32IsZero_f32OfMagnitude (negative : Bool) : f32IsZero (f32OfMagnitude negative 0) = true :=
  decide_eq_true (f32Magnitude_f32OfMagnitude negative (by decide))

/-! ### The sum and the difference (R251, R252) -/

theorem fadd_eq_ite (a b : Word) :
    fadd a b =
      if f32IsNan a ∨ f32IsNan b ∨ (f32IsInf a ∧ f32IsInf b ∧ f32Negative a ≠ f32Negative b) then none
      else if f32IsInf a then some a
      else if f32IsInf b then some b
      else if f32Units a + f32Units b = 0 then some (f32OfMagnitude (f32Negative a && f32Negative b) 0)
      else some (f32OfRatio (decide (f32Units a + f32Units b < 0)) (f32Units a + f32Units b).natAbs 1) := by
  unfold fadd
  simp only [Bool.or_eq_true, ite_or]
  cases f32IsInf a <;> simp

theorem f32Magnitude_fneg (a : Word) : f32Magnitude (fneg a) = f32Magnitude a := by
  have hlow : (fneg a).setWidth 31 = a.setWidth 31 := by simp [fneg, BitVec.setWidth_xor]
  simpa only [BitVec.toNat_setWidth, f32Magnitude] using congrArg BitVec.toNat hlow

theorem f32Negative_fneg (a : Word) : f32Negative (fneg a) = !f32Negative a := by
  simp [f32Negative, fneg]

/-- Patterns of one magnitude have one value up to the sign. -/
theorem f32Units_of_magnitude_eq {b c : Word} {flip : Bool} (hmag : f32Magnitude c = f32Magnitude b)
    (hsign : f32Negative c = (f32Negative b != flip)) : f32Units c = if flip then -f32Units b else f32Units b := by
  unfold f32Units
  rw [hmag, hsign]
  cases flip <;> cases f32Negative b <;> simp

/-- FADD and FSUB at once: they add the second operand with its sign kept or flipped. -/
theorem fadd_sumResult (op : Config.FloatOp) {flip : Bool} (a : Word) {b c : Word}
    (hmag : f32Magnitude c = f32Magnitude b) (hsign : f32Negative c = (f32Negative b != flip)) :
    SumResult op flip a b ((fadd a c).getD (nanWord (Config.nanBits op a b))) := by
  have hnan : f32IsNan c = f32IsNan b := by rw [f32IsNan, f32IsNan, hmag]
  have hinf : f32IsInf c = f32IsInf b := by rw [f32IsInf, f32IsInf, hmag]
  rw [fadd_eq_ite]
  unfold SumResult
  dsimp only
  rw [hnan, hinf, ← hsign, ← f32Units_of_magnitude_eq hmag hsign]
  split_ifs with _ _ hc
  · rfl
  · rfl
  · exact ⟨hinf.trans hc, rfl⟩
  · exact ⟨f32IsZero_f32OfMagnitude _, f32Negative_f32OfMagnitude _ (by decide)⟩
  · exact roundsToNearestEven _ _ _ Nat.one_pos

theorem fadd_result (a b : Word) :
    SumResult .fadd false a b ((fadd a b).getD (nanWord (Config.nanBits .fadd a b))) :=
  fadd_sumResult .fadd a rfl (Bool.bne_false _).symm

theorem fsub_result (a b : Word) :
    SumResult .fsub true a b ((fsub a b).getD (nanWord (Config.nanBits .fsub a b))) :=
  fadd_sumResult .fsub a (f32Magnitude_fneg b) ((f32Negative_fneg b).trans (Bool.bne_true _).symm)

/-! ### The product and the quotient (R253, R254) -/

theorem fmul_eq_ite (a b : Word) :
    fmul a b =
      if f32IsNan a ∨ f32IsNan b ∨ (f32IsInf a ∧ f32IsZero b) ∨ (f32IsZero a ∧ f32IsInf b) then none
      else if f32IsInf a ∨ f32IsInf b then some (f32OfMagnitude (f32Negative a != f32Negative b) infinityPattern)
      else some (f32OfRatio (f32Negative a != f32Negative b) ((f32Units a).natAbs * (f32Units b).natAbs) (2 ^ 149)) := by
  unfold fmul unitsPerOne
  simp only [Bool.or_eq_true, ite_or]
  cases ha : f32IsInf a with
  | true => simp [f32IsZero_of_f32IsInf ha]
  | false =>
    cases hb : f32IsInf b with
    | true => simp [f32IsZero_of_f32IsInf hb]
    | false => simp

theorem fmul_result (a b : Word) : ProductResult a b ((fmul a b).getD (nanWord (Config.nanBits .fmul a b))) := by
  rw [fmul_eq_ite]
  unfold ProductResult
  dsimp only
  split_ifs
  · rfl
  · exact ⟨f32IsInf_f32OfMagnitude _, f32Negative_f32OfMagnitude _ (by decide)⟩
  · exact roundsToNearestEven _ _ _ (by decide)

theorem fdiv_eq_ite (a b : Word) :
    fdiv a b =
      if f32IsNan a ∨ f32IsNan b ∨ (f32IsInf a ∧ f32IsInf b) then none
      else if f32IsInf a then some (f32OfMagnitude (f32Negative a != f32Negative b) infinityPattern)
      else if f32IsInf b then some (f32OfMagnitude (f32Negative a != f32Negative b) 0)
      else some (f32OfRatio (f32Negative a != f32Negative b) ((f32Units a).natAbs * 2 ^ 149) (f32Units b).natAbs) := by
  unfold fdiv unitsPerOne
  simp only [Bool.or_eq_true, ite_or]
  cases f32IsInf a <;> simp

theorem fdiv_result (a : Word) {b : Word} (hb : f32IsZero b = false) :
    QuotientResult a b ((fdiv a b).getD (nanWord (Config.nanBits .fdiv a b))) := by
  rw [fdiv_eq_ite]
  unfold QuotientResult
  dsimp only
  split_ifs
  · rfl
  · exact ⟨f32IsInf_f32OfMagnitude _, f32Negative_f32OfMagnitude _ (by decide)⟩
  · exact ⟨f32IsZero_f32OfMagnitude _, f32Negative_f32OfMagnitude _ (by decide)⟩
  · exact roundsToNearestEven _ _ _ (natAbs_f32Units_pos hb)

/-! ### The remainder (R255) -/

/-- Every number of at most 24 significant bits is the value of a pattern: a short significand is doubled, at half the
spacing. -/
theorem exists_magnitudeUnits_eq {m : Nat} (k : Nat) (hm : m < 2 ^ 24) : ∃ p, magnitudeUnits p = m * 2 ^ k := by
  induction k generalizing m with
  | zero => exact ⟨_, magnitudeUnits_of_significand (.inl rfl) hm.le⟩
  | succ k ih =>
    obtain hshort | hlow := Nat.lt_or_ge m (2 ^ 23)
    · obtain ⟨p, hp⟩ := ih (m := 2 * m) (by omega)
      exact ⟨p, by rw [hp]; ring⟩
    · exact ⟨_, magnitudeUnits_of_significand (.inr hlow) hm.le⟩

/-- A multiple of the spacing of a pattern that is no larger than it. -/
theorem exists_magnitudeUnits_of_dvd {k m n : Nat} (hm : m < 2 ^ 24) (hdvd : 2 ^ k ∣ n) (hle : n ≤ m * 2 ^ k) :
    ∃ p, magnitudeUnits p = n := by
  obtain ⟨l, rfl⟩ := hdvd
  rw [mul_comm] at hle ⊢
  exact exists_magnitudeUnits_eq k ((Nat.le_of_mul_le_mul_right hle (by positivity)).trans_lt hm)

theorem exists_magnitudeUnits_eq_mod (p : Nat) {q : Nat} (hq : 0 < magnitudeUnits q) :
    ∃ r, magnitudeUnits r = magnitudeUnits p % magnitudeUnits q := by
  obtain ⟨j, m, rfl, hjlow, hm⟩ := exists_significand p
  obtain ⟨k, l, rfl, hklow, hl⟩ := exists_significand q
  rw [magnitudeUnits_of_significand hklow hl.le] at hq ⊢
  rw [magnitudeUnits_of_significand hjlow hm.le]
  obtain hjk | hkj := Nat.le_total j k
  · have hdvd : 2 ^ j ∣ l * 2 ^ k := (pow_dvd_pow 2 hjk).mul_left l
    exact exists_magnitudeUnits_of_dvd hm ((Nat.dvd_mod_iff hdvd).2 (Nat.dvd_mul_left ..)) (Nat.mod_le ..)
  · have hdvd : 2 ^ k ∣ m * 2 ^ j := (pow_dvd_pow 2 hkj).mul_left m
    exact exists_magnitudeUnits_of_dvd hl ((Nat.dvd_mod_iff (Nat.dvd_mul_left ..)).2 hdvd) (Nat.mod_lt _ hq).le

theorem fmod_eq_ite (a b : Word) :
    fmod a b =
      if f32IsNan a ∨ f32IsNan b ∨ f32IsInf a then none
      else if f32IsInf b then some a
      else some (f32OfRatio (f32Negative a) ((f32Units a).natAbs % (f32Units b).natAbs) 1) := by
  unfold fmod
  simp only [Bool.or_eq_true, ite_or]

theorem fmod_of_finite {a b : Word} (ha : f32Magnitude a < infinityPattern) (hb : f32Magnitude b < infinityPattern) :
    fmod a b = some (f32OfRatio (f32Negative a) ((f32Units a).natAbs % (f32Units b).natAbs) 1) := by
  obtain ⟨hanan, hainf⟩ := (f32Magnitude_lt_infinityPattern_iff a).1 ha
  obtain ⟨hbnan, hbinf⟩ := (f32Magnitude_lt_infinityPattern_iff b).1 hb
  simp [fmod_eq_ite, hanan, hainf, hbnan, hbinf]

/-- The truncated remainder has the sign of the dividend. -/
theorem f32Units_tmod (a b : Word) :
    (f32Units a).tmod (f32Units b) =
      if f32Negative a then -(((f32Units a).natAbs % (f32Units b).natAbs : Nat) : Int)
      else ((f32Units a).natAbs % (f32Units b).natAbs : Nat) := by
  unfold f32Units
  split_ifs <;> simp only [Int.natAbs_neg, Int.natAbs_natCast, Int.neg_tmod, Int.tmod_neg, Int.ofNat_tmod]

/-- The remainder is the value of a pattern, which rounding keeps; it is finite as it is no larger than the dividend. -/
theorem exact_of_eq_f32OfRatio_mod {a b r : Word} (ha : f32Magnitude a < infinityPattern) (hb : f32IsZero b = false)
    (hr : r = f32OfRatio (f32Negative a) ((f32Units a).natAbs % (f32Units b).natAbs) 1) :
    f32Magnitude r < infinityPattern ∧ f32Units r = (f32Units a).tmod (f32Units b) ∧ f32Negative r = f32Negative a := by
  have hpos := natAbs_f32Units_pos hb
  rw [natAbs_f32Units] at hpos
  rw [natAbs_f32Units, natAbs_f32Units] at hr
  rw [f32Units_tmod, natAbs_f32Units, natAbs_f32Units]
  obtain ⟨p, hp⟩ := exists_magnitudeUnits_eq_mod (f32Magnitude a) hpos
  have hle : p ≤ f32Magnitude a := magnitudeUnits_strictMono.le_iff_le.1 (hp.trans_le (Nat.mod_le ..))
  have hfinite : p < infinityPattern := hle.trans_lt ha
  have hlt : p < 2 ^ 31 := hfinite.trans (by decide)
  rw [← hp, f32OfRatio, roundUnits_magnitudeUnits hfinite] at hr
  rw [hr, ← hp]
  exact ⟨by rwa [f32Magnitude_f32OfMagnitude _ hlt], f32Units_f32OfMagnitude _ hfinite,
    f32Negative_f32OfMagnitude _ hlt⟩

/-- Settles O19: the remainder of finite operands is not rounded. -/
theorem fmodExact : Obligations.FmodExact := fun _ _ ha hb hzero =>
  ⟨_, fmod_of_finite ha hb, exact_of_eq_f32OfRatio_mod ha hzero rfl⟩

theorem fmod_result (a : Word) {b : Word} (hb : f32IsZero b = false) :
    RemainderResult a b ((fmod a b).getD (nanWord (Config.nanBits .fmod a b))) := by
  rw [fmod_eq_ite]
  unfold RemainderResult
  split_ifs with hspecial
  · rfl
  · rfl
  · have ha : f32IsNan a = false ∧ f32IsInf a = false := by simp_all
    exact exact_of_eq_f32OfRatio_mod ((f32Magnitude_lt_infinityPattern_iff a).2 ha) hb rfl

/-! ### What a commit changes (R250) -/

section
variable {i : Instr} {s : State} {c : RegIdx} {len : Nat}

theorem Completes.of_commitFloat {op : Config.FloatOp} {a b : Word} {res : Option Word} {R : Word → Prop}
    (h : exec i s = .next (commitFloat i op c a b res s)) (hlen : i.len = len)
    (hres : R (res.getD (nanWord (Config.nanBits op a b)))) :
    Completes i s [.regs, .pc] fun t =>
      (∃ r, R r ∧ WritesCell c ⟨r, .float, []⟩ s t) ∧ t.pc = s.pc + BitVec.ofNat 32 len := by
  subst hlen
  obtain ⟨t, hexec, hframe, hcell, hpc⟩ := Completes.of_setCell h
  exact .of hexec hframe ⟨⟨_, hres, hcell⟩, hpc⟩

/-- A zero divisor is passed over as the integer divisions pass it over. -/
theorem Completes.of_divByZero (h : exec i s = .next ((s.addLog (.divByZero s.pc)).advance i.len)) (hlen : i.len = len) :
    Completes i s [.pc, .log] fun t => t.pc = s.pc + BitVec.ofNat 32 len ∧ t.log = s.log ++ [.divByZero s.pc] :=
  .of_commitInt_none (c := 0) h hlen

/-! ### The two general forms -/

variable {op : Config.FloatOp} {f : Word → Word → Option Word} {R : Word → Word → Word → Prop} {ra rb : Byte}

theorem WithReads.of_floatRegReg (hf : ∀ a b, R a b ((f a b).getD (nanWord (Config.nanBits op a b))))
    (h : exec i s = .next (floatRegReg i op f ra rb s)) (hlen : i.len = 3) :
    WithReads .float i s ra rb 3 fun a b =>
      Completes i s [.regs, .pc] fun t =>
        (∃ r, R (s.cell a).bits (s.cell b).bits r ∧ WritesCell a ⟨r, .float, []⟩ s t) ∧ t.pc = s.pc + 3 :=
  .of (fun c _ a b => commitFloat i op c a b (f a b) s) h hlen fun _ _ hc => .of_commitFloat hc hlen (hf _ _)

theorem WithReads.of_floatDivide
    (hf : ∀ a b, f32IsZero b = false → R a b ((f a b).getD (nanWord (Config.nanBits op a b))))
    (h : exec i s = .next (floatDivide i op f ra rb s)) (hlen : i.len = 3) :
    WithReads .float i s ra rb 3 fun a b =>
      if (s.cell b).bits = 0x00000000 ∨ (s.cell b).bits = 0x80000000 then
        Completes i s [.pc, .log] fun t => t.pc = s.pc + 3 ∧ t.log = s.log ++ [.divByZero s.pc]
      else
        Completes i s [.regs, .pc] fun t =>
          (∃ r, R (s.cell a).bits (s.cell b).bits r ∧ WritesCell a ⟨r, .float, []⟩ s t) ∧ t.pc = s.pc + 3 := by
  refine .of (fun c _ a b => if f32IsZero b then (s.addLog (.divByZero s.pc)).advance i.len
    else commitFloat i op c a b (f a b) s) h hlen fun a b hc => ?_
  by_cases hzero : f32IsZero (s.cell b).bits = true
  · rw [if_pos hzero] at hc
    rw [if_pos ((f32IsZero_iff _).1 hzero)]
    exact .of_divByZero hc hlen
  · rw [if_neg hzero] at hc
    rw [if_neg (mt (f32IsZero_iff _).2 hzero)]
    exact .of_commitFloat hc hlen (hf _ _ (Bool.eq_false_of_not_eq_true hzero))

end

/-! ### The instructions -/

/-- Settles O16: each of the three is the general form of its operation. -/
theorem floatAddSubMul : Obligations.FloatAddSubMul := by
  intro p hp s ra rb
  simp only [List.mem_cons, List.not_mem_nil, or_false] at hp
  obtain rfl | rfl | rfl := hp
  · exact ⟨rfl, .of_floatRegReg fadd_result rfl rfl⟩
  · exact ⟨rfl, .of_floatRegReg fsub_result rfl rfl⟩
  · exact ⟨rfl, .of_floatRegReg fmul_result rfl rfl⟩

/-- Settles O17: both are the form that checks the divisor. -/
theorem floatDivMod : Obligations.FloatDivMod := by
  intro p hp s ra rb
  simp only [List.mem_cons, List.not_mem_nil, or_false] at hp
  obtain rfl | rfl := hp
  · exact ⟨rfl, .of_floatDivide (fun a _ => fdiv_result a) rfl rfl⟩
  · exact ⟨rfl, .of_floatDivide (fun a _ => fmod_result a) rfl rfl⟩

end Sys2Proof.Machine
end

section
/-! Compare (family 43_compare.md, obligations O20 and O21). Both instructions write FLAGS alone, so there are two kinds of
fact: what each bit of the flags word says of the operands as signed numbers, and the frame of a write of FLAGS. -/

namespace Sys2Proof.Machine

/-! ### The bits in terms of signed numbers -/

/-- E and Z compare the words, which is to compare the numbers they stand for. -/
theorem decide_eq_toInt (a b : Word) : decide (a = b) = decide (a.toInt = b.toInt) :=
  decide_eq_decide.2 BitVec.toInt_inj.symm

/-- The bits CMP writes: Z, G, L and E (R271). -/
theorem flagsOfCmp_written (w a b : Word) :
    (flagsOfCmp w a b).getLsbD 4 = decide (b.toInt < a.toInt) ∧ (flagsOfCmp w a b).getLsbD 5 = decide (a.toInt < b.toInt)
    ∧ (flagsOfCmp w a b).getLsbD 6 = decide (a.toInt = b.toInt)
    ∧ (flagsOfCmp w a b).getLsbD 0 = decide (a.toInt = b.toInt) := by
  simp only [flagsOfCmp_getLsbD, ← decide_eq_toInt]
  exact ⟨rfl, rfl, rfl, rfl⟩

/-- CMP keeps every other bit, GE (7) and LE (8) among them (R271). -/
theorem flagsOfCmp_kept (w a b : Word) {k : Nat} (hk : k ∉ [0, 4, 5, 6]) :
    (flagsOfCmp w a b).getLsbD k = w.getLsbD k := by
  simp only [List.mem_cons, List.not_mem_nil, or_false, not_or] at hk
  obtain ⟨h0, h4, h5, h6⟩ := hk
  rw [flagsOfCmp_getLsbD, if_neg h0, if_neg h6, if_neg h5, if_neg h4]

/-- The bits CMPI writes: those of CMP, and GE and LE (R272). -/
theorem flagsOfCmpi_written (w a b : Word) :
    (flagsOfCmpi w a b).getLsbD 4 = decide (b.toInt < a.toInt)
    ∧ (flagsOfCmpi w a b).getLsbD 5 = decide (a.toInt < b.toInt)
    ∧ (flagsOfCmpi w a b).getLsbD 6 = decide (a.toInt = b.toInt)
    ∧ (flagsOfCmpi w a b).getLsbD 7 = decide (b.toInt ≤ a.toInt)
    ∧ (flagsOfCmpi w a b).getLsbD 8 = decide (a.toInt ≤ b.toInt)
    ∧ (flagsOfCmpi w a b).getLsbD 0 = decide (a.toInt = b.toInt) := by
  simp only [flagsOfCmpi_getLsbD, ← decide_eq_toInt]
  exact ⟨rfl, rfl, rfl, rfl, rfl, rfl⟩

/-- CMPI keeps every bit outside Z and the comparison mask (R272). -/
theorem flagsOfCmpi_kept (w a b : Word) {k : Nat} (hk : k ∉ [0, 4, 5, 6, 7, 8]) :
    (flagsOfCmpi w a b).getLsbD k = w.getLsbD k := by
  simp only [List.mem_cons, List.not_mem_nil, or_false, not_or] at hk
  obtain ⟨h0, h4, h5, h6, h7, h8⟩ := hk
  rw [flagsOfCmpi_getLsbD, if_neg h0, if_neg h8, if_neg h7, if_neg h6, if_neg h5, if_neg h4]

/-! ### FLAGS written, and pc passed -/

theorem State.writeFlags_advance_frame (s : State) (w : Word) (n : Nat) :
    SameBut [.flags, .pc] s (({ s with flags := w } : State).advance n) := by
  intro p hp
  cases p with
  | flags | pc => simp at hp
  | regs => exact fun _ => rfl
  | memory => exact fun _ _ => rfl
  | _ => rfl

/-! ### The instructions -/

/-- Settles O20: once both operands are read, FLAGS becomes `flagsOfCmp` of them. -/
theorem cmpWritesPlainFlags : Obligations.CmpWritesPlainFlags := by
  refine fun s ra rb => ⟨rfl, .of (fun _ _ a b => ({ s with flags := flagsOfCmp s.flags a b } : State).advance 3)
    rfl rfl fun a b h => .of h (s.writeFlags_advance_frame _ 3) ?_⟩
  obtain ⟨hg, hl, he, hz⟩ := flagsOfCmp_written s.flags (s.cell a).bits (s.cell b).bits
  exact ⟨hg, hl, he, hz, fun _ => flagsOfCmp_kept _ _ _, rfl⟩

/-- Settles O21: once the operand is read, FLAGS becomes `flagsOfCmpi` of it and the immediate. -/
theorem cmpiWritesDerivedFlags : Obligations.CmpiWritesDerivedFlags := by
  refine fun s r imm => ⟨rfl, .of (fun _ a => ({ s with flags := flagsOfCmpi s.flags a imm } : State).advance 6)
    rfl rfl fun c h => .of h (s.writeFlags_advance_frame _ 6) ?_⟩
  obtain ⟨hg, hl, he, hge, hle, hz⟩ := flagsOfCmpi_written s.flags (s.cell c).bits imm
  exact ⟨hg, hl, he, hge, hle, hz, fun _ => flagsOfCmpi_kept _ _ _, rfl⟩

end Sys2Proof.Machine
end

section
/-! Control (family 44_control.md, obligations O22, O23 and O24). The seven jumps are one meaning, `jumpIf`, under different
conditions, so its claim is made once. CALL and RET write the call stack and pc together; each meaning is read as a chain of
checks over conditions on numbers and lists. -/

namespace Sys2Proof.Machine

/-! ### The jumps (R290 to R297) -/

theorem State.advance_frame (s : State) (n : Nat) : SameBut [.pc] s (s.advance n) := by
  intro p hp
  cases p with
  | pc => simp at hp
  | regs => exact fun _ => rfl
  | memory => exact fun _ _ => rfl
  | _ => rfl

/-- The two ways of a conditional jump: only the taken one checks the target (R290). -/
theorem transfers_or_passes_of_jumpIf {i : Instr} {s : State} {taken : Bool} {addr : Word}
    (h : exec i s = .next (jumpIf taken i addr s)) (hlen : i.len = 5) :
    if taken then Transfers i s addr else Completes i s [.pc] fun t => t.pc = s.pc + 5 := by
  cases taken with
  | true => exact Transfers.of h
  | false =>
    have hpass : exec i s = .next (s.advance 5) := hlen ▸ h
    exact Completes.of hpass (s.advance_frame 5) rfl

/-- Settles O22: each of the seven is `jumpIf` under its condition; for JMP that is the constant true. -/
theorem jumpsTransfer : Obligations.JumpsTransfer := by
  intro p hp s addr
  simp only [List.mem_cons, List.not_mem_nil, or_false] at hp
  obtain rfl | rfl | rfl | rfl | rfl | rfl | rfl := hp
  all_goals exact ⟨rfl, transfers_or_passes_of_jumpIf rfl rfl⟩

/-! ### The call stack and pc written together -/

theorem State.callStack_jump_frame (s : State) (cs : List Word) (a : Word) :
    SameBut [.pc, .callStack] s (({ s with callStack := cs } : State).jump a) := by
  intro p hp
  cases p with
  | pc | callStack => simp at hp
  | regs => exact fun _ => rfl
  | memory => exact fun _ _ => rfl
  | _ => rfl

theorem Completes.of_callStack_jump {i : Instr} {s : State} {cs : List Word} {a : Word}
    (h : exec i s = .next (({ s with callStack := cs } : State).jump a)) :
    Completes i s [.pc, .callStack] fun t => t.callStack = cs ∧ t.pc = a :=
  .of h (s.callStack_jump_frame cs a) ⟨rfl, rfl⟩

/-! ### CALL (R298) and RET (R299) -/

/-- CALL's checks in their order: the target, then the depth. -/
theorem exec_call (addr : Word) (s : State) :
    exec (.call addr) s = .next (
      if s.programLength.toNat ≤ addr.toNat then s.halt .badTarget
      else if 256 ≤ s.callStack.length then s.raise .callStackOverflow
      else ({ s with callStack := s.callStack ++ [s.pc + 5] } : State).jump addr) := by
  change execCall addr s = _
  unfold execCall
  by_cases htarget : s.programLength.toNat ≤ addr.toNat
  · have hbad : ¬ validTarget s addr = true := by rw [validTarget_iff]; omega
    rw [if_neg hbad, if_pos htarget]
  · have hvalid : validTarget s addr = true := by rw [validTarget_iff]; omega
    rw [if_pos hvalid, if_neg htarget]
    by_cases hfull : 256 ≤ s.callStack.length
    · rw [(pushBounded_none Config.callDepth ..).2 hfull, if_pos hfull]
    · have hfree : s.callStack.length < Config.callDepth := Nat.lt_of_not_le hfull
      rw [(pushBounded_cases ..).2 ⟨hfree, rfl⟩, if_neg hfull]
      rfl

theorem exec_ret_empty {s : State} (h : s.callStack = []) : exec .ret s = .next (s.halt .emptyReturn) := by
  change execRet s = _
  rw [execRet, h, popLast_nil]

/-- RET with an entry to take: the target is checked before the entry is removed. -/
theorem exec_ret_append {s : State} {cs : List Word} {a : Word} (h : s.callStack = cs ++ [a]) :
    exec .ret s = .next (
      if a.toNat < s.programLength.toNat then ({ s with callStack := cs } : State).jump a else s.halt .badTarget) := by
  change execRet s = _
  simp only [execRet, h, popLast_append, validTarget_iff]

/-- Settles O23: the three outcomes of `exec_call`. -/
theorem callPushesReturn : Obligations.CallPushesReturn := by
  refine fun s addr => ⟨rfl, ?_⟩
  have hexec := exec_call addr s
  split
  next htarget =>
    rw [if_pos htarget] at hexec
    exact Halts.of hexec
  next htarget =>
    rw [if_neg htarget] at hexec
    split
    next hfull =>
      rw [if_pos hfull] at hexec
      exact Faults.of hexec
    next hfull =>
      rw [if_neg hfull] at hexec
      exact Completes.of_callStack_jump hexec

/-- Settles O24: an empty call stack, and the two outcomes of `exec_ret_append`. -/
theorem retPopsReturn : Obligations.RetPopsReturn := by
  refine fun s => ⟨rfl, fun hempty => Halts.of (exec_ret_empty hempty), fun cs a hcs => ?_⟩
  have hexec := exec_ret_append hcs
  split
  next htarget =>
    rw [if_pos htarget] at hexec
    exact Completes.of_callStack_jump hexec
  next htarget =>
    rw [if_neg htarget] at hexec
    exact Halts.of hexec

end Sys2Proof.Machine
end

section
/-! Stack, I/O and miscellaneous (family 45_stack_io_misc.md, obligations O25 to O32). Each meaning is a chain of the
shared updates of the state, so its frame is the union of theirs. The two port instructions also rest on what a checked
access of one byte of the IO domain answers. -/

namespace Sys2Proof.Machine

/-! ### Frames put together -/

theorem Part.same_trans {p : Part} {s t u : State} (hst : p.same s t) (htu : p.same t u) : p.same s u := by
  cases p with
  | regs => exact fun j => (htu j).trans (hst j)
  | memory => exact fun d a => (htu d a).trans (hst d a)
  | _ => exact Eq.trans htu hst

theorem SameBut.mono {cs ds : List Part} {s t : State} (h : SameBut cs s t) (hsub : cs ⊆ ds) : SameBut ds s t :=
  fun p hp => h p fun hc => hp (hsub hc)

theorem SameBut.trans {cs ds : List Part} {s t u : State} (hst : SameBut cs s t) (htu : SameBut ds t u) :
    SameBut (cs ++ ds) s u := fun p hp =>
  have ⟨hcs, hds⟩ := not_or.1 fun h => hp (List.mem_append.2 h)
  Part.same_trans (hst p hcs) (htu p hds)

/-! ### The frame of each update -/

theorem State.operandStack_frame (s : State) (os : List Word) :
    SameBut [.operandStack] s { s with operandStack := os } := by
  intro p hp
  cases p with
  | operandStack => simp at hp
  | regs => exact fun _ => rfl
  | memory => exact fun _ _ => rfl
  | _ => rfl

theorem State.mem_frame (s : State) (m : Memory) : SameBut [.memory] s { s with mem := m } := by
  intro p hp
  cases p with
  | memory => simp at hp
  | regs => exact fun _ => rfl
  | _ => rfl

theorem State.drawRand_frame (s : State) : SameBut [.randDraws] s s.drawRand.2 := by
  intro p hp
  cases p with
  | randDraws => simp at hp
  | regs => exact fun _ => rfl
  | memory => exact fun _ _ => rfl
  | _ => rfl

theorem State.drawTick_frame (s : State) : SameBut [.tickDraws] s s.drawTick.2 := by
  intro p hp
  cases p with
  | tickDraws => simp at hp
  | regs => exact fun _ => rfl
  | memory => exact fun _ _ => rfl
  | _ => rfl

theorem State.addLog_frame (s : State) (e : LogEntry) : SameBut [.log] s (s.addLog e) := by
  intro p hp
  cases p with
  | log => simp at hp
  | regs => exact fun _ => rfl
  | memory => exact fun _ _ => rfl
  | _ => rfl

theorem State.halt_frame (s : State) (c : StopCode) : SameBut [.running, .stop, .log] s (s.halt c) := by
  intro p hp
  cases p with
  | running | stop | log => simp at hp
  | regs => exact fun _ => rfl
  | memory => exact fun _ _ => rfl
  | _ => rfl

/-- POP, RAND and TIME change one part of their own before they write the register. -/
theorem SameBut.setCell_advance {p : Part} {s u : State} (hu : SameBut [p] s u) (c : RegIdx) (v : RegCell) (n : Nat) :
    SameBut [.pc, .regs, p] s ((u.setCell c v).advance n) :=
  (hu.trans (u.setCell_advance_frame c v n)).mono (by simp)

/-! ### The checked access of one IO byte (20_memory.md R82 to R85) -/

theorem io_port_inRange_iff (port : Word) :
    (0 ≤ (port.toNat : Int) ∧ (port.toNat : Int) + (1 : Nat) ≤ Domain.io.size) ↔ port.toNat < 256 := by
  have hsize : Domain.io.size = 256 := rfl
  omega

theorem Memory.read_io (m : Memory) (port : Word) :
    m.read .io port.toNat 1 = if port.toNat < 256 then some [m.byte .io port.toNat] else none := by
  simp only [Memory.read_cases, io_port_inRange_iff]
  rfl

theorem Memory.write_io (m : Memory) (port : Word) (v : Byte) :
    m.write .io port.toNat [v] = if port.toNat < 256 then some (m.store .io port.toNat [v]) else none := by
  split
  next hport =>
    obtain ⟨hlow, hhigh⟩ := (io_port_inRange_iff port).2 hport
    exact (Memory.write_cases ..).2 ⟨hlow, hhigh, rfl⟩
  next hport => exact (Memory.write_none ..).2 ((io_port_inRange_iff port).not.2 hport)

/-! ### The operand stack -/

/-- Settles O25: a push on the bounded stack answers none exactly when it is full. -/
theorem pushAppends : Obligations.PushAppends := by
  refine fun s r => ⟨rfl, .of _ rfl rfl fun c h => ?_⟩
  split
  next hfull =>
    simp only [(pushBounded_none Config.stackDepth ..).2 hfull] at h
    exact Faults.of h
  next hfull =>
    have hfree : s.operandStack.length < Config.stackDepth := Nat.lt_of_not_le hfull
    simp only [(pushBounded_cases ..).2 ⟨hfree, rfl⟩] at h
    exact .of h (((s.operandStack_frame _).trans (State.advance_frame _ 2)).mono (by decide)) ⟨rfl, rfl⟩

/-- Settles O26: the two answers of `popLast`. -/
theorem popTakesLast : Obligations.PopTakesLast := by
  refine fun s r => ⟨rfl, .of _ rfl rfl fun c h => ⟨fun hempty => ?_, fun os v hlast => ?_⟩⟩
  · simp only [hempty, popLast_nil] at h
    exact Faults.of h
  · simp only [hlast, popLast_append] at h
    exact .of h (((s.operandStack_frame os).setCell_advance c _ 2).mono (by decide))
      ⟨rfl, State.setCell_advance_writesCell _ c _ 2, rfl⟩

/-! ### The ports -/

/-- Settles O27: the byte at the port is read where the port is in range, and ERR is set where it is not. -/
theorem inReadsPort : Obligations.InReadsPort := by
  refine fun s r imm => ⟨rfl, .of _ rfl rfl fun c h => ?_⟩
  split
  next hport =>
    simp only [Memory.read_io, if_pos hport] at h
    rw [BitVec.ofNat_toNat]
    exact .of h ((s.setCell_advance_frame c _ 6).mono (by decide)) ⟨s.setCell_advance_writesCell c _ 6, rfl⟩
  next hport =>
    simp only [Memory.read_io, if_neg hport] at h
    exact SetsErr.of h rfl

/-- Settles O28: the one byte at the port is stored where the port is in range, and ERR is set where it is not. -/
theorem outWritesPort : Obligations.OutWritesPort := by
  refine fun s r imm => ⟨rfl, .of _ rfl rfl fun c h => ?_⟩
  split
  next hport =>
    simp only [Memory.write_io, if_pos hport] at h
    exact .of h (((s.mem_frame _).trans (State.advance_frame _ 6)).mono (by decide))
      ⟨s.mem.store_byte_at .io _ [_] 0 Nat.one_pos, fun e b => s.mem.store_byte_other .io _ [_] e b, rfl⟩
  next hport =>
    simp only [Memory.write_io, if_neg hport] at h
    exact SetsErr.of h rfl

/-! ### The environment sources -/

/-- Settles O29: the cell is written in the state after the draw. -/
theorem randDraws : Obligations.RandDraws := fun s _ =>
  ⟨rfl, .of (fun c => (s.drawRand.2.writeInt c s.drawRand.1).advance 2) rfl rfl fun c h =>
    .of h (s.drawRand_frame.setCell_advance c _ 2) ⟨State.setCell_advance_writesCell _ c _ 2, rfl, rfl⟩⟩

/-- Every draw adds a natural to the one before it (60_exceptions.md R523). -/
theorem tickSource_monotone : Monotone Config.tickSource := monotone_nat_of_le_succ fun _ => Nat.le_add_right _ _

/-- Settles O30: the cell is written in the state after the draw, and the word of a natural holds its low 32 bits. -/
theorem timeDraws : Obligations.TimeDraws := by
  refine ⟨fun s r => ⟨rfl, .of (fun c => (s.drawTick.2.writeInt c (BitVec.ofNat 32 s.drawTick.1)).advance 2) rfl rfl
    fun c h => .of h (s.drawTick_frame.setCell_advance c _ 2) ⟨?_, rfl, rfl⟩⟩, fun _ _ hmn => tickSource_monotone hmn⟩
  have hlow : BitVec.ofNat 32 (Config.tickSource s.tickDraws % 2 ^ 32) = BitVec.ofNat 32 s.drawTick.1 :=
    BitVec.eq_of_toNat_eq (by rw [BitVec.toNat_ofNat, BitVec.toNat_ofNat, Nat.mod_mod]; rfl)
  rw [hlow]
  exact State.setCell_advance_writesCell _ c _ 2

/-! ### INT and HLT -/

/-- Settles O31: an entry is logged, and pc passes the instruction. -/
theorem intIsLogged : Obligations.IntIsLogged := fun s b =>
  ⟨rfl, .of rfl (((s.addLog_frame (.unimplementedInterrupt b)).trans (State.advance_frame _ 2)).mono (by decide))
    ⟨rfl, rfl⟩⟩

/-- Settles O32: pc passes the instruction first, so the halt logs the pc behind it. -/
theorem hltStops : Obligations.HltStops := fun s =>
  ⟨rfl, .of rfl ((s.advance_frame 1).trans (State.halt_frame _ .halt)) ⟨rfl, rfl, rfl, rfl⟩⟩

end Sys2Proof.Machine
end

section
/-! Indexed memory (family 46_indexed_memory.md, obligations O33 and O34). `WithOffset.of` gives the effective address, and
what is left of each instruction is its checked access of 4 bytes: of no domain, out of range, or in range. -/

namespace Sys2Proof.Machine

/-! ### The four bytes of a word (20_memory.md R85, R87) -/

theorem le32_getElem (w : Word) (k : Nat) (hk : k < 4) : (le32 w)[k] = w.extractLsb' (8 * k) 8 := by
  obtain rfl | rfl | rfl | rfl : k = 0 ∨ k = 1 ∨ k = 2 ∨ k = 3 := by omega
  all_goals rfl

/-- The checked write as an equation, beside `Memory.read32_cases`. -/
theorem Memory.write_le32 (m : Memory) (d : Domain) (a : Int) (v : Word) :
    m.write d a (le32 v) =
      if 0 ≤ a ∧ a + 4 ≤ d.size then some (if d = .rom then m else m.store d a.toNat (le32 v)) else none := by
  split
  next hin => exact (Memory.write_cases ..).2 ⟨hin.1, hin.2, rfl⟩
  next hout => exact (Memory.write_none ..).2 hout

/-! ### LOADI (R350) -/

/-- Settles O33: where the domain exists, the read answers the 4 bytes exactly when they are in range. -/
theorem loadiReadsDomain : Obligations.LoadiReadsDomain := by
  refine fun s dom kind off r => ⟨rfl, .of _ rfl rfl fun a c h => ?_⟩
  split
  next hdom =>
    simp only [hdom, Option.bind_none] at h
    exact SetsErr.of h rfl
  next d hdom =>
    simp only [hdom, Option.bind_some, Memory.read32_cases] at h
    split
    next hin =>
      simp only [if_pos hin] at h
      exact .of h ((s.setCell_advance_frame c _ 8).mono (by decide)) ⟨s.setCell_advance_writesCell c _ 8, rfl⟩
    next hout =>
      simp only [if_neg hout] at h
      exact SetsErr.of h rfl

/-! ### STOREI (R351) -/

/-- A store of a word in range leaves its bytes at the address, the first the least significant, and passes the
instruction. -/
theorem Completes.of_store_le32 {i : Instr} {s : State} {d : Domain} {a n : Nat} {v : Word}
    (h : exec i s = .next (({ s with mem := s.mem.store d a (le32 v) } : State).advance n)) :
    Completes i s [.pc, .memory] fun t =>
      (∀ k, k < 4 → t.mem.byte d (a + k) = v.extractLsb' (8 * k) 8)
        ∧ SameBytesOutside d a 4 s t ∧ t.pc = s.pc + BitVec.ofNat 32 n :=
  .of h (((s.mem_frame _).trans (State.advance_frame _ n)).mono (by decide))
    ⟨fun k hk => (s.mem.store_byte_at d a (le32 v) k hk).trans (le32_getElem v k hk),
      fun e b => s.mem.store_byte_other d a (le32 v) e b, rfl⟩

/-- Settles O34: the write in range stores the 4 bytes or, in ROM, is dropped; ROM's bounds are checked as the others'. -/
theorem storeiWritesDomain : Obligations.StoreiWritesDomain := by
  refine fun s dom kind off r => ⟨rfl, .of _ rfl rfl fun a c h => ?_⟩
  rw [withInt_eq] at h
  split
  next hread =>
    rw [if_pos hread] at h
    split
    next hdom =>
      simp only [hdom, Option.bind_none] at h
      exact SetsErr.of h rfl
    next d hdom =>
      simp only [hdom, Option.bind_some, Memory.write_le32] at h
      split
      next hin =>
        simp only [if_pos hin] at h
        split
        next hrom =>
          rw [if_pos hrom] at h
          exact .of h (s.advance_frame 8) rfl
        next hrom =>
          rw [if_neg hrom] at h
          exact .of_store_le32 h
      next hout =>
        simp only [if_neg hout] at h
        exact SetsErr.of h rfl
  next hread =>
    rw [if_neg hread] at h
    exact Faults.of h

end Sys2Proof.Machine
end

section
/-! The invariant (obligations O49 to O52). Each part of the state that a step or a host operation may write has one lemma
that says which write keeps the invariant; that every step and every host operation does is then read off `Effect` and
`State.hostApply`. A step fetches whole instructions inside the program, so pc never leaves the Code domain. -/

namespace Sys2Proof.Machine

/-! ### The display-list manager (47_display_list.md R370 to R376) -/

/-- The part of the invariant about the manager. -/
structure DlManager.Ok (dl : DlManager) : Prop where
  names : namesRise dl.lists = true
  sealed : ∀ n cmds, (n, cmds) ∈ dl.lists → ListOk n cmds
  building : ∀ n cmds, dl.building = some (n, cmds) → ListOk n cmds ∧ lookupList dl.lists n = none

theorem DlManager.Ok.empty : DlManager.Ok ⟨[], none⟩ where
  names := rfl
  sealed := nofun
  building := nofun

theorem listOk_nil {n : Bytes} (h : stringFits n = true) : ListOk n [] :=
  ⟨(stringFits_iff n).1 h, Nat.zero_le _, Nat.zero_le _, Nat.zero_le _⟩

theorem ListOk.append {n : Bytes} {cmds : List DlCommand} {c : DlCommand} (h : ListOk n cmds)
    (hprim : c.isPrim = false ∨ countPrims cmds < 255) (hcolor : c.isColor = false ∨ countColors cmds < 255)
    (hvertex : c.isVertex = false ∨ countVertices cmds < 255) : ListOk n (cmds ++ [c]) := by
  have room : ∀ {p : DlCommand → Bool}, cmds.countP p ≤ 255 → p c = false ∨ cmds.countP p < 255 →
      (cmds ++ [c]).countP p ≤ 255 := by
    intro p hle hroom
    rw [List.countP_append, List.countP_singleton]
    obtain hother | hroom := hroom
    · simpa [hother] using hle
    · split <;> omega
  obtain ⟨hname, hprims, hcolors, hvertices⟩ := h
  exact ⟨hname, room hprims hprim, room hcolors hcolor, room hvertices hvertex⟩

section
variable {dl dl' : DlManager}

theorem dlStart_cases {n : Bytes} :
    dlStart dl n = .ok dl' ↔
      dl.building = none ∧ lookupList dl.lists n = none ∧ dl' = ⟨dl.lists, some (n, [])⟩ := by
  unfold dlStart
  split
  next hopen => simp [hopen]
  next hopen => split <;> simp [*, eq_comm]

theorem dlEnd_cases :
    dlEnd dl = .ok dl' ↔ ∃ n cmds, dl.building = some (n, cmds) ∧ dl' = ⟨insertList dl.lists n cmds, none⟩ := by
  unfold dlEnd
  split
  next hopen => simp [hopen]
  next n cmds hopen => simp [hopen, eq_comm]

theorem DlManager.Ok.start {n : Bytes} (h : dl.Ok) (hfits : stringFits n = true) (hstart : dlStart dl n = .ok dl') :
    dl'.Ok := by
  obtain ⟨-, hnew, rfl⟩ := dlStart_cases.1 hstart
  refine ⟨h.names, h.sealed, fun m cmds hopen => ?_⟩
  cases hopen
  exact ⟨listOk_nil hfits, hnew⟩

theorem DlManager.Ok.append {count : List DlCommand → Nat} {c : DlCommand} (h : dl.Ok)
    (hlist : ∀ n cmds, ListOk n cmds → count cmds < 255 → ListOk n (cmds ++ [c]))
    (happend : dlAppend dl count c = .ok dl') : dl'.Ok := by
  obtain ⟨n, cmds, hopen, hroom, rfl⟩ := (dlAppend_cases ..).1 happend
  obtain ⟨hok, hnew⟩ := h.building n cmds hopen
  refine ⟨h.names, h.sealed, fun m cmds' hopen' => ?_⟩
  cases hopen'
  exact ⟨hlist n cmds hok hroom, hnew⟩

theorem DlManager.Ok.addPrimitive {t : Byte} (h : dl.Ok) (hadd : dlAddPrimitive dl t = .ok dl') : dl'.Ok :=
  h.append (fun _ _ hok hroom => hok.append (.inr hroom) (.inl rfl) (.inl rfl)) hadd

theorem DlManager.Ok.addVertex {x y z : Word} (h : dl.Ok) (hadd : dlAddVertex dl x y z = .ok dl') : dl'.Ok :=
  h.append (fun _ _ hok hroom => hok.append (.inl rfl) (.inl rfl) (.inr hroom)) hadd

theorem DlManager.Ok.addColor {c : Bytes} (h : dl.Ok) (hadd : dlAddColor dl c = .ok dl') : dl'.Ok := by
  unfold dlAddColor at hadd
  split at hadd
  · cases hadd
  · split at hadd
    · cases hadd
    · exact h.append (fun _ _ hok hroom => hok.append (.inl rfl) (.inr hroom) (.inl rfl)) hadd

theorem DlManager.Ok.endList (h : dl.Ok) (hend : dlEnd dl = .ok dl') : dl'.Ok := by
  obtain ⟨n, cmds, hopen, rfl⟩ := dlEnd_cases.1 hend
  refine ⟨namesRise_insertList _ _ _ h.names, fun m cmds' hm => ?_, nofun⟩
  obtain hnew | hold := mem_insertList _ _ _ _ hm
  · cases hnew
    exact (h.building n cmds hopen).1
  · exact h.sealed m cmds' hold

/-- What an instruction asks of the manager keeps it, as the names of instructions fit. -/
theorem DlManager.Ok.operation {i : Instr} (h : dl.Ok) (hwf : i.wellFormed = true)
    (hop : dlOperation i dl = some (.ok dl')) : dl'.Ok := by
  cases i with
  | dlstart => exact h.start hwf (Option.some.inj hop)
  | dlprimitive => exact h.addPrimitive (Option.some.inj hop)
  | dlcolor => exact h.addColor (Option.some.inj hop)
  | dlvertex => exact h.addVertex (Option.some.inj hop)
  | dlend => exact h.endList (Option.some.inj hop)
  | _ => cases hop

/-! A failure of the manager is never the cause NONE. -/

variable {c : StopCode}

theorem dlStart_error_ne_none {n : Bytes} (h : dlStart dl n = .error c) : c ≠ .none := by
  unfold dlStart at h
  split at h
  · cases h; nofun
  · split at h <;> cases h
    nofun

theorem dlAppend_error_ne_none {count : List DlCommand → Nat} {cmd : DlCommand} (h : dlAppend dl count cmd = .error c) :
    c ≠ .none := by
  unfold dlAppend at h
  split at h
  · cases h; nofun
  · split at h <;> cases h
    nofun

theorem dlAddColor_error_ne_none {text : Bytes} (h : dlAddColor dl text = .error c) : c ≠ .none := by
  unfold dlAddColor at h
  split at h
  · cases h; nofun
  · split at h
    · cases h; nofun
    · exact dlAppend_error_ne_none h

theorem dlEnd_error_ne_none (h : dlEnd dl = .error c) : c ≠ .none := by
  unfold dlEnd at h
  split at h <;> cases h
  nofun

theorem dlOperation_error_ne_none {i : Instr} (h : dlOperation i dl = some (.error c)) : c ≠ .none := by
  cases i with
  | dlstart => exact dlStart_error_ne_none (Option.some.inj h)
  | dlprimitive | dlvertex => exact dlAppend_error_ne_none (Option.some.inj h)
  | dlcolor => exact dlAddColor_error_ne_none (Option.some.inj h)
  | dlend => exact dlEnd_error_ne_none (Option.some.inj h)
  | _ => cases h

end

/-! ### The writes that keep the invariant -/

theorem toNat_add_ofNat_of_lt {w : Word} {n : Nat} (h : w.toNat + n < 2 ^ 32) :
    (w + BitVec.ofNat 32 n).toNat = w.toNat + n := by
  rw [BitVec.toNat_add, BitVec.toNat_ofNat]
  omega

theorem cellOk_integer (v : Word) : CellOk ⟨v, .integer, []⟩ := ⟨fun _ => rfl, nofun, Nat.zero_le _⟩

theorem cellOk_float (v : Word) : CellOk ⟨v, .float, []⟩ := ⟨fun _ => rfl, nofun, Nat.zero_le _⟩

theorem cellOk_model {n : Bytes} (h : stringFits n = true) : CellOk ⟨0, .model, n⟩ :=
  ⟨fun hne => absurd rfl hne, fun _ => rfl, (stringFits_iff n).1 h⟩

section
variable {s : State}

theorem State.Inv.dlOk (h : s.Inv) : s.dl.Ok := ⟨h.names, h.sealed, h.building⟩

theorem State.Inv.addLog (h : s.Inv) (e : LogEntry) : (s.addLog e).Inv := { h with }

theorem State.Inv.emit (h : s.Inv) (c : RenderCall) : (s.emit c).Inv := { h with }

theorem State.Inv.drawRand (h : s.Inv) : s.drawRand.2.Inv := { h with }

theorem State.Inv.drawTick (h : s.Inv) : s.drawTick.2.Inv := { h with }

theorem State.Inv.jump (h : s.Inv) {t : Word} (ht : t.toNat ≤ Config.sizeCode) : (s.jump t).Inv := { h with pc := ht }

theorem State.Inv.advance (h : s.Inv) {n : Nat} (hn : s.pc.toNat + n ≤ Config.sizeCode) : (s.advance n).Inv :=
  h.jump (by rw [toNat_add_ofNat_of_lt (hn.trans_lt (by decide))]; exact hn)

theorem State.Inv.stopped (h : s.Inv) {c : StopCode} (hc : c ≠ .none) :
    ({ s with running := false, stop := c.code } : State).Inv :=
  { h with stop := ⟨c, rfl, by simp [hc]⟩ }

theorem State.Inv.halt (h : s.Inv) {c : StopCode} (hc : c ≠ .none) : (s.halt c).Inv := (h.stopped hc).addLog _

theorem State.Inv.raise (h : s.Inv) {c : StopCode} (hc : c ≠ .none) : (s.raise c).Inv := (h.stopped hc).addLog _

theorem State.Inv.setCell (h : s.Inv) (i : RegIdx) {c : RegCell} (hc : CellOk c) : (s.setCell i c).Inv :=
  { h with
    cells := fun j => by
      rw [State.setCell_cell]
      split
      · exact hc
      · exact h.cells j }

theorem State.Inv.withFlags (h : s.Inv) {w : Word} (hw : FlagsSticky s.flags w) : ({ s with flags := w } : State).Inv :=
  { h with flags := fun k hk => (hw.2 k hk).trans (h.flags k hk) }

theorem State.Inv.withCallStack (h : s.Inv) {cs : List Word} (hdepth : cs.length ≤ Config.callDepth)
    (hreturns : ∀ a ∈ cs, a.toNat ≤ Config.sizeCode) : ({ s with callStack := cs } : State).Inv :=
  { h with callDepth := hdepth, returns := hreturns }

theorem State.Inv.withOperandStack (h : s.Inv) {os : List Word} (hdepth : os.length ≤ Config.stackDepth) :
    ({ s with operandStack := os } : State).Inv :=
  { h with stackDepth := hdepth }

theorem State.Inv.withMem (h : s.Inv) {m : Memory} (hm : m.wf = true) : ({ s with mem := m } : State).Inv :=
  { h with mem := hm }

theorem State.Inv.withDl (h : s.Inv) {dl : DlManager} (hdl : dl.Ok) : ({ s with dl := dl } : State).Inv :=
  { h with names := hdl.names, sealed := hdl.sealed, building := hdl.building }

theorem State.storeRecord_vcur {record : Bytes} (hfit : s.vcur.toNat + record.length ≤ Config.sizeVideo) :
    (s.storeRecord record).vcur.toNat = s.vcur.toNat + record.length :=
  toNat_add_ofNat_of_lt (hfit.trans_lt (by decide))

theorem State.Inv.storeRecord (h : s.Inv) {record : Bytes}
    (hfit : s.vcur.toNat + record.length ≤ Config.sizeVideo) : (s.storeRecord record).Inv :=
  { h with
    mem := Memory.store_wf _ _ _ _ h.mem hfit
    vcur := by rw [State.storeRecord_vcur hfit]; exact hfit }

end

/-! ### Every step (O50, O51) -/

/-- A fetched instruction is well formed, and lies whole inside the program. -/
theorem wellFormed_and_inside_of_fetch {s : State} {i : Instr} (h : fetch s = .instr i) :
    i.wellFormed = true ∧ s.pc.toNat + i.len ≤ s.programLength.toNat := by
  obtain hstop | ⟨hout, -⟩ | hstop | ⟨j, row, len, rest, hj, -, -, hin, -, hdecode⟩ := fetch_cases s
  · cases h.symm.trans hstop
  · cases h.symm.trans hout
  · cases h.symm.trans hstop
  · cases h.symm.trans hj
    obtain ⟨hwf, hbytes⟩ := (decode_eq_instr_iff ..).1 hdecode
    have hlen := congrArg List.length hbytes
    rw [Memory.span_length, List.length_append, encode_length] at hlen
    exact ⟨hwf, by omega⟩

theorem fetch_stop_ne_none {s : State} {c : StopCode} (h : fetch s = .stop c) : c ≠ .none := by
  obtain hstop | ⟨hout, -⟩ | hstop | ⟨i, -, -, -, hi, -⟩ := fetch_cases s
  · cases h.symm.trans hstop; nofun
  · cases h.symm.trans hout
  · cases h.symm.trans hstop; nofun
  · cases h.symm.trans hi

/-- What a well-formed instruction does keeps the invariant, when the bytes it passes lie in the Code domain. -/
theorem Effect.inv {s t : State} {i : Instr} (h : Effect s i t) (hs : s.Inv) (hwf : i.wellFormed = true)
    (hpc : s.pc.toNat + i.len ≤ Config.sizeCode) : t.Inv := by
  have hlength := hs.programLength
  cases h with
  | skip => exact (hs.addLog _).advance hpc
  | raise _ hc => exact hs.raise hc
  | halt _ hc => exact hs.halt hc
  | hlt => exact (hs.advance hpc).halt nofun
  | pass => exact hs.advance hpc
  | logged => exact (hs.addLog _).advance hpc
  | setErr => exact (hs.withFlags (flagsSticky_setErr _)).advance hpc
  | writeInt _ c v => exact (hs.setCell c (cellOk_integer v)).advance hpc
  | writeFloat _ c f => exact (hs.setCell c (cellOk_float f)).advance hpc
  | storemodel r n c => exact (hs.setCell c (cellOk_model hwf)).advance hpc
  | intResult _ c v =>
    exact ((hs.withFlags (flagsSticky_flagsOfResult _ v)).setCell c (cellOk_integer v)).advance hpc
  | cmp _ _ a b => exact (hs.withFlags (flagsSticky_flagsOfCmp _ a b)).advance hpc
  | cmpi _ imm a => exact (hs.withFlags (flagsSticky_flagsOfCmpi _ a imm)).advance hpc
  | jump _ ht => exact hs.jump (by omega)
  | @call t ht hdepth =>
    have hnext : (s.pc + BitVec.ofNat 32 (Instr.call t).len).toNat ≤ Config.sizeCode := by
      rw [toNat_add_ofNat_of_lt (hpc.trans_lt (by decide))]; exact hpc
    refine (hs.withCallStack ?_ fun a ha => ?_).jump (by omega)
    · rw [List.length_append]; exact hdepth
    · obtain ha | ha := List.mem_append.1 ha
      · exact hs.returns a ha
      · exact List.mem_singleton.1 ha ▸ hnext
  | ret ht hcs =>
    have hdepth := hs.callDepth
    rw [hcs, List.length_append] at hdepth
    exact (hs.withCallStack (by omega) fun a ha => hs.returns a (hcs ▸ List.mem_append_left _ ha)).jump (by omega)
  | push _ v hdepth =>
    refine (hs.withOperandStack ?_).advance hpc
    rw [List.length_append]; exact hdepth
  | @pop _ c v os hos =>
    have hdepth := hs.stackDepth
    rw [hos, List.length_append] at hdepth
    exact ((hs.withOperandStack (by omega)).setCell c (cellOk_integer v)).advance hpc
  | rand _ c => exact (hs.drawRand.setCell c (cellOk_integer _)).advance hpc
  | time _ c => exact (hs.drawTick.setCell c (cellOk_integer _)).advance hpc
  | out _ _ _ hm => exact (hs.withMem (Memory.write_wf _ _ _ _ _ hs.mem hm)).advance hpc
  | storei _ _ _ _ _ _ _ hm => exact (hs.withMem (Memory.write_wf _ _ _ _ _ hs.mem hm)).advance hpc
  | dlCommit _ hdl => exact (hs.withDl (hs.dlOk.operation hwf hdl)).advance hpc
  | dlFail _ hdl => exact hs.raise (dlOperation_error_ne_none hdl)
  | dlcall _ _ _ _ _ hfit => exact ((hs.storeRecord hfit).emit _).advance hpc
  | loadmodel _ _ hfit => exact (hs.storeRecord hfit).advance hpc

/-- Settles O50: a stopped CPU stays as it is, a stop at the fetch is a halt, and an instruction's effect keeps the
invariant as the instruction lies inside the program. -/
theorem stepPreservesInvariant : Obligations.StepPreservesInvariant := by
  intro s t hs h
  obtain ⟨-, hnext⟩ | ⟨-, c, hfetch, hnext⟩ | ⟨-, -, hnext⟩ | ⟨-, i, hfetch, hnext⟩ := step_cases s _ h
  · cases hnext
    exact hs
  · cases hnext
    exact hs.halt (fetch_stop_ne_none hfetch)
  · cases hnext
  · obtain ⟨hwf, hin⟩ := wellFormed_and_inside_of_fetch hfetch
    exact (effect_of_exec hnext.symm).inv hs hwf (hin.trans hs.programLength)

/-- Settles O51: only a fetch outside the Code domain ends in a fault, and the program is no longer than the domain. -/
theorem stepAnswersNext : Obligations.StepAnswersNext := by
  intro s hs
  obtain ⟨-, hnext⟩ | ⟨-, c, -, hnext⟩ | ⟨-, hfetch, -⟩ | ⟨-, i, -, hnext⟩ := step_cases s _ rfl
  · exact ⟨_, hnext⟩
  · exact ⟨_, hnext⟩
  · have hlength := hs.programLength
    obtain hstop | ⟨-, hlong⟩ | hstop | ⟨i, -, -, -, hi, -⟩ := fetch_cases s
    · cases hfetch.symm.trans hstop
    · omega
    · cases hfetch.symm.trans hstop
    · cases hfetch.symm.trans hi
  · obtain ⟨t, ht, -⟩ := exec_effect i s
    exact ⟨t, hnext.trans ht⟩

/-! ### Reset and the host (O49, O52) -/

/-- The CPU reset port gives the invariant back to every state whose memory, program length and operand stack have it. -/
theorem State.cpuReset_inv {s : State} (hlength : s.programLength.toNat ≤ Config.sizeCode)
    (hdepth : s.operandStack.length ≤ Config.stackDepth) (hmem : s.mem.wf = true) : s.cpuReset.Inv where
  cells i := by rw [State.cpuReset_cell]; exact cellOk_integer 0
  flags _ _ := BitVec.getLsbD_zero
  gflags := rfl
  pc := Nat.zero_le _
  stop := ⟨.none, rfl, by simp⟩
  programLength := hlength
  callDepth := Nat.zero_le _
  returns := nofun
  stackDepth := hdepth
  vcur := Nat.zero_le _
  mem := hmem
  names := DlManager.Ok.empty.names
  sealed := DlManager.Ok.empty.sealed
  building := DlManager.Ok.empty.building

theorem State.reset_inv : State.reset.Inv :=
  State.cpuReset_inv (s := State.reset) (Nat.zero_le _) (Nat.zero_le _) State.reset_mem_wf

theorem State.atPowerOn_inv : State.atPowerOn.Inv := State.reset_inv.stopped (c := .powerOn) nofun

/-- Settles O49: reset is the CPU reset of an empty machine, and power-on is reset with the CPU stopped. -/
theorem resetKeepsInvariant : Obligations.ResetKeepsInvariant := ⟨State.reset_inv, State.atPowerOn_inv⟩

section
variable {s t : State}

theorem State.Inv.hostPowerOn (s : State) : s.hostPowerOn.Inv := { State.atPowerOn_inv with }

theorem State.Inv.cpuReset (h : s.Inv) : s.cpuReset.Inv := State.cpuReset_inv h.programLength h.stackDepth h.mem

theorem State.Inv.memReset (h : s.Inv) : s.memReset.Inv :=
  { h with
    programLength := Nat.zero_le _
    stackDepth := Nat.zero_le _
    mem := s.memReset_wf h.mem }

theorem State.Inv.hostStop (h : s.Inv) : s.hostStop.Inv := by
  unfold State.hostStop
  split
  · exact h.stopped nofun
  · exact h

theorem State.Inv.hostLoadProgram (h : s.Inv) {b : Bytes} (ht : s.hostLoadProgram b = .ok t) : t.Inv := by
  unfold State.hostLoadProgram at ht
  split at ht
  · rename_i hfits
    cases ht
    have hlen : (BitVec.ofNat 32 b.length).toNat ≤ Config.sizeCode := by rw [BitVec.toNat_ofNat]; omega
    exact { h.withMem (Memory.store_wf _ .code 0 b h.mem (by rwa [Nat.zero_add])) with programLength := hlen }
  · cases ht

theorem State.Inv.hostLoadRom (h : s.Inv) {o : Int} {b : Bytes} (ht : s.hostLoadRom o b = .ok t) : t.Inv := by
  unfold State.hostLoadRom at ht
  split at ht
  · rename_i hin
    obtain ⟨hlow, hhigh⟩ := (inRange_iff ..).1 hin
    cases ht
    exact h.withMem (Memory.store_wf _ .rom _ b h.mem (by omega))
  · cases ht

theorem State.Inv.hostStore (h : s.Inv) {d : Byte} {a : Int} {vs : Bytes} (ht : s.hostStore d a vs = .ok t) :
    t.Inv := by
  unfold State.hostStore at ht
  split at ht
  · rename_i m hm
    obtain ⟨e, -, hwrite⟩ := Option.bind_eq_some_iff.1 hm
    cases ht
    exact h.withMem (Memory.write_wf _ _ _ _ _ h.mem hwrite)
  · cases ht

theorem State.Inv.hostCopyBlock (h : s.Inv) {sd dd : Byte} {sa da : Int} {n : Nat}
    (ht : s.hostCopyBlock sd sa dd da n = .ok t) : t.Inv := by
  unfold State.hostCopyBlock at ht
  split at ht
  · exact h.hostStore ht
  · cases ht

theorem State.Inv.hostPush (h : s.Inv) {v : Word} (ht : s.hostPush v = .ok t) : t.Inv := by
  unfold State.hostPush at ht
  split at ht
  · rename_i os hos
    obtain ⟨hdepth, rfl⟩ := (pushBounded_cases ..).1 hos
    cases ht
    exact h.withOperandStack (by rw [List.length_append]; exact hdepth)
  · cases ht

theorem State.Inv.hostPop (h : s.Inv) (ht : (s.hostPop.map fun r => r.2) = .ok t) : t.Inv := by
  unfold State.hostPop at ht
  split at ht
  · rename_i v os hpop
    have hdepth := h.stackDepth
    rw [(popLast_cases ..).1 hpop, List.length_append] at hdepth
    cases ht
    exact h.withOperandStack (by omega)
  · cases ht

theorem State.Inv.hostManager (h : s.Inv) {res : Except StopCode DlManager} (hok : ∀ dl, res = .ok dl → dl.Ok)
    (ht : s.hostManager res = .ok t) : t.Inv := by
  cases res with
  | ok dl => cases ht; exact h.withDl (hok dl rfl)
  | error c => cases ht

theorem State.Inv.hostStoreToDomain (h : s.Inv) {n : Bytes} {a : Int} (ht : s.hostStoreToDomain n a = .ok t) :
    t.Inv := by
  unfold State.hostStoreToDomain at ht
  split at ht
  · cases ht
  · split at ht
    · rename_i m hm
      cases ht
      exact h.withMem (Memory.write_wf _ _ _ _ _ h.mem hm)
    · cases ht

theorem State.Inv.hostCall (h : s.Inv) {n : Bytes} {x y z : Word} (ht : s.hostCall n x y z = .ok t) : t.Inv := by
  unfold State.hostCall at ht
  cases hsealed : s.hostSealed n with
  | ok cmds => rw [hsealed] at ht; cases ht; exact h.emit _
  | error e => rw [hsealed] at ht; cases ht

end

/-- Settles O52: each operation is one of the writes that keep the invariant; only the name of a started list needs the
operation to be well formed. -/
theorem hostOpsPreserveInvariant : Obligations.HostOpsPreserveInvariant := by
  intro s t op hs hwf h
  cases op with
  | powerOn => cases h; exact .hostPowerOn s
  | cpuReset => cases h; exact hs.cpuReset
  | memReset => cases h; exact hs.memReset
  | loadProgram b => exact hs.hostLoadProgram h
  | loadRom o b => exact hs.hostLoadRom h
  | stop => cases h; exact hs.hostStop
  | write | writeInt | writeFloat => exact hs.hostStore h
  | copyBlock => exact hs.hostCopyBlock h
  | push v => exact hs.hostPush h
  | pop => exact hs.hostPop h
  | start n => exact hs.hostManager (fun _ => hs.dlOk.start hwf) h
  | addPrimitive => exact hs.hostManager (fun _ => hs.dlOk.addPrimitive) h
  | addColor => exact hs.hostManager (fun _ => hs.dlOk.addColor) h
  | addVertex => exact hs.hostManager (fun _ => hs.dlOk.addVertex) h
  | endList => exact hs.hostManager (fun _ => hs.dlOk.endList) h
  | storeToDomain => exact hs.hostStoreToDomain h
  | call => exact hs.hostCall h
  | takeRenderCalls | takeLog => cases h; exact { hs with }

end Sys2Proof.Machine
end

section
/-! Display lists (family 47_display_list.md, obligations O37 to O45). The instructions of the manager commit its answer or
fault with its failure, so their claims follow from what the manager answers. DLCALL and LOADMODEL share the store of a
record into Video. The record and the colour text are read as the bytes that Safety.lean writes out. -/

namespace Sys2Proof.Machine

/-! ### The commit of the manager's answer (R390 to R394) -/

theorem State.dl_frame (s : State) (dl : DlManager) : SameBut [.dl] s { s with dl := dl } := by
  intro p hp
  cases p with
  | dl => simp at hp
  | regs => exact fun _ => rfl
  | memory => exact fun _ _ => rfl
  | _ => rfl

section
variable {i : Instr} {s : State} {res : Except StopCode DlManager} {len : Nat}

theorem Faults.of_commitDl {c : StopCode} (h : exec i s = .next (commitDl i res s)) (hres : res = .error c) :
    Faults i s c := by
  subst hres
  exact .of h

theorem Completes.of_commitDl {dl : DlManager} (h : exec i s = .next (commitDl i res s)) (hres : res = .ok dl)
    (hlen : i.len = len) :
    Completes i s [.pc, .dl] fun t => t.dl = dl ∧ t.pc = s.pc + BitVec.ofNat 32 len := by
  subst hres hlen
  exact .of h (((s.dl_frame dl).trans (State.advance_frame _ i.len)).mono (by decide)) ⟨rfl, rfl⟩

end

/-! ### What the manager answers (R371 to R376) -/

section
variable {dl : DlManager} {n : Bytes} {cmds : List DlCommand}

theorem dlStart_of_open (n : Bytes) (h : dl.building ≠ none) : dlStart dl n = .error .dlAlreadyOpen := by
  obtain ⟨b, hb⟩ := Option.ne_none_iff_exists'.1 h
  simp only [dlStart, hb]

theorem dlStart_of_sealed (hopen : dl.building = none) (h : n ∈ dl.lists.map (·.1)) :
    dlStart dl n = .error .dlDuplicateName := by
  obtain ⟨c, hc⟩ := Option.ne_none_iff_exists'.1 fun hnone => (lookupList_none ..).1 hnone h
  simp only [dlStart, hopen, hc]

theorem dlAppend_of_not_open (count : List DlCommand → Nat) (c : DlCommand) (h : dl.building = none) :
    dlAppend dl count c = .error .dlNotOpen := by
  simp only [dlAppend, h]

theorem dlAppend_of_full {count : List DlCommand → Nat} (c : DlCommand) (h : dl.building = some (n, cmds))
    (hfull : 255 ≤ count cmds) : dlAppend dl count c = .error .dlListFull := by
  simp only [dlAppend, h, if_neg (Nat.not_lt.2 hfull)]

theorem dlAppend_of_room {count : List DlCommand → Nat} (c : DlCommand) (h : dl.building = some (n, cmds))
    (hroom : ¬ 255 ≤ count cmds) : dlAppend dl count c = .ok ⟨dl.lists, some (n, cmds ++ [c])⟩ :=
  (dlAppend_cases ..).2 ⟨n, cmds, h, Nat.lt_of_not_le hroom, rfl⟩

theorem dlAddColor_of_not_open (text : Bytes) (h : dl.building = none) : dlAddColor dl text = .error .dlNotOpen := by
  simp only [dlAddColor, h]

theorem dlAddColor_of_malformed {text : Bytes} (h : dl.building = some (n, cmds)) (htext : parseColor text = none) :
    dlAddColor dl text = .error .badColor := by
  simp only [dlAddColor, h, htext]

theorem dlAddColor_of_parsed {text : Bytes} {r g b : Byte} (h : dl.building = some (n, cmds))
    (htext : parseColor text = some (r, g, b)) : dlAddColor dl text = dlAppend dl countColors (.color r g b) := by
  simp only [dlAddColor, h, htext]

theorem dlEnd_of_not_open (h : dl.building = none) : dlEnd dl = .error .dlNotOpen := by
  simp only [dlEnd, h]

end

/-- Settles O37: the three answers of `dlStart`, in the order of its checks. -/
theorem dlstartOpens : Obligations.DlstartOpens := by
  refine fun s n => ⟨rfl, ?_⟩
  split
  next hopen => exact .of_commitDl rfl (dlStart_of_open n hopen)
  next hopen =>
    have hclosed : s.dl.building = none := not_not.1 hopen
    split
    next hsealed => exact .of_commitDl rfl (dlStart_of_sealed hclosed hsealed)
    next hnew => exact .of_commitDl rfl (dlStart_cases.2 ⟨hclosed, (lookupList_none ..).2 hnew, rfl⟩) rfl

/-- Settles O38: both append a command of a kind, so both have the three answers of `dlAppend`. -/
theorem dlprimitiveDlvertexAppend : Obligations.DlprimitiveDlvertexAppend := by
  rintro p (⟨b, rfl⟩ | ⟨x, y, z, rfl⟩) s
  all_goals
    refine ⟨rfl, ?_⟩
    split
    next hopen => exact .of_commitDl rfl (dlAppend_of_not_open _ _ hopen)
    next n cmds hopen =>
      split
      next hfull => exact .of_commitDl rfl (dlAppend_of_full _ hopen hfull)
      next hroom => exact .of_commitDl rfl (dlAppend_of_room _ hopen hroom) rfl

/-- Settles O39: the text is parsed before the limit is checked, and the rest is `dlAppend`. -/
theorem dlcolorAppends : Obligations.DlcolorAppends := by
  refine fun s c => ⟨rfl, ?_⟩
  split
  next hopen => exact .of_commitDl rfl (dlAddColor_of_not_open c hopen)
  next n cmds hopen =>
    split
    next htext => exact .of_commitDl rfl (dlAddColor_of_malformed hopen htext)
    next r g b htext =>
      have hadd := dlAddColor_of_parsed hopen htext
      split
      next hfull => exact .of_commitDl rfl (hadd.trans (dlAppend_of_full _ hopen hfull))
      next hroom => exact .of_commitDl rfl (hadd.trans (dlAppend_of_room _ hopen hroom)) rfl

/-- Settles O41: the two answers of `dlEnd`; what each name then finds is the law of `insertList`. -/
theorem dlendSeals : Obligations.DlendSeals := by
  refine fun s => ⟨rfl, ?_⟩
  split
  next hopen => exact .of_commitDl rfl (dlEnd_of_not_open hopen)
  next n cmds hopen =>
    obtain ⟨t, hexec, hframe, hdl, hpc⟩ :=
      Completes.of_commitDl (i := .dlend) (s := s) (len := 1) rfl (dlEnd_cases.2 ⟨n, cmds, hopen, rfl⟩) rfl
    refine .of hexec hframe ⟨by rw [hdl], ?_, fun m hm => ?_, hpc⟩
    · rw [hdl, lookupList_insertList, if_pos rfl]
    · rw [hdl, lookupList_insertList, if_neg hm]

/-! ### The store of a record into Video (R381) -/

theorem State.storeRecord_frame (s : State) (record : Bytes) : SameBut [.memory, .vcur] s (s.storeRecord record) := by
  intro p hp
  cases p with
  | memory | vcur => simp at hp
  | regs => exact fun _ => rfl
  | _ => rfl

theorem State.emit_frame (s : State) (c : RenderCall) : SameBut [.renderCalls] s (s.emit c) := by
  intro p hp
  cases p with
  | renderCalls => simp at hp
  | regs => exact fun _ => rfl
  | memory => exact fun _ _ => rfl
  | _ => rfl

theorem State.storeRecord_storesRecord {s : State} {record : Bytes}
    (hfit : s.vcur.toNat + record.length ≤ Config.sizeVideo) : StoresRecord record s (s.storeRecord record) :=
  ⟨fun k hk => s.mem.store_byte_at .video _ record k hk, fun e b => s.mem.store_byte_other .video _ record e b,
    State.storeRecord_vcur hfit⟩

/-- Settles O42: the sealed list's record fits and is stored, or it does not and ERR is set. -/
theorem dlcallStoresAndEmits : Obligations.DlcallStoresAndEmits := by
  refine fun s n x y z => ⟨rfl, ?_⟩
  have hexec : exec (.dlcall n x y z) s = execDlcall n x y z s := rfl
  unfold execDlcall at hexec
  split
  next hn =>
    simp only [hn] at hexec
    exact Faults.of hexec
  next cmds hn =>
    split
    next hfit =>
      simp only [hn, storeToVideo_of_fits hfit] at hexec
      have hframe := (s.storeRecord_frame (serialize n cmds)).trans
        ((State.emit_frame _ ⟨n, x, y, z, some (s.vcur.toNat, (serialize n cmds).length)⟩).trans
          (State.advance_frame _ (14 + n.length)))
      exact .of hexec (hframe.mono (by decide)) ⟨State.storeRecord_storesRecord hfit, rfl, rfl⟩
    next hfull =>
      simp only [hn, storeToVideo_of_not_fits hfull] at hexec
      exact SetsErr.of hexec rfl

/-- Settles O43: the name is not looked at, so past the register check the cell is written. -/
theorem storemodelWritesModel : Obligations.StoremodelWritesModel := fun s r n =>
  ⟨rfl, .of (fun c => (s.writeModel c n).advance (3 + n.length)) rfl rfl fun c h =>
    .of h ((s.setCell_advance_frame c _ _).mono (by decide)) ⟨s.setCell_advance_writesCell c _ _, rfl⟩⟩

/-- Settles O44: the three answers of `readModel`; a name leads to the store DLCALL makes. -/
theorem loadmodelStores : Obligations.LoadmodelStores := by
  refine fun s r => ⟨rfl, .of _ rfl rfl fun c h => ?_⟩
  split
  next htag =>
    simp only [State.readModel_eq, if_pos htag] at h
    split
    next hn =>
      simp only [hn] at h
      exact Faults.of h
    next cmds hn =>
      split
      next hfit =>
        simp only [hn, storeToVideo_of_fits hfit] at h
        have hframe := (s.storeRecord_frame (serialize (s.cell c).name cmds)).trans (State.advance_frame _ 2)
        exact .of h (hframe.mono (by decide)) ⟨State.storeRecord_storesRecord hfit, rfl⟩
      next hfull =>
        simp only [hn, storeToVideo_of_not_fits hfull] at h
        exact SetsErr.of h rfl
  next htag =>
    split
    next hpolicy =>
      simp only [State.readModel_eq, if_neg htag, if_pos hpolicy] at h
      exact .of h (((s.addLog_frame _).trans (State.advance_frame _ 2)).mono (by decide)) ⟨rfl, rfl⟩
    next hpolicy =>
      simp only [State.readModel_eq, if_neg htag, if_neg hpolicy] at h
      exact Faults.of h

/-! ### The colour text (R373) -/

/-- What may stand before the six digits of a colour text. -/
def colorMarkers : List Bytes := [[], [0x23], [0x30, 0x78], [0x30, 0x58]]

theorem exists_marker_append_colorDigits (c : Bytes) : ∃ pre ∈ colorMarkers, c = pre ++ colorDigits c := by
  unfold colorDigits
  split
  next a t =>
    split
    next ha => exact ⟨[0x23], by decide, by rw [ha]; rfl⟩
    next ha =>
      split
      next b u =>
        split
        next hab =>
          obtain ⟨rfl, rfl | rfl⟩ := hab
          · exact ⟨[0x30, 0x78], by decide, rfl⟩
          · exact ⟨[0x30, 0x58], by decide, rfl⟩
        next => exact ⟨[], by decide, rfl⟩
      next => exact ⟨[], by decide, rfl⟩
  next => exact ⟨[], by decide, rfl⟩

theorem IsHexPair.ne_marker {h l b : Byte} (hp : IsHexPair h l b) : h ≠ 0x23 ∧ l ≠ 0x78 ∧ l ≠ 0x58 := by
  obtain ⟨v, w, hv, hw, -⟩ := hp
  unfold IsHexDigit at hv hw
  refine ⟨?_, ?_, ?_⟩ <;> rintro rfl <;> simp at hv hw <;> omega

/-- Digits are not taken for a marker, so exactly the marker is dropped. -/
theorem colorDigits_marker_append {pre : Bytes} (hpre : pre ∈ colorMarkers) {h l b : Byte} (hp : IsHexPair h l b)
    (rest : Bytes) : colorDigits (pre ++ h :: l :: rest) = h :: l :: rest := by
  obtain ⟨hh, hx, hX⟩ := hp.ne_marker
  simp only [colorMarkers, List.mem_cons, List.not_mem_nil, or_false] at hpre
  obtain rfl | rfl | rfl | rfl := hpre
  · exact (if_neg hh).trans (if_neg fun hzero => hzero.2.elim hx hX)
  · simp [colorDigits]
  · simp [colorDigits]
  · simp [colorDigits]

theorem parseColor_eq_some_iff (c : Bytes) (r g b : Byte) :
    parseColor c = some (r, g, b) ↔ ∃ d0 d1 d2 d3 d4 d5,
      colorDigits c = [d0, d1, d2, d3, d4, d5] ∧ IsHexPair d0 d1 r ∧ IsHexPair d2 d3 g ∧ IsHexPair d4 d5 b := by
  simp only [← hexPair_eq_some_iff]
  unfold parseColor
  constructor
  · intro h
    split at h
    next d0 d1 d2 d3 d4 d5 hdigits =>
      split at h
      next hr hg hb =>
        cases h
        exact ⟨d0, d1, d2, d3, d4, d5, hdigits, hr, hg, hb⟩
      next => cases h
    next => cases h
  · rintro ⟨d0, d1, d2, d3, d4, d5, hdigits, hr, hg, hb⟩
    simp only [hdigits, hr, hg, hb]

/-- Settles O40: the parser reads the text behind its marker, and no marker begins with a pair of digits. -/
theorem colorTextSyntax : Obligations.ColorTextSyntax := by
  intro c r g b
  rw [parseColor_eq_some_iff]
  constructor
  · rintro ⟨d0, d1, d2, d3, d4, d5, hdigits, hpairs⟩
    obtain ⟨pre, hpre, hc⟩ := exists_marker_append_colorDigits c
    exact ⟨pre, hpre, d0, d1, d2, d3, d4, d5, hdigits ▸ hc, hpairs⟩
  · rintro ⟨pre, hpre, d0, d1, d2, d3, d4, d5, rfl, hr, hgb⟩
    exact ⟨d0, d1, d2, d3, d4, d5, colorDigits_marker_append hpre hr _, hr, hgb⟩

/-! ### The record (R377, R378) -/

theorem commandBytes_length (c : DlCommand) :
    (commandBytes c).length = if c.isPrim then 2 else if c.isColor then 4 else 13 := by
  cases c <;> rfl

theorem flatMap_commandBytes_length (cmds : List DlCommand) :
    (cmds.flatMap commandBytes).length = 2 * countPrims cmds + 4 * countColors cmds + 13 * countVertices cmds := by
  induction cmds with
  | nil => rfl
  | cons c cmds ih =>
    rw [List.flatMap_cons, List.length_append, ih]
    unfold countPrims countColors countVertices
    cases c with
    | prim | color | vertex =>
      simp only [List.countP_cons, DlCommand.isPrim, DlCommand.isColor, DlCommand.isVertex, commandBytes_length,
        if_true, Bool.false_eq_true, if_false]
      omega

theorem serialize_length (n : Bytes) (cmds : List DlCommand) :
    (serialize n cmds).length = 5 + n.length + 2 * countPrims cmds + 4 * countColors cmds + 13 * countVertices cmds := by
  simp only [serialize, List.length_cons, List.length_append, List.length_nil, flatMap_commandBytes_length]
  omega

theorem serialize_eq_recordBytes (n : Bytes) (cmds : List DlCommand) :
    serialize n cmds
      = [0xD1, BitVec.ofNat 8 n.length] ++ n
        ++ [BitVec.ofNat 8 (tagCount 0x03 cmds), BitVec.ofNat 8 (tagCount 0x02 cmds), BitVec.ofNat 8 (tagCount 0x01 cmds)]
        ++ cmds.flatMap (fun c => recordTag c :: recordPayload c) := by
  have hbytes : commandBytes = fun c => recordTag c :: recordPayload c := funext commandBytes_eq
  simp only [serialize, ← countPrims_eq_tagCount, ← countColors_eq_tagCount, ← countVertices_eq_tagCount, ← hbytes,
    lengthByte, Config.dlMagic, List.cons_append, List.nil_append, List.append_assoc]

theorem decodeCommands_flatMap (cmds : List DlCommand) (rest : Bytes) :
    decodeCommands cmds.length (cmds.flatMap commandBytes ++ rest) = some (cmds, rest) := by
  induction cmds with
  | nil => rfl
  | cons c cmds ih =>
    rw [List.flatMap_cons, List.append_assoc, List.length_cons, decodeCommands]
    simp only [decodeCommand_bytes, ih, Option.map_some]

/-- A record within the limits decodes to its list: its counts are those of the bytes, and their sum is how many commands
the decoder reads. -/
theorem deserialize_serialize_append {n : Bytes} {cmds : List DlCommand} (h : ListOk n cmds) (after : Bytes) :
    deserialize (serialize n cmds ++ after) = some (n, cmds, (serialize n cmds).length) := by
  obtain ⟨hname, hprims, hcolors, hvertices⟩ := h
  have hcount : ∀ k ≤ 255, (BitVec.ofNat 8 k).toNat = k := fun k hk => by rw [BitVec.toNat_ofNat]; omega
  have hfits : stringFits n = true := (stringFits_iff n).2 hname
  have hlength : (serialize n cmds ++ after).length - after.length = (serialize n cmds).length := by
    rw [List.length_append, Nat.add_sub_cancel]
  rw [← hlength]
  simp only [serialize, List.cons_append, List.append_assoc, List.nil_append, deserialize, if_true,
    decodeString_lengthByte _ _ hfits, hcount _ hprims, hcount _ hcolors, hcount _ hvertices, ← length_eq_counts,
    decodeCommands_flatMap, and_self]

/-- Settles O45: the bytes, their number, and the decoder's answer. -/
theorem recordRoundTrip : Obligations.RecordRoundTrip := by
  refine fun n cmds h => ⟨serialize_eq_recordBytes n cmds, ?_, deserialize_serialize_append h⟩
  rw [serialize_length, countPrims_eq_tagCount, countColors_eq_tagCount, countVertices_eq_tagCount]

end Sys2Proof.Machine
end

section
/-! The assembler (family 48_assembler.md, obligations O59 and O60). `AssemblesTo` says of an instruction made for an
operand list that a row of the opcode map makes it of as many operand bytes as pass 1 counts; the encoder's laws then give
the emitted bytes. Labels are recorded at the sum of the sizes before them. -/

namespace Sys2Proof.Machine

/-! ### One instruction line (R440 to R449) -/

/-- The row makes the instruction of operand bytes that, with the opcode, are `size` bytes. -/
def AssemblesTo (row : Builder) (size : Nat) (i : Instr) : Prop :=
  ∃ fields, row.Makes fields i ∧ fields.length + 1 = size

/-- The bytes pass 1 counts for a string token that may be missing (R447). -/
def stringSize (t : Option Bytes) : Nat :=
  match t with
  | some t => min t.length Config.nameMax
  | none => 0

/-- A string operand is cut to what pass 1 counts. -/
theorem stringOperand_length (t : Option Bytes) : (orMissing stringOperand [] t).1.length = stringSize t := by
  cases t with
  | none => rfl
  | some t =>
    simp only [orMissing, stringOperand, stringSize]
    split
    next hfits => exact (min_eq_left hfits).symm
    next hlong => rw [List.length_take, min_comm]

theorem stringOperand_fits (t : Option Bytes) : stringFits (orMissing stringOperand [] t).1 = true := by
  rw [stringFits_iff, stringOperand_length]
  cases t with
  | none => exact Nat.zero_le _
  | some t => exact min_le_right _ _

/-- Every operand list makes an instruction of its row, of the size pass 1 counts. -/
theorem instrOperands_assembles (lt : LabelTable) (op : Byte) (row : Builder) (ts : List Bytes) :
    AssemblesTo row (syntaxSize row.format ts) (instrOperands lt op row ts).1 := by
  cases row with
  | n i => exact ⟨_, .n i, rfl⟩
  | ri mk => exact ⟨_, .ri mk _ _, rfl⟩
  | rr mk => exact ⟨_, .rr mk _ _, rfl⟩
  | r mk => exact ⟨_, .r mk _, rfl⟩
  | a mk => exact ⟨_, .a mk _, rfl⟩
  | b mk => exact ⟨_, .b mk _, rfl⟩
  | m mk => exact ⟨_, .m mk _ _ _ _, rfl⟩
  | v mk => exact ⟨_, .v mk _ _ _, rfl⟩
  | s mk =>
    refine ⟨_, .s mk (orMissing stringOperand [] ts[0]?).1 (stringOperand_fits _), ?_⟩
    have hsize : syntaxSize .s ts = 2 + stringSize ts[0]? := rfl
    simp only [Builder.format, hsize, List.length_cons, stringOperand_length]
    omega
  | sv mk =>
    refine ⟨_, .sv mk (orMissing stringOperand [] ts[0]?).1 _ _ _ (stringOperand_fits _), ?_⟩
    have hsize : syntaxSize .sv ts = 14 + stringSize ts[0]? := rfl
    simp only [Builder.format, hsize, List.length_cons, List.length_append, le32_length, stringOperand_length]
    omega
  | rs mk =>
    refine ⟨_, .rs mk _ (orMissing stringOperand [] ts[1]?).1 (stringOperand_fits _), ?_⟩
    have hsize : syntaxSize .rs ts = 3 + stringSize ts[1]? := rfl
    simp only [Builder.format, hsize, List.length_cons, stringOperand_length]
    omega

/-- A known mnemonic has its row in the opcode map. -/
theorem opcodeMap_of_knownInstr {body : List Bytes} {op : Byte} {row : Builder} {ts : List Bytes}
    (h : knownInstr body = some (op, row, ts)) : opcodeMap op = some row := by
  unfold knownInstr at h
  split at h
  next => cases h
  next m _ =>
    split at h
    next => cases h
    next =>
      obtain ⟨row', hrow, hmade⟩ := Option.map_eq_some_iff.1 h
      cases hmade
      exact hrow

/-- What pass 2 emits for a line: no byte, or the encoding of a well-formed instruction, of the size pass 1 counts. -/
theorem emitLine_cases (lt : LabelTable) (l : SourceLine) :
    (knownInstr l.body = none ∧ (emitLine lt l).1 = [] ∧ lineSize l = 0)
      ∨ ∃ i : Instr, i.wellFormed = true ∧ i.len = lineSize l ∧ (emitLine lt l).1 = encode i := by
  cases hknown : knownInstr l.body with
  | none =>
    refine .inl ⟨rfl, ?_, by simp only [lineSize, hknown]⟩
    simp only [emitLine, hknown]
    cases l.body <;> rfl
  | some known =>
    obtain ⟨op, row, ts⟩ := known
    obtain ⟨fields, hmakes, hsize⟩ := instrOperands_assembles lt op row ts
    obtain ⟨hwf, hencode⟩ := encode_of_makes (opcodeMap_of_knownInstr hknown) hmakes
    refine .inr ⟨_, hwf, ?_, by simp only [emitLine, hknown]⟩
    rw [← encode_length, hencode, List.length_cons, hsize]
    simp only [lineSize, hknown]

theorem emitLine_length (lt : LabelTable) (l : SourceLine) : (emitLine lt l).1.length = lineSize l := by
  obtain ⟨-, hbytes, hsize⟩ | ⟨i, -, hlen, hbytes⟩ := emitLine_cases lt l
  · rw [hbytes, hsize]; rfl
  · rw [hbytes, encode_length, hlen]

/-- Settles O59: the emitted bytes are no byte or an encoding, and an encoding decodes to its instruction. -/
theorem assemblerSizesAgree : Obligations.AssemblerSizesAgree := by
  refine fun lt l => ⟨emitLine_length lt l, fun hknown => ?_⟩
  obtain ⟨hnone, -, -⟩ | ⟨i, hwf, hlen, hbytes⟩ := emitLine_cases lt l
  · exact absurd hnone hknown
  · exact ⟨i, hwf, hlen, (decode_eq_instr_iff ..).2 ⟨hwf, by rw [hbytes, List.append_nil]⟩⟩

/-! ### The label table (R433, R436) -/

theorem findLabel_append (lt : LabelTable) (m n : Bytes) (a : Nat) :
    findLabel (lt ++ [(m, a)]) n = (findLabel lt n).or (if m = n then some a else none) := by
  unfold findLabel
  rw [List.find?_append]
  cases lt.find? fun e => e.1 = n with
  | some e => rfl
  | none => by_cases hm : m = n <;> simp [hm]

/-- What a label finds after a line's labels are recorded: what it found before, or else the line's address where the line
declares it. -/
theorem findLabel_recordLabels {n : Bytes} (hok : labelNameOk n = true) (lt : LabelTable) (a : Nat) (ns : List Bytes) :
    findLabel (recordLabels lt a ns).1 n = (findLabel lt n).or (if n ∈ ns then some a else none) := by
  induction ns generalizing lt with
  | nil => simp [recordLabels]
  | cons m ns ih =>
    unfold recordLabels
    split
    next =>
      split
      next x hfound =>
        rw [ih]
        by_cases hmn : m = n
        · subst hmn
          simp [hfound]
        · simp [Ne.symm hmn]
      next =>
        rw [ih, findLabel_append]
        by_cases hmn : m = n
        · simp [hmn]
        · simp [hmn, Ne.symm hmn]
    next hbad =>
      have hmn : n ≠ m := by rintro rfl; exact hbad hok
      rw [ih]
      simp [hmn]

/-- A label that is in the table keeps its address through pass 1. -/
theorem findLabel_pass1_of_found {n : Bytes} (hok : labelNameOk n = true) {x : Nat} (ls : List SourceLine) (a : Nat)
    {lt : LabelTable} (h : findLabel lt n = some x) : findLabel (pass1 a lt ls).1 n = some x := by
  induction ls generalizing a lt with
  | nil => exact h
  | cons l ls ih => exact ih _ (by rw [findLabel_recordLabels hok, h, Option.some_or])

/-- Pass 1 from any address: the first line that declares a new label gives it the size of the lines before. -/
theorem findLabel_pass1 {n : Bytes} (hok : labelNameOk n = true) {l : SourceLine} (hl : n ∈ l.labels)
    (after before : List SourceLine) (hbefore : ∀ k ∈ before, n ∉ k.labels) (a : Nat) {lt : LabelTable}
    (hnew : findLabel lt n = none) :
    findLabel (pass1 a lt (before ++ l :: after)).1 n = some (a + (before.map lineSize).sum) := by
  induction before generalizing a lt with
  | nil =>
    refine findLabel_pass1_of_found hok after _ ?_
    rw [findLabel_recordLabels hok, hnew, Option.none_or, if_pos hl]
    rfl
  | cons k before ih =>
    obtain ⟨hk, hbefore⟩ := List.forall_mem_cons.1 hbefore
    have hstill : findLabel (recordLabels lt a k.labels).1 n = none := by
      rw [findLabel_recordLabels hok, hnew, Option.none_or, if_neg hk]
    rw [List.map_cons, List.sum_cons, ← Nat.add_assoc]
    exact ih hbefore _ hstill

theorem pass2_length (lt : LabelTable) (ls : List SourceLine) : (pass2 lt ls).1.length = (ls.map lineSize).sum := by
  simp only [pass2, List.length_flatMap, emitLine_length]

/-- Settles O60: pass 1 starts at 0 with no label, and pass 2 emits what pass 1 counts. -/
theorem labelAddresses : Obligations.LabelAddresses := by
  rintro before after l n hok hl hbefore lt rfl
  rw [findLabel_pass1 hok hl after before hbefore 0 rfl, pass2_length, Nat.zero_add]

end Sys2Proof.Machine
end

section
/-! Stops and the CPU reset port (families 60_exceptions.md and 70_reset_and_hazards.md, obligations O47, O54 and O58). Of
the next states of an instruction only a halt and a fault are stopped, so a stop is precise because these two are. -/

namespace Sys2Proof.Machine

/-- Settles O58: the two tables are evaluated. -/
theorem stopCodeTable : Obligations.StopCodeTable := ⟨rfl, rfl⟩

/-! ### Precise stops (60_exceptions.md R502, R503) -/

theorem State.stopped_frame (s : State) (code : Byte) :
    SameBut [.running, .stop] s { s with running := false, stop := code } := by
  intro p hp
  cases p with
  | running | stop => simp at hp
  | regs => exact fun _ => rfl
  | memory => exact fun _ _ => rfl
  | _ => rfl

theorem State.raise_frame (s : State) (c : StopCode) : SameBut [.running, .stop, .log] s (s.raise c) :=
  (s.stopped_frame c.code).trans (State.addLog_frame _ _)

/-- An instruction that stops the CPU halts or faults; HLT alone passes itself first. -/
theorem Effect.stop_frame {s t : State} {i : Instr} (h : Effect s i t) (hrun : s.running = true)
    (hstopped : t.running = false) (hhlt : t.stop ≠ StopCode.halt.code) : SameBut [.running, .stop, .log] s t := by
  cases h with
  | raise _ _ | dlFail _ _ => exact s.raise_frame _
  | halt _ _ => exact s.halt_frame _
  | hlt => exact absurd rfl hhlt
  | _ => cases hrun.symm.trans hstopped

theorem step_stop_frame {s t : State} (hrun : s.running = true) (h : step s = .next t) (hstopped : t.running = false)
    (hhlt : t.stop ≠ StopCode.halt.code) : SameBut [.running, .stop, .log] s t := by
  obtain ⟨hnot, -⟩ | ⟨-, c, -, hnext⟩ | ⟨-, -, hnext⟩ | ⟨-, i, -, hnext⟩ := step_cases s _ h
  · cases hrun.symm.trans hnot
  · cases hnext
    exact s.halt_frame c
  · cases hnext
  · exact (effect_of_exec hnext.symm).stop_frame hrun hstopped hhlt

/-! ### The host's stop (R525) and the run (30_encoding.md R145) -/

theorem State.hostStop_frame {s : State} (hrun : s.running = true) :
    SameBut [.running, .stop] s s.hostStop ∧ s.hostStop.running = false ∧ s.hostStop.stop = 0x06 := by
  rw [State.hostStop_of_running hrun]
  exact ⟨s.stopped_frame _, rfl, rfl⟩

/-- A run whose host stops the CPU at the first boundary returns there. -/
theorem hostRun_of_stop_at_boundary {s t : State} (ops : List HostOp) (host : List (List HostOp))
    (hrun : s.running = true) (h : step s = .next t) (ht : t.running = true) :
    s.hostRun ((ops ++ [.stop]) :: host) = .returned (stepReport s t) (t.hostActs ops).hostStop := by
  obtain ⟨hnot, -⟩ | ⟨-, hno, -⟩ | ⟨-, u, hu, hstopped, -⟩ | ⟨-, u, hu, -, hgo⟩ :=
    runFrom_cons (ops ++ [.stop]) host none s
  · cases hrun.symm.trans hnot
  · exact absurd h (hno t)
  · cases h.symm.trans hu
    cases ht.symm.trans hstopped
  · cases h.symm.trans hu
    rw [State.hostRun, hgo, State.hostActs_append, State.hostActs_cons, State.hostActs_nil, State.hostAct_stop]
    exact runFrom_of_stopped _ _ (State.hostStop_running _)

/-- Settles O54: the frames of the two kinds of stop, and the two laws of a run. -/
theorem stopsArePrecise : Obligations.StopsArePrecise :=
  ⟨fun _ _ => step_stop_frame, fun _ => ⟨State.hostStop_frame, State.hostStop_of_stopped⟩,
    fun _ _ _ _ => runFrom_returned, fun _ _ ops host hrun h ht => ⟨_, hostRun_of_stop_at_boundary ops host hrun h ht⟩⟩

/-! ### The CPU reset port (70_reset_and_hazards.md R550) -/

theorem State.cpuReset_frame (s : State) :
    SameBut [.regs, .flags, .gflags, .callStack, .pc, .running, .stop, .dl, .vcur] s s.cpuReset := by
  intro p hp
  cases p with
  | regs | flags | gflags | callStack | pc | running | stop | dl | vcur => simp at hp
  | memory => exact fun _ _ => rfl
  | _ => rfl

/-- Settles O47: the frame, the law of the reset cells, and the values the port sets. -/
theorem cpuResetPort : Obligations.CpuResetPort := fun s =>
  ⟨s.cpuReset_frame, s.cpuReset_cell, s.cpuReset_flags, s.cpuReset_gflags, s.cpuReset_callStack, s.cpuReset_pc,
    s.cpuReset_running, s.cpuReset_stop, s.cpuReset_dl, s.cpuReset_vcur⟩

end Sys2Proof.Machine
end
